-- ==== Sys2Proof/Word.lean ====
section
/-! DEFINITION. The words of TIMONEL-CORE, by the widths of 00_scope.md R8: a byte of 8 bits, a peer address of 7 bits, the 12-bit request word
and the 15-bit dispatch key of 30_encoding.md R83 and R84. All are unsigned (R9). -/

namespace Sys2Proof

/-- A bus byte, a ring element, a command byte, an echo value (R8). -/
abbrev Byte := BitVec 8

/-- A 7-bit peer address (R8, 90_conflicts.md C2). -/
abbrev PeerAddr := BitVec 7

/-- The request word `W`: `OP` in bits 11:8, `DATA` in bits 7:0 (R83). -/
abbrev ReqWord := BitVec 12

/-- The dispatch key `K = ST ‖ W` (R84). -/
abbrev Key := BitVec 15

end Sys2Proof
end

