-- ==== Sys2Proof/Config.lean ====
section
/-! DEFINITION. What is fixed for a machine: the parameters of 00_scope.md R7 (plain data, carried in the state and written by no step), the codes of the
registers `ST` and `BM` (10_state.md R21, R23), and the free values, whose value nothing in Lean can show. -/

namespace Sys2Proof.Config

/-- Parameters of one device (R7). `RX_LOG2` and `TX_LOG2` range over 0..15. `SLAVE_ADDR` may be any 7-bit value (R29). -/
structure DeviceConfig where
  slaveAddr : PeerAddr
  rxLog2 : Fin 16
  txLog2 : Fin 16
  filler : Byte
  deriving DecidableEq, Repr

/-- `STATUS_WORD_ORDER` (R79). -/
inductive WordOrder where
  | le
  | be
  deriving DecidableEq, Repr

/-- Parameters of the host side (R7). A parameter to which R7 gives a value has that value as its default (93_implementation_defined.md S13). -/
structure HostConfig where
  cmdInit : Byte
  echoInit : Byte
  cmdStatus : Byte
  echoStatus : Byte
  cmdPageWrite : Byte
  echoPageWrite : Byte
  /-- `PAGE_SIZE`, at least 1. -/
  pageSize : Nat
  /-- `MAX_CMD_LEN`, at least 1. -/
  maxCmdLen : Nat
  /-- `MAX_REPLY_LEN`, at least 1. -/
  maxReplyLen : Nat
  wordOrder : WordOrder
  /-- `INIT_DELAY`; no rule reads the length of a wait (log 22). -/
  initDelay : Nat
  statusReplyLen : Nat := 11
  signature : Byte := 84#8
  addrMin : PeerAddr := 8#7
  bootMax : PeerAddr := 35#7
  appMin : PeerAddr := 36#7
  addrMax : PeerAddr := 63#7
  pairOffset : PeerAddr := 28#7
  findFirstMax : PeerAddr := 62#7
  /-- `SETTLE_DELAY_MS`; no rule's outcome depends on its length (R163, log 22). -/
  settleDelayMs : Nat := 5
  deriving DecidableEq, Repr

/-- The lower bounds R7 sets on the open sizes. -/
def HostConfig.wf (c : HostConfig) : Bool :=
  1 ≤ c.pageSize && 1 ≤ c.maxCmdLen && 1 ≤ c.maxReplyLen

/-- DESIGN CHOICE (log 1): the parameters of `State.reset`'s device, the illustrative ones of 95_test_vectors.md. R7 leaves all four OPEN. -/
def exampleDevice : DeviceConfig :=
  { slaveAddr := 10#7, rxLog2 := 2, txLog2 := 2, filler := 0xFF#8 }

/-- DESIGN CHOICE (log 1): the host parameters of `State.reset`, illustrative as in 95_test_vectors.md; R7 leaves those named here OPEN. -/
def exampleHost : HostConfig :=
  { cmdInit := 0x81#8, echoInit := 0x7E#8
    cmdStatus := 0x82#8, echoStatus := 0x7D#8
    cmdPageWrite := 0x83#8, echoPageWrite := 0x7C#8
    pageSize := 4, maxCmdLen := 16, maxReplyLen := 16
    wordOrder := .le, initDelay := 0 }

/-! Codes of `ST` (R21). -/

@[simp] abbrev stAwaitAddress : BitVec 3 := 0#3
@[simp] abbrev stSendDataByte : BitVec 3 := 1#3
@[simp] abbrev stAwaitAckAfterSend : BitVec 3 := 2#3
@[simp] abbrev stCheckReceivedAck : BitVec 3 := 3#3
@[simp] abbrev stReceiveDataByte : BitVec 3 := 4#3
@[simp] abbrev stStoreByteAndAck : BitVec 3 := 5#3

/-! Codes of `BM` (R23). -/

@[simp] abbrev bmReleased : BitVec 3 := 0#3
@[simp] abbrev bmIn8 : BitVec 3 := 1#3
@[simp] abbrev bmIn1 : BitVec 3 := 2#3
@[simp] abbrev bmOutAck : BitVec 3 := 3#3
@[simp] abbrev bmOut8 : BitVec 3 := 4#3

/-- DESIGN CHOICE (log 3): what a ring element reads as that nothing has written (R37 leaves ring storage unspecified). -/
def unwritten : Byte := 0#8

/-- A free byte for each draw: a byte the spec does not fix (logs 15, 20). -/
opaque freeByte : Nat → Byte

/-- A free acknowledgement for each draw (log 15). -/
opaque freeAck : Nat → Bool

end Sys2Proof.Config
end

