-- ==== Sys2Proof/Syntax.lean ====
section
/-! DEFINITION. The operations of the block: one constructor for each row of spec/opcode_table.json, with the operands R83 and R87 of 30_encoding.md give it. -/

namespace Sys2Proof

/-- The host descriptor `(addr, cmds, echo)` (R87). `addr` is the 8-bit field that carries the 7-bit address (R8, C2). -/
structure Descriptor where
  addr : BitVec 8
  cmds : List Byte
  echo : Byte
  deriving DecidableEq, Repr

/-- What `HOST_CMDN` carries besides: the reply size `n` and the caller's buffer (R87, R136). -/
structure ReplyRequest where
  n : Nat
  buf : List Byte
  deriving DecidableEq, Repr

/-- What stands beside the request word: nothing, or a host descriptor (R83, R87). -/
inductive Payload where
  | none
  | one (d : Descriptor)
  | many (d : Descriptor) (r : ReplyRequest)
  deriving DecidableEq, Repr

/-- An operation as it is offered to the block: its request word and what stands beside it. -/
structure Request where
  word : ReqWord
  payload : Payload
  deriving DecidableEq, Repr

/-- The operations (opcode_table.json). The argument `d` or `b` is the `DATA` field. -/
inductive Instr where
  /-- R100 -/
  | evStart
  /-- R101, `ST = 0` -/
  | evOvfAwaitAddress (d : Byte)
  /-- R102, `ST = 1` -/
  | evOvfSendDataByte (d : Byte)
  /-- R103, `ST = 2` -/
  | evOvfAwaitAckAfterSend (d : Byte)
  /-- R104, `ST = 3` -/
  | evOvfCheckReceivedAck (d : Byte)
  /-- R105, `ST = 4` -/
  | evOvfReceiveDataByte (d : Byte)
  /-- R106, `ST = 5` -/
  | evOvfStoreByteAndAck (d : Byte)
  /-- R108, `ST = 6` or `7`: `low` is the key's bit 12 -/
  | evOvfInvalidState (low : BitVec 1) (d : Byte)
  /-- R107 -/
  | evStop
  /-- R120 -/
  | appAvailable
  /-- R121 -/
  | appRead
  /-- R122 -/
  | appQueue (b : Byte)
  /-- R123 -/
  | appTxCount
  /-- R135 -/
  | hostCmd1 (d : Descriptor)
  /-- R136 -/
  | hostCmdN (d : Descriptor) (r : ReplyRequest)
  deriving DecidableEq, Repr

/-- Who offers an operation (the agent column of R85). -/
inductive Agent where
  | environment
  | application
  | hostCaller
  deriving DecidableEq, Repr

/-- The agent column of R85. -/
def Instr.agent : Instr → Agent
  | .evStart => .environment
  | .evOvfAwaitAddress _ => .environment
  | .evOvfSendDataByte _ => .environment
  | .evOvfAwaitAckAfterSend _ => .environment
  | .evOvfCheckReceivedAck _ => .environment
  | .evOvfReceiveDataByte _ => .environment
  | .evOvfStoreByteAndAck _ => .environment
  | .evOvfInvalidState _ _ => .environment
  | .evStop => .environment
  | .appAvailable => .application
  | .appRead => .application
  | .appQueue _ => .application
  | .appTxCount => .application
  | .hostCmd1 _ => .hostCaller
  | .hostCmdN _ _ => .hostCaller

end Sys2Proof
end

