-- ==== Sys2Proof/WellFormed.lean ====
section
/-! DEFINITION. When an operation is well formed: the bounds R87 and R134 put on a host descriptor. Every other operation is well formed by its type. -/

namespace Sys2Proof

open Config

/-- R134: `1 ≤ |cmds| ≤ MAX_CMD_LEN` and `addr ≤ 127`. -/
def Descriptor.wf (c : HostConfig) (d : Descriptor) : Bool :=
  1 ≤ d.cmds.length && d.cmds.length ≤ c.maxCmdLen && d.addr.toNat ≤ 127

/-- R134: `1 ≤ n ≤ MAX_REPLY_LEN`; and the caller's buffer has `n` bytes (R87; DEDUCED, log 10). -/
def ReplyRequest.wf (c : HostConfig) (r : ReplyRequest) : Bool :=
  1 ≤ r.n && r.n ≤ c.maxReplyLen && r.buf.length == r.n

/-- Well-formedness of an operation for the host parameters `c`. -/
def Instr.wf (c : HostConfig) : Instr → Bool
  | .hostCmd1 d => d.wf c
  | .hostCmdN d r => d.wf c && r.wf c
  | .evStart => true
  | .evOvfAwaitAddress _ => true
  | .evOvfSendDataByte _ => true
  | .evOvfAwaitAckAfterSend _ => true
  | .evOvfCheckReceivedAck _ => true
  | .evOvfReceiveDataByte _ => true
  | .evOvfStoreByteAndAck _ => true
  | .evOvfInvalidState _ _ => true
  | .evStop => true
  | .appAvailable => true
  | .appRead => true
  | .appQueue _ => true
  | .appTxCount => true

end Sys2Proof
end

