-- ==== Sys2Proof/Decode.lean ====
section
/-! DEFINITION. The decoder and encoder of the request interface (30_encoding.md R83 to R88), total on every key and payload, and the opcode table's rows
as match and mask over the key; and the line of an operation in a trace (R90). -/

namespace Sys2Proof

/-- Why a request spells no operation (R86, R183). -/
inductive DecodeError where
  | reservedOp
  | nonzeroData
  | badDescriptor
  deriving DecidableEq, Repr

/-- `K[14:12]` (R84). -/
def keySt (k : Key) : BitVec 3 := k.extractLsb' 12 3

/-- `K[11:8]` (R83). -/
def keyOp (k : Key) : BitVec 4 := k.extractLsb' 8 4

/-- `K[7:0]` (R83). -/
def keyData (k : Key) : Byte := k.extractLsb' 0 8

/-- `W = OP ‖ DATA` (R83). -/
def mkWord (op : BitVec 4) (data : Byte) : ReqWord := op ++ data

/-- `K = ST ‖ W` (R84). -/
def mkKey (st : BitVec 3) (w : ReqWord) : Key := st ++ w

/-- An operation whose `DATA` must be 0 (R85, R86). -/
def dataMustBeZero (data : Byte) (i : Instr) : Except DecodeError Instr :=
  if data = 0#8 then .ok i else .error .nonzeroData

/-- `EV_OVF` selects by `ST` (R85). -/
def decodeOvf (st : BitVec 3) (d : Byte) : Instr :=
  match st with
  | 0#3 => .evOvfAwaitAddress d
  | 1#3 => .evOvfSendDataByte d
  | 2#3 => .evOvfAwaitAckAfterSend d
  | 3#3 => .evOvfCheckReceivedAck d
  | 4#3 => .evOvfReceiveDataByte d
  | 5#3 => .evOvfStoreByteAndAck d
  | _ => .evOvfInvalidState (st.extractLsb' 0 1) d

/-- `HOST_CMD1` with its descriptor; without one the request is refused (R87; DEDUCED, log 10). -/
def decodeHostCmd1 (data : Byte) (p : Payload) : Except DecodeError Instr :=
  if data = 0#8 then
    match p with
    | .one d => .ok (.hostCmd1 d)
    | .none => .error .badDescriptor
    | .many _ _ => .error .badDescriptor
  else .error .nonzeroData

/-- `HOST_CMDN` with its descriptor; without one the request is refused (R87; DEDUCED, log 10). -/
def decodeHostCmdN (data : Byte) (p : Payload) : Except DecodeError Instr :=
  if data = 0#8 then
    match p with
    | .many d r => .ok (.hostCmdN d r)
    | .none => .error .badDescriptor
    | .one _ => .error .badDescriptor
  else .error .nonzeroData

/-- The decoder (R84, R85, R86): the key selects the operation, `OP` first, `ST` for `EV_OVF` alone. A payload beside an operation that takes none is not read. -/
def decode (k : Key) (p : Payload) : Except DecodeError Instr :=
  match keyOp k with
  | 0x1#4 => dataMustBeZero (keyData k) .evStart
  | 0x2#4 => .ok (decodeOvf (keySt k) (keyData k))
  | 0x3#4 => dataMustBeZero (keyData k) .evStop
  | 0x4#4 => dataMustBeZero (keyData k) .appAvailable
  | 0x5#4 => dataMustBeZero (keyData k) .appRead
  | 0x6#4 => .ok (.appQueue (keyData k))
  | 0x7#4 => dataMustBeZero (keyData k) .appTxCount
  | 0x8#4 => decodeHostCmd1 (keyData k) p
  | 0x9#4 => decodeHostCmdN (keyData k) p
  | _ => .error .reservedOp

/-- A request offered to a device whose `ST` is `st`. -/
def decodeRequest (st : BitVec 3) (r : Request) : Except DecodeError Instr :=
  decode (mkKey st r.word) r.payload

/-- The request word of an operation (R83, R85). -/
def encodeWord : Instr → ReqWord
  | .evStart => mkWord 0x1#4 0#8
  | .evOvfAwaitAddress d => mkWord 0x2#4 d
  | .evOvfSendDataByte d => mkWord 0x2#4 d
  | .evOvfAwaitAckAfterSend d => mkWord 0x2#4 d
  | .evOvfCheckReceivedAck d => mkWord 0x2#4 d
  | .evOvfReceiveDataByte d => mkWord 0x2#4 d
  | .evOvfStoreByteAndAck d => mkWord 0x2#4 d
  | .evOvfInvalidState _ d => mkWord 0x2#4 d
  | .evStop => mkWord 0x3#4 0#8
  | .appAvailable => mkWord 0x4#4 0#8
  | .appRead => mkWord 0x5#4 0#8
  | .appQueue b => mkWord 0x6#4 b
  | .appTxCount => mkWord 0x7#4 0#8
  | .hostCmd1 _ => mkWord 0x8#4 0#8
  | .hostCmdN _ _ => mkWord 0x9#4 0#8

/-- The `ST` an operation is selected in (R85), or none where `K[14:12]` is ignored (R84). -/
def selectedIn : Instr → Option (BitVec 3)
  | .evOvfAwaitAddress _ => some 0#3
  | .evOvfSendDataByte _ => some 1#3
  | .evOvfAwaitAckAfterSend _ => some 2#3
  | .evOvfCheckReceivedAck _ => some 3#3
  | .evOvfReceiveDataByte _ => some 4#3
  | .evOvfStoreByteAndAck _ => some 5#3
  | .evOvfInvalidState low _ => some (3#2 ++ low)
  | .evStart => none
  | .evStop => none
  | .appAvailable => none
  | .appRead => none
  | .appQueue _ => none
  | .appTxCount => none
  | .hostCmd1 _ => none
  | .hostCmdN _ _ => none

/-- What stands beside the word (R87). -/
def encodePayload : Instr → Payload
  | .hostCmd1 d => .one d
  | .hostCmdN d r => .many d r
  | .evStart => .none
  | .evOvfAwaitAddress _ => .none
  | .evOvfSendDataByte _ => .none
  | .evOvfAwaitAckAfterSend _ => .none
  | .evOvfCheckReceivedAck _ => .none
  | .evOvfReceiveDataByte _ => .none
  | .evOvfStoreByteAndAck _ => .none
  | .evOvfInvalidState _ _ => .none
  | .evStop => .none
  | .appAvailable => .none
  | .appRead => .none
  | .appQueue _ => .none
  | .appTxCount => .none

/-- The encoder: the request that spells an operation. -/
def encode (i : Instr) : Request := { word := encodeWord i, payload := encodePayload i }

/-- The dispatch key of an operation offered to a device whose `ST` is `st`: `EV_OVF` rows fix `ST` themselves (R84). -/
def encodeKey (st : BitVec 3) (i : Instr) : Key :=
  mkKey ((selectedIn i).getD st) (encodeWord i)

/-- One row of opcode_table.json: a key belongs to the row when its masked bits are the match. -/
structure TableRow where
  mask : Key
  pattern : Key
  deriving DecidableEq, Repr

/-- Does the key belong to the row (R84)? -/
def rowTakes (r : TableRow) (k : Key) : Bool := k &&& r.mask == r.pattern

/-- opcode_table.json, each row's `match` and `mask` as the table has them. -/
def opcodeTable : List TableRow :=
  [ ⟨0x0FFF#15, 0x0100#15⟩, ⟨0x7F00#15, 0x0200#15⟩, ⟨0x7F00#15, 0x1200#15⟩, ⟨0x7F00#15, 0x2200#15⟩
    , ⟨0x7F00#15, 0x3200#15⟩, ⟨0x7F00#15, 0x4200#15⟩, ⟨0x7F00#15, 0x5200#15⟩, ⟨0x6F00#15, 0x6200#15⟩ ]
  ++ [ ⟨0x0FFF#15, 0x0300#15⟩, ⟨0x0FFF#15, 0x0400#15⟩, ⟨0x0FFF#15, 0x0500#15⟩, ⟨0x0F00#15, 0x0600#15⟩
    , ⟨0x0FFF#15, 0x0700#15⟩, ⟨0x0FFF#15, 0x0800#15⟩, ⟨0x0FFF#15, 0x0900#15⟩ ]

/-- The row of an operation. -/
def rowOf : Instr → TableRow
  | .evStart => ⟨0x0FFF#15, 0x0100#15⟩
  | .evOvfAwaitAddress _ => ⟨0x7F00#15, 0x0200#15⟩
  | .evOvfSendDataByte _ => ⟨0x7F00#15, 0x1200#15⟩
  | .evOvfAwaitAckAfterSend _ => ⟨0x7F00#15, 0x2200#15⟩
  | .evOvfCheckReceivedAck _ => ⟨0x7F00#15, 0x3200#15⟩
  | .evOvfReceiveDataByte _ => ⟨0x7F00#15, 0x4200#15⟩
  | .evOvfStoreByteAndAck _ => ⟨0x7F00#15, 0x5200#15⟩
  | .evOvfInvalidState _ _ => ⟨0x6F00#15, 0x6200#15⟩
  | .evStop => ⟨0x0FFF#15, 0x0300#15⟩
  | .appAvailable => ⟨0x0FFF#15, 0x0400#15⟩
  | .appRead => ⟨0x0FFF#15, 0x0500#15⟩
  | .appQueue _ => ⟨0x0F00#15, 0x0600#15⟩
  | .appTxCount => ⟨0x0FFF#15, 0x0700#15⟩
  | .hostCmd1 _ => ⟨0x0FFF#15, 0x0800#15⟩
  | .hostCmdN _ _ => ⟨0x0FFF#15, 0x0900#15⟩

/-- DESIGN CHOICE (log 9): the descriptor that stands beside a host operation's word when only the word is given: every field 0, one command byte (the
least length R87 admits), `n = 1`. The spec gives a descriptor no bits. -/
def zeroPayload (k : Key) : Payload :=
  match keyOp k with
  | 0x8#4 => .one { addr := 0#8, cmds := [0#8], echo := 0#8 }
  | 0x9#4 => .many { addr := 0#8, cmds := [0#8], echo := 0#8 } { n := 1, buf := [0#8] }
  | _ => .none

/-- The table's number `w` of `nbits` bits as a dispatch key: 15 bits, bit 15 of the second byte is not part of a key. -/
def tableKey (nbits w : Nat) : Option Key :=
  if w % 2 ^ nbits < 2 ^ 15 then some (BitVec.ofNat 15 (w % 2 ^ nbits)) else none

/-- What the decoder reads from a table word (bit 0 the least significant bit of `DATA`, `ST` in bits 14:12), with the zero descriptor beside it. -/
def decodeTableWord (nbits w : Nat) : Option Instr :=
  match tableKey nbits w with
  | none => none
  | some k =>
    match decode k (zeroPayload k) with
    | .ok i => some i
    | .error _ => none

/-! ## Trace lines (R90) -/

/-- One hexadecimal digit. -/
def hexDigit (n : Nat) : Char := Char.ofNat (if n < 10 then 48 + n else 55 + n)

/-- `0xHH`. -/
def hexByte (b : Byte) : String := "0x" ++ String.ofList [hexDigit (b.toNat / 16), hexDigit (b.toNat % 16)]

/-- A list of bytes, `[0xHH, 0xHH]`. -/
def hexList (l : List Byte) : String := "[" ++ String.intercalate ", " (l.map hexByte) ++ "]"

/-- `W=0xHHH`. -/
def wordText (w : ReqWord) : String :=
  "W=0x" ++ String.ofList [hexDigit (w.toNat / 256), hexDigit (w.toNat / 16 % 16), hexDigit (w.toNat % 16)]

/-- The fields of a descriptor, as the lines of host operations have them. -/
def Descriptor.text (d : Descriptor) : String :=
  "addr=" ++ toString d.addr.toNat ++ " cmds=" ++ hexList d.cmds ++ " echo=" ++ hexByte d.echo

/-- The line of an operation in an operation trace (R90). -/
def Instr.traceLine : Instr → String
  | .evStart => "start"
  | .evOvfAwaitAddress d => "ovf " ++ hexByte d
  | .evOvfSendDataByte d => "ovf " ++ hexByte d
  | .evOvfAwaitAckAfterSend d => "ovf " ++ hexByte d
  | .evOvfCheckReceivedAck d => "ovf " ++ hexByte d
  | .evOvfReceiveDataByte d => "ovf " ++ hexByte d
  | .evOvfStoreByteAndAck d => "ovf " ++ hexByte d
  | .evOvfInvalidState _ d => "ovf " ++ hexByte d
  | .evStop => "stop"
  | .appAvailable => "app.avail"
  | .appRead => "app.read"
  | .appQueue b => "app.queue " ++ hexByte b
  | .appTxCount => "app.txcount"
  | .hostCmd1 d => "host.cmd1 " ++ d.text
  | .hostCmdN d r => "host.cmdn " ++ d.text ++ " n=" ++ toString r.n

end Sys2Proof
end

