-- ==== Sys2Proof/Machine/State.lean ====
section
/-! DEFINITION. The machine's state as plain data: the devices with their slave protocol engines (10_state.md R20 to R31), the host command/reply sequencer
(R33 to R36), the bus transaction under way (42_host_sequencer.md R142 to R144), the host client programs (45_host_clients.md) and the schedule of moves;
the fault each agent may have come to (60_exceptions.md R170); the reasons a step can stop; and the state after reset (R37). -/

namespace Sys2Proof.Machine

open Config

/-- Ring storage: cells (index, byte) in canonical form (`Memory.wf`), an unlisted index reads `Config.unwritten`. -/
abbrev Memory := List Host.Cell

/-- A ring buffer (R25, R26): storage, the next index written, the next index read, the bytes pending. -/
structure Ring where
  mem : Memory
  head : Nat
  tail : Nat
  count : Nat
  deriving DecidableEq, Repr

/-- Notifications (R80). -/
inductive Notification where
  /-- `REQ`: a master has addressed this device for a read. -/
  | req
  /-- `RCV`: a write transaction addressed to this device has ended. -/
  | rcv
  deriving DecidableEq, Repr

/-- What the last application operation gave its caller (R9 `return v`, R120 to R123); the model's own field (log 8). -/
inductive AppReturn where
  | nothing
  | count (n : Nat)
  | byte (b : Byte)
  deriving DecidableEq, Repr

/-- A fault of R170 with its record: what the agent that raised it keeps for good. -/
inductive FaultRecord where
  /-- `F_READ_EMPTY` (code 1): raised by `APP_READ` with `RX` empty (R121); the record is `W`. -/
  | readEmpty (w : ReqWord)
  /-- `F_QUEUE_FULL` (code 2): raised by `APP_QUEUE` with `TX` full (R122); the record is `W`. -/
  | queueFull (w : ReqWord)
  /-- `F_STATE_INVALID` (code 3): raised by `EV_OVF` with `ST` 6 or 7 (R108); the record is `K`. -/
  | stateInvalid (k : Key)
  deriving DecidableEq, Repr

/-- One device: its configuration (R7, R29), the registers of its SPE (R20), the value its application was last given, and the faults of its two agents
(R3, R170): the SPE and the application. -/
structure Device where
  cfg : DeviceConfig
  /-- `ST` (R21) -/
  st : BitVec 3
  /-- `BM` (R23) -/
  bm : BitVec 3
  /-- `BM_BYTE` (R23) -/
  bmByte : Byte
  rx : Ring
  tx : Ring
  /-- `RX_OVF` (R28) -/
  rxOvf : Bool
  /-- `NTF`, oldest first (R27) -/
  ntf : List Notification
  appRet : AppReturn
  /-- The fault that has ended the SPE's run, if one has (R170; log 5). -/
  speFault : Option FaultRecord
  /-- The fault that has ended the application's run, if one has (R170; log 5). -/
  appFault : Option FaultRecord
  deriving DecidableEq, Repr

/-- `HS_PHASE` (R34). -/
inductive HsPhase where
  | idle
  | write
  | read
  | done
  deriving DecidableEq, Repr

/-- Result codes of the HCS (R89). -/
inductive HsResult where
  | ok
  | errSingleMismatch
  | errMultiLength
  | errMultiContent
  | errTransaction
  deriving DecidableEq, Repr

/-- The HCS's registers (R33). -/
structure Hcs where
  phase : HsPhase
  addr : PeerAddr
  cmds : List Byte
  idx : Nat
  echo : Byte
  n : Nat
  buf : List Byte
  k : Nat
  result : HsResult
  deriving DecidableEq, Repr

/-- A call of the HCS or of the scanner on the host-side transport that waits for an answer (R130 to R132, R144). -/
inductive TransportCall where
  /-- `begin-transaction(a)`, `write-byte(b)`, `end-transaction()` (R137) -/
  | writeByte (a : PeerAddr) (b : Byte)
  /-- `request-bytes(a, n)` (R138, R139) -/
  | requestBytes (a : PeerAddr) (n : Nat)
  /-- the zero-length transaction (R144) -/
  | probe (a : PeerAddr)
  deriving DecidableEq, Repr

/-- The transport's answer (R131, R132, R144). -/
inductive Answer where
  /-- `ACK` is `true`, `NACK` is `false`. -/
  | ack (ok : Bool)
  | bytes (seq : List Byte)
  deriving DecidableEq, Repr

/-- An event of the device-side transport (R176). -/
inductive BusEvent where
  | start
  | ovf (d : Byte)
  | stop
  deriving DecidableEq, Repr

/-- What the master takes from the addressed device at one event of its transaction: nothing (a start, a stop, its own ACK or NACK), the device's
acknowledgement (the byte it acknowledges and the shift of the ACK), or the byte shifted out (R143's `seq[i]`). -/
inductive Reading where
  | nothing
  | acknowledge
  | byte
  deriving DecidableEq, Repr

/-- One event of a transaction on its way to one SPE. -/
structure Delivery where
  target : PeerAddr
  event : BusEvent
  reads : Reading
  deriving DecidableEq, Repr

/-- A bus transaction under way (R142 to R144): the call it carries out, the deliveries left, whether a device has the address, the bytes read so far, and
whether the addressed device lost an acknowledgement to a reset or a fault (logs 15, 36). -/
structure Transaction where
  call : TransportCall
  todo : List Delivery
  acked : Bool
  seq : List Byte
  broken : Bool
  deriving DecidableEq, Repr

/-- A Connection (R151). DESIGN CHOICE (log 33): `blockSize` is present where the caller says that the target is a firmware target. -/
structure Connection where
  addr : PeerAddr
  ownsTransport : Bool
  blockSize : Option Nat
  deriving DecidableEq, Repr

/-- The pin hint of an open (R151). -/
inductive PinHint where
  | noDedicatedLines
  | dedicatedLines
  deriving DecidableEq, Repr

/-- Result of an open (R151). -/
inductive OpenResult where
  | opened
  | addressConflict
  deriving DecidableEq, Repr

/-- The Device Status record (R155, R156). -/
structure DeviceStatus where
  signature : Byte
  major : Byte
  minor : Byte
  features : Byte
  bootStart : BitVec 16
  appStart : BitVec 16
  trampoline : BitVec 16
  deriving DecidableEq, Repr

/-- The phase a failed upload names (R153, R155, R158). -/
inductive UploadPhase where
  | init
  | status
  | upload
  deriving DecidableEq, Repr

/-- Result of an upload (R159): the page is present only for the phase `upload`. -/
inductive UploadResult where
  | success
  | failed (phase : UploadPhase) (page : Option Nat) (code : HsResult)
  deriving DecidableEq, Repr

/-- Result of find-first (R160). -/
inductive FindResult where
  | found (a : PeerAddr) (appMode : Bool)
  | notFound
  deriving DecidableEq, Repr

/-- The tag of a Device Info Record (R162). -/
inductive PeerTag where
  | timonel
  | application
  | unknown
  deriving DecidableEq, Repr

/-- Device Info Record (R162). -/
structure InfoRecord where
  addr : PeerAddr
  tag : PeerTag
  major : Byte
  minor : Byte
  deriving DecidableEq, Repr

/-- Where an upload stands (R153 to R159); `issued` says that the stage's host operation has been issued and its result is awaited. -/
inductive UploadStage where
  | init (issued : Bool)
  | delay
  | secondInit (issued : Bool)
  | status (issued : Bool)
  | page (i : Nat) (issued : Bool)
  deriving DecidableEq, Repr

/-- Where the probe of one address stands (R160, R161): waiting for its answer, or in the settle delay that follows it. -/
inductive ProbeStage where
  | probe
  | settle (ack : Bool)
  deriving DecidableEq, Repr

/-- Where one address of the full scan stands (R161): its probe, then the transient Connection's open, status query and close. -/
inductive ScanStage where
  | probing (p : ProbeStage)
  | opening
  | query (issued : Bool)
  | closing (entry : InfoRecord)
  deriving DecidableEq, Repr

/-- The client program under way (R153 to R161). -/
inductive Job where
  | idle
  | upload (a : PeerAddr) (image : List Byte) (twoStep : Bool) (stage : UploadStage)
  | query (a : PeerAddr) (issued : Bool)
  | find (a : PeerAddr) (stage : ProbeStage)
  | scan (a : PeerAddr) (stage : ScanStage) (entries : List InfoRecord)
  deriving DecidableEq, Repr

/-- The client layer's state: the registry `HELD` (R150, a list without repeats), the live Connections (R151), the Device Status record (R155), the program
under way, and the last result of each program. DESIGN CHOICE (log 34): there is one Device Status record for the whole host, where R155 does not say whose it
is; so each query overwrites what a query of another peer left. -/
structure Client where
  held : List PeerAddr
  conns : List Connection
  openResult : Option OpenResult
  status : DeviceStatus
  job : Job
  uploadResult : Option UploadResult
  queryResult : Option HsResult
  findResult : Option FindResult
  scanResult : Option (List InfoRecord)
  deriving DecidableEq, Repr

/-- A call of the host's user on the client layer (R151 to R161). -/
inductive ClientCall where
  | openConn (a : PeerAddr) (hint : PinHint) (blockSize : Option Nat)
  | closeConn (a : PeerAddr)
  | upload (a : PeerAddr) (image : List Byte) (twoStep : Bool)
  | queryStatus (a : PeerAddr)
  | findFirst
  | fullScan
  deriving DecidableEq, Repr

/-- One move of some agent (R3, R60). The schedule lists the moves still to come. -/
inductive Move where
  /-- A request is offered: to the SPE or application of the device in front, or to the HCS. -/
  | request (r : Request)
  /-- The device-side requests that follow are for the device with this address (log 12). -/
  | focus (a : PeerAddr)
  /-- Reset of the device in front (R190). -/
  | resetDevice
  /-- Reset of the host half (R191). -/
  | resetHost
  /-- The host-side transport answers the pending call by a draw: a model of the HCS alone (R131, R132; for a probe the model's choice, log 37). -/
  | transport (a : Answer)
  /-- The bus carries the pending call one event further (R142 to R144). -/
  | bus
  /-- A call on the client layer. -/
  | client (c : ClientCall)
  /-- The client program under way takes its next step. -/
  | clientStep
  deriving DecidableEq, Repr

/-- The machine. -/
structure State where
  /-- The device in front, whose SPE and application the device-side instructions act on. -/
  dev : Device
  /-- The other devices on the bus (R184). -/
  peers : List Device
  /-- The host parameters (R7); no step writes them. -/
  host : HostConfig
  hcs : Hcs
  /-- The bus transaction under way (R142 to R145). -/
  bus : Option Transaction
  /-- The model's own record of another master's transaction (R145; log 19): the devices that have taken its `EV_START` and not yet its `EV_STOP`. -/
  foreign : List PeerAddr
  client : Client
  /-- The model's own counter of free values (log 15). -/
  fresh : Nat
  /-- The moves offered and not yet taken, in the order they are taken (R60, R177; log 4). -/
  sched : List Move
  deriving DecidableEq, Repr

/-- Why an agent has no move (R10, `require`; log 6). -/
inductive NoMove where
  /-- The schedule is empty: nothing is offered. -/
  | nothingOffered
  /-- `EV_OVF` while `BM` is not the mode its rule is enabled in (R178, rules R101 to R106). -/
  | overflowNotArmed
  /-- A host operation or client call while an operation is in progress (R134). -/
  | hostBusy
  /-- A host operation while a client program runs: the host has one context (R182, R184). -/
  | clientBusy
  /-- A transport answer or a bus step while no call is pending (R133, R140). -/
  | noCallPending
  /-- An answer of the wrong kind, or more bytes than asked for (R131, R132). -/
  | answerMismatch
  /-- A drawn answer while the bus carries the call (R145). -/
  | transactionOpen
  /-- No device on the bus has this address. -/
  | noSuchDevice
  /-- The client program has nothing to do, or waits for the HCS or the transport. -/
  | clientWaits
  /-- A close of an address with no Connection (R152). -/
  | noConnection
  /-- A request to an agent whose run a fault has ended (R170; log 5). -/
  | agentFaulted
  deriving DecidableEq, Repr

/-- Why the machine stops. R170's faults are none of these: a fault of R170 ends one agent's run, and the next state holds its record (`FaultRecord`). -/
inductive Fault where
  /-- The stuck state of a move that is not enabled (R10), raised by whichever move of the schedule it is. Safe (log 6), but that the
  device-side transport never raises `EV_OVF` while released errs toward proving, as R178 says (log 23). -/
  | noMove (why : NoMove)
  deriving DecidableEq, Repr

/-- Why a request has no meaning. The refusal ends the run, so R183's mark is never cleared: safe (log 7). -/
inductive Refusal where
  /-- An instruction without a meaning in the model yet; raised by `exec`'s arm. Safe. -/
  | notModelled (mnemonic : String)
  /-- `RESERVED_OP` (R86), raised by the decoder. Safe. -/
  | reservedOp
  /-- `NONZERO_DATA` (R86), raised by the decoder. Safe. -/
  | nonzeroData
  /-- `BAD_DESCRIPTOR` (R134), raised by `HOST_CMD1` and `HOST_CMDN`. Safe. -/
  | badDescriptor
  /-- Two SPEs with one address on the bus: outside the binding (R145, 93_implementation_defined.md U15), raised by the bus. Safe. -/
  | duplicateAddress
  /-- Two masters' transactions at once: outside the binding (R145, U15). Raised by the offer of a bus event from elsewhere while the bus carries the host's
  transaction, and by the bus that takes up a call while another master's transaction is open (log 19). Safe. -/
  | secondMaster
  deriving DecidableEq, Repr

/-- An empty ring with its indices at 0 (R37); nothing listed in its storage (log 2). -/
def Ring.empty : Ring := { mem := [], head := 0, tail := 0, count := 0 }

/-- A device right after its boot (R37, R190, R192) with configuration `c`, its agents running (R170). `BM_BYTE`: DESIGN CHOICE (log 2). -/
def Device.boot (c : DeviceConfig) : Device :=
  { cfg := c, st := stAwaitAddress, bm := bmReleased, bmByte := 0#8
    rx := Ring.empty, tx := Ring.empty, rxOvf := false, ntf := [], appRet := .nothing
    speFault := none, appFault := none }

/-- The HCS right after reset (R37, R191): `HS_PHASE` is `IDLE`; the rest is unspecified there, DESIGN CHOICE here (log 2). -/
def Hcs.boot : Hcs :=
  { phase := .idle, addr := 0#7, cmds := [], idx := 0, echo := 0#8, n := 0, buf := [], k := 0
    result := .errTransaction }

/-- The "unknown" default of the Device Status record: all fields 0 (R155). -/
def DeviceStatus.unknown : DeviceStatus :=
  { signature := 0#8, major := 0#8, minor := 0#8, features := 0#8
    bootStart := 0#16, appStart := 0#16, trampoline := 0#16 }

/-- The client layer at host start: `HELD` empty and no Connection (R150, R191). -/
def Client.boot : Client :=
  { held := [], conns := [], openResult := none, status := DeviceStatus.unknown, job := .idle
    uploadResult := none, queryResult := none, findResult := none, scanResult := none }

/-- The state after reset of a bus with these devices and host parameters. -/
def State.resetWith (d : DeviceConfig) (peers : List DeviceConfig) (h : HostConfig) : State :=
  { dev := Device.boot d, peers := peers.map Device.boot, host := h, hcs := Hcs.boot
    bus := none, foreign := [], client := Client.boot, fresh := 0, sched := [] }

/-- The state after reset: one device, with the example parameters (log 1). -/
def State.reset : State := State.resetWith exampleDevice [] exampleHost

end Sys2Proof.Machine
end

