-- ==== Sys2Proof/Machine/Ops.lean ====
section
/-! DEFINITION. The named operations over memory, rings, devices and the state: ring storage (20_memory.md R50 to R55), the taking of a bus event and of a
fault (60_exceptions.md R170, R177, R180, R181), the resets (70_reset_and_hazards.md R190, R191), and which device stands in front. -/

namespace Sys2Proof.Machine

open Config

/-- The outcome of a step (R10): a next state, a fault, a refusal. -/
abbrev Result := Host.Outcome State Fault Refusal

/-! ## Ring storage -/

/-- `MemRead` (R9): the byte at an index, `Config.unwritten` where nothing is listed (log 3). -/
def Memory.read : Memory → Nat → Byte
  | [], _ => unwritten
  | (k, v) :: t, a => if k = a then v else Memory.read t a

/-- `MemWrite` (R9), in canonical form: writing what an unlisted index reads as removes the entry. -/
def Memory.write : Memory → Nat → Byte → Memory
  | [], a, v => if v = unwritten then [] else [(a, v)]
  | (k, w) :: t, a, v =>
    if a < k then
      if v = unwritten then (k, w) :: t else (a, v) :: (k, w) :: t
    else if a = k then
      if v = unwritten then t else (a, v) :: t
    else (k, w) :: Memory.write t a v

/-- Every listed index is above `lo`, the indices rise, and no entry equals what an unlisted index reads as. -/
def Memory.wfAbove : Option Nat → Memory → Bool
  | _, [] => true
  | none, (k, v) :: t => v != unwritten && Memory.wfAbove (some k) t
  | some lo, (k, v) :: t => decide (lo < k) && v != unwritten && Memory.wfAbove (some k) t

/-- The canonical form of ring storage. -/
def Memory.wf (m : Memory) : Bool := Memory.wfAbove none m

/-- Every listed index is inside a storage of `cap` elements (R55). -/
def Memory.within (cap : Nat) (m : Memory) : Bool := m.all fun c => decide (c.1 < cap)

/-! ## Ring primitives -/

/-- The index after `i` in a ring of `2 ^ log2` elements: wraparound by bitmask (R51, R52). -/
def nextIndex (log2 i : Nat) : Nat := (i + 1) &&& (2 ^ log2 - 1)

/-- `RingPush` (R51). Every caller checks `COUNT < CAP` first. -/
def Ring.push (log2 : Nat) (b : Byte) (r : Ring) : Ring :=
  { r with mem := Memory.write r.mem r.head b, head := nextIndex log2 r.head, count := r.count + 1 }

/-- The byte `RingPop` returns (R52). -/
def Ring.front (r : Ring) : Byte := Memory.read r.mem r.tail

/-- `RingPop`'s writes (R52); the element read is not cleared. Every caller checks `COUNT > 0` first. -/
def Ring.drop (log2 : Nat) (r : Ring) : Ring :=
  { r with tail := nextIndex log2 r.tail, count := r.count - 1 }

/-! ## Devices -/

/-- `RX_CAP` (R7). -/
def Device.rxCap (d : Device) : Nat := 2 ^ d.cfg.rxLog2.val

/-- `TX_CAP` (R7). -/
def Device.txCap (d : Device) : Nat := 2 ^ d.cfg.txLog2.val

/-- The device's own address (R29). -/
def Device.addr (d : Device) : PeerAddr := d.cfg.slaveAddr

/-- Writes `ST` and `BM`. DESIGN CHOICE (log 32): `BM_BYTE` keeps its last byte when `BM` leaves `OUT8`, where R23 leaves it unspecified and U3 of
93_implementation_defined.md says any value. -/
def Device.goTo (st bm : BitVec 3) (d : Device) : Device := { d with st := st, bm := bm }

/-- `emit` (R9, R27). -/
def Device.emit (n : Notification) (d : Device) : Device := { d with ntf := d.ntf ++ [n] }

/-- Arms the sending of `b`: `BM_BYTE <- b`, `BM <- OUT8`, `ST <- AWAIT_ACK_AFTER_SEND` (R109). -/
def Device.load (b : Byte) (d : Device) : Device :=
  { d with bmByte := b, bm := bmOut8, st := stAwaitAckAfterSend }

/-- Replaces the receive ring. -/
def Device.withRx (r : Ring) (d : Device) : Device := { d with rx := r }

/-- Replaces the transmit ring. -/
def Device.withTx (r : Ring) (d : Device) : Device := { d with tx := r }

/-- Gives the application a value (R9 `return v`; log 8). -/
def Device.giveApp (v : AppReturn) (d : Device) : Device := { d with appRet := v }

/-- The agent that raises `r` keeps it (R170): the application faults 1 and 2, the SPE fault 3. Nothing else is written. -/
def Device.keepFault (r : FaultRecord) (d : Device) : Device :=
  match r with
  | .readEmpty _ => { d with appFault := some r }
  | .queueFull _ => { d with appFault := some r }
  | .stateInvalid _ => { d with speFault := some r }

/-- Device reset (R190, R37): every SPE register at its reset value, `SLAVE_ADDR` unchanged; ring storage is not written (R31; log 17). No step clears a fault
record (R170). -/
def Device.resetSpe (d : Device) : Device :=
  { Device.boot d.cfg with
    rx := { Ring.empty with mem := d.rx.mem }
    tx := { Ring.empty with mem := d.tx.mem }
    speFault := d.speFault
    appFault := d.appFault }

/-! ## The state -/

/-- Replaces the device in front. -/
def State.withDev (d : Device) (s : State) : State := { s with dev := d }

/-- Replaces the HCS's registers. -/
def State.withHcs (h : Hcs) (s : State) : State := { s with hcs := h }

/-- Replaces the transaction under way. -/
def State.withBus (t : Option Transaction) (s : State) : State := { s with bus := t }

/-- Replaces the record of another master's transaction. -/
def State.withForeign (l : List PeerAddr) (s : State) : State := { s with foreign := l }

/-- Replaces the client layer. -/
def State.withClient (c : Client) (s : State) : State := { s with client := c }

/-- Uses up `k` free values. -/
def State.draw (k : Nat) (s : State) : State := { s with fresh := s.fresh + k }

/-- Replaces the schedule. -/
def State.withSched (l : List Move) (s : State) : State := { s with sched := l }

/-- All devices on the bus. -/
def State.devices (s : State) : List Device := s.dev :: s.peers

/-- Exchanges `d` with the first device of the list that has the address `a`. -/
def swapIn (a : PeerAddr) (d : Device) : List Device → Option (Device × List Device)
  | [] => none
  | p :: ps =>
    if p.addr = a then some (p, d :: ps)
    else
      match swapIn a d ps with
      | none => none
      | some (q, qs) => some (q, p :: qs)

/-- Brings the device with the address `a` to the front, exchanging it with the one there (log 12). -/
def State.focus (a : PeerAddr) (s : State) : Option State :=
  if s.dev.addr = a then some s
  else
    match swapIn a s.dev s.peers with
    | none => none
    | some (d, ps) => some { s with dev := d, peers := ps }

/-- Taking a bus event, the one shared operation of R177, R180 and R181: the rule's writes take effect together on the device in front; entering the
interrupt context saves nothing and changes no mode, and the end of the step returns to the main context, which is unchanged. -/
def takeEvent (rule : Device → Device) (s : State) : Result := .next (s.withDev (rule s.dev))

/-- Taking a bus event whose rule is enabled only while `BM` is `mode` (R101 to R106, R178); otherwise it has no move (log 18). -/
def takeArmed (mode : BitVec 3) (rule : Device → Device) (s : State) : Result :=
  if s.dev.bm = mode then takeEvent rule s else .fault (.noMove .overflowNotArmed)

/-- `raise` (R9, R170): taking a fault, the one shared operation of R108, R121 and R122. The step ends the run of the agent that takes it, on the device in front:
the next state holds its record and is otherwise unchanged. Every other agent goes on (log 5). -/
def raise (r : FaultRecord) (s : State) : Result := .next (s.withDev (s.dev.keepFault r))

/-- `return v` of an application operation (R9), with the operation's writes on the device in front. -/
def answerApp (v : AppReturn) (rule : Device → Device) (s : State) : Result :=
  .next (s.withDev ((rule s.dev).giveApp v))

/-- Host reset (R191): `HS_PHASE` is `IDLE`, `HELD` is empty, no Connection and no client program. A transaction under way is given up (log 16). DESIGN CHOICE
(log 35): the transport is still initialised (R193), so a host operation may be issued at once. -/
def State.resetHalf (s : State) : State :=
  { s with hcs := Hcs.boot, client := Client.boot, bus := none }

end Sys2Proof.Machine
end

