-- ==== Sys2Proof/Machine/Operands.lean ====
section
/-! DEFINITION. Operand forms: the address byte (30_encoding.md R70, R71), the acknowledge bit (R72), the words of the bus events (R83, R85), and the bounds
of a host descriptor (R87, 42_host_sequencer.md R134). -/

namespace Sys2Proof.Machine

open Config

/-- `A = d[7:1]` (R70; the two-wire bus's convention, log 21). -/
def byteAddr (d : Byte) : PeerAddr := d.extractLsb' 1 7

/-- `DIR = d[0]`: `true` is 1, a read (R70; log 21). -/
def byteIsRead (d : Byte) : Bool := d.getLsbD 0

/-- The master's acknowledge bit `d[0]`: `true` is 1, NACK (R72; log 21). -/
def byteIsNack (d : Byte) : Bool := d.getLsbD 0

/-- The address byte of a write transaction, `(a << 1) | 0` (R70, R71). -/
def writeAddrByte (a : PeerAddr) : Byte := a ++ 0#1

/-- The address byte of a read transaction, `(a << 1) | 1` (R70, R71). -/
def readAddrByte (a : PeerAddr) : Byte := a ++ 1#1

/-- The payload of a shift that the SPE ignores (R88, `x` in R111 and R142): 0x00 (log 14). -/
def ignoredByte : Byte := 0x00#8

/-- The payload of a master's ACK and NACK bit (R23, R143). -/
def ackByte (nack : Bool) : Byte := if nack then 0x01#8 else 0x00#8

/-- The request word of a bus event (R83, R85). -/
def BusEvent.word : BusEvent → ReqWord
  | .start => mkWord 0x1#4 0#8
  | .ovf d => mkWord 0x2#4 d
  | .stop => mkWord 0x3#4 0#8

/-- Is the event the overflow? -/
def BusEvent.isOvf : BusEvent → Bool
  | .start => false
  | .ovf _ => true
  | .stop => false

/-- The 7-bit address in the descriptor's 8-bit field (R8, R87). -/
def peerOf (d : Descriptor) : PeerAddr := d.addr.extractLsb' 0 7

/-- R134's bounds on a descriptor of `HOST_CMD1`. -/
def descriptorOk (c : HostConfig) (d : Descriptor) : Bool :=
  decide (1 ≤ d.cmds.length) && decide (d.cmds.length ≤ c.maxCmdLen) && decide (d.addr.toNat ≤ 127)

/-- R134's bounds on the reply size of `HOST_CMDN`, whose buffer has `n` bytes (R87; log 10). -/
def replyOk (c : HostConfig) (r : ReplyRequest) : Bool :=
  decide (1 ≤ r.n) && decide (r.n ≤ c.maxReplyLen) && decide (r.buf.length = r.n)

end Sys2Proof.Machine
end

