-- ==== Sys2Proof/Machine/Flags.lean ====
section
/-! DEFINITION. Flags and result codes: the receive overflow flag (10_state.md R28), the HCS's result codes and how a reply yields one (30_encoding.md R89,
42_host_sequencer.md R138, R139), and the codes of notifications and faults (R80, 60_exceptions.md R170). -/

namespace Sys2Proof.Machine

/-- `RX_OVF <- 1` (R28, R106): sticky, cleared by reset alone. -/
def Device.flagOverflow (d : Device) : Device := { d with rxOvf := true }

/-- Result codes (R89). -/
def HsResult.code : HsResult → Nat
  | .ok => 0
  | .errSingleMismatch => 1
  | .errMultiLength => 2
  | .errMultiContent => 3
  | .errTransaction => 4

/-- Notification codes (R80). -/
def Notification.code : Notification → Nat
  | .req => 1
  | .rcv => 2

/-- Fault codes (R170). -/
def FaultRecord.code : FaultRecord → Nat
  | .readEmpty _ => 1
  | .queueFull _ => 2
  | .stateInvalid _ => 3

/-- The result of the 1-byte mode (R138): `OK` only when exactly one byte came and it is the echo. -/
def singleResult (echo : Byte) (seq : List Byte) : HsResult :=
  if seq = [echo] then .ok else .errSingleMismatch

/-- The result of the multi-byte mode (R139): the length is checked first, then the first byte. -/
def multiResult (echo : Byte) (n : Nat) (seq : List Byte) : HsResult :=
  if seq.length ≠ n then .errMultiLength
  else if seq.head? ≠ some echo then .errMultiContent
  else .ok

end Sys2Proof.Machine
end

