-- ==== Sys2Proof/Machine/AppOps.lean ====
section
/-! DEFINITION. The application operations (41_slave_app_ops.md R120 to R123), each one atomic step of the main context (20_memory.md R58). None touches `ST`,
`BM`, `BM_BYTE`, `RX_OVF` or `NTF`. -/

namespace Sys2Proof.Machine

/-- `APP_AVAILABLE` (R120): returns `RX.COUNT`. -/
def execAppAvailable (s : State) : Result := answerApp (.count s.dev.rx.count) id s

/-- `APP_READ` (R121): the fault `F_READ_EMPTY` when `RX` is empty, else `RingPop(RX)`. -/
def execAppRead (s : State) : Result :=
  if s.dev.rx.count = 0 then raise (.readEmpty (mkWord 0x5#4 0#8)) s
  else answerApp (.byte s.dev.rx.front) (fun d => d.withRx (d.rx.drop d.cfg.rxLog2.val)) s

/-- `APP_QUEUE` (R122): the fault `F_QUEUE_FULL` when `TX` is full, else `RingPush(TX, b)`. -/
def execAppQueue (b : Byte) (s : State) : Result :=
  if s.dev.tx.count = s.dev.txCap then raise (.queueFull (mkWord 0x6#4 b)) s
  else answerApp .nothing (fun d => d.withTx (d.tx.push d.cfg.txLog2.val b)) s

/-- `APP_TX_COUNT` (R123): returns `TX.COUNT`. -/
def execAppTxCount (s : State) : Result := answerApp (.count s.dev.tx.count) id s

end Sys2Proof.Machine
end

