-- ==== Sys2Proof/Machine/BusEvents.lean ====
section
/-! DEFINITION. The slave protocol engine's bus events (40_slave_bus_events.md R100 to R109): each rule as a function of the device, each meaning as the
taking of that event. -/

namespace Sys2Proof.Machine

open Config

/-- A start or stop in the receive path ends a write transaction to this device: `emit(RCV)` (R100, R107). -/
def Device.endWrite (d : Device) : Device :=
  if d.st = stReceiveDataByte ∨ d.st = stStoreByteAndAck then d.emit .rcv else d

/-- `SendNext()` (R109). -/
def Device.sendNext (d : Device) : Device :=
  if 0 < d.tx.count then (d.withTx (d.tx.drop d.cfg.txLog2.val)).load d.tx.front
  else d.load d.cfg.filler

/-- R100. -/
def Device.onStart (d : Device) : Device := d.endWrite.goTo stAwaitAddress bmIn8

/-- R107. -/
def Device.onStop (d : Device) : Device := d.endWrite.goTo stAwaitAddress bmReleased

/-- R101. -/
def Device.onAddress (b : Byte) (d : Device) : Device :=
  if byteAddr b = d.addr then
    if byteIsRead b then (d.emit .req).goTo stSendDataByte bmOutAck
    else d.goTo stReceiveDataByte bmOutAck
  else d.goTo stAwaitAddress bmReleased

/-- R103. -/
def Device.onByteSent (d : Device) : Device := d.goTo stCheckReceivedAck bmIn1

/-- R104. -/
def Device.onAckBit (b : Byte) (d : Device) : Device :=
  if byteIsNack b then d.goTo stAwaitAddress bmReleased else d.sendNext

/-- R105. -/
def Device.onAckSent (d : Device) : Device := d.goTo stStoreByteAndAck bmIn8

/-- R106: store the byte, or drop it and set the flag; acknowledge in both cases. -/
def Device.onByteReceived (b : Byte) (d : Device) : Device :=
  (if d.rx.count < d.rxCap then d.withRx (d.rx.push d.cfg.rxLog2.val b) else d.flagOverflow).goTo
    stReceiveDataByte bmOutAck

/-- `EV_START` (R100): enabled in every state. -/
def execEvStart (s : State) : Result := takeEvent Device.onStart s

/-- `EV_OVF` in `AWAIT_ADDRESS` (R101). -/
def execEvOvfAwaitAddress (b : Byte) (s : State) : Result := takeArmed bmIn8 (Device.onAddress b) s

/-- `EV_OVF` in `SEND_DATA_BYTE` (R102); the operand is ignored. -/
def execEvOvfSendDataByte (_b : Byte) (s : State) : Result := takeArmed bmOutAck Device.sendNext s

/-- `EV_OVF` in `AWAIT_ACK_AFTER_SEND` (R103); the operand is ignored. -/
def execEvOvfAwaitAckAfterSend (_b : Byte) (s : State) : Result :=
  takeArmed bmOut8 Device.onByteSent s

/-- `EV_OVF` in `CHECK_RECEIVED_ACK` (R104); only `d[0]` counts. -/
def execEvOvfCheckReceivedAck (b : Byte) (s : State) : Result :=
  takeArmed bmIn1 (Device.onAckBit b) s

/-- `EV_OVF` in `RECEIVE_DATA_BYTE` (R105); the operand is ignored. -/
def execEvOvfReceiveDataByte (_b : Byte) (s : State) : Result :=
  takeArmed bmOutAck Device.onAckSent s

/-- `EV_OVF` in `STORE_BYTE_AND_ACK` (R106). -/
def execEvOvfStoreByteAndAck (b : Byte) (s : State) : Result :=
  takeArmed bmIn8 (Device.onByteReceived b) s

/-- `EV_OVF` with `ST` 6 or 7 (R108): the fault `F_STATE_INVALID`, its record the dispatch key; whatever `BM` is (log 18). -/
def execEvOvfInvalidState (low : BitVec 1) (b : Byte) (s : State) : Result :=
  raise (.stateInvalid (mkKey (3#2 ++ low) (mkWord 0x2#4 b))) s

/-- `EV_STOP` (R107): enabled in every state. -/
def execEvStop (s : State) : Result := takeEvent Device.onStop s

end Sys2Proof.Machine
end

