-- ==== Sys2Proof/Machine/HostOps.lean ====
section
/-! DEFINITION. The host command/reply sequencer (42_host_sequencer.md): the issue of an operation (R134 to R136), the transport call a phase waits for
(R130, R137 to R139) and the micro-steps that take its answer. -/

namespace Sys2Proof.Machine

/-- An operation may be issued only in `IDLE` or `DONE` (R134). -/
def Hcs.ready (h : Hcs) : Bool :=
  match h.phase with
  | .idle => true
  | .done => true
  | .write => false
  | .read => false

/-- The writes both issues share (R135, R136). -/
def Hcs.begin (d : Descriptor) (n : Nat) (h : Hcs) : Hcs :=
  { h with addr := peerOf d, cmds := d.cmds, idx := 0, echo := d.echo, n := n, phase := .write }

/-- `HOST_CMD1` (R135): the 1-byte mode is `HS_N = 0`; `HS_BUF` is not written. While an operation is in progress the caller has no move; then the
descriptor is checked (R134; log 11). -/
def execHostCmd1 (d : Descriptor) (s : State) : Result :=
  if s.hcs.ready then
    if descriptorOk s.host d then .next (s.withHcs (s.hcs.begin d 0))
    else .refused .badDescriptor
  else .fault (.noMove .hostBusy)

/-- `HOST_CMDN` (R136): the caller's buffer becomes `HS_BUF`, its contents untouched. -/
def execHostCmdN (d : Descriptor) (r : ReplyRequest) (s : State) : Result :=
  if s.hcs.ready then
    if descriptorOk s.host d && replyOk s.host r then
      .next (s.withHcs { s.hcs.begin d r.n with buf := r.buf })
    else .refused .badDescriptor
  else .fault (.noMove .hostBusy)

/-- The transport call the HCS waits for: the next command byte in `WRITE` (R137), the one read in `READ`, of 1 byte in the 1-byte mode (R138) and of `HS_N`
bytes in the multi-byte mode (R139); none in `IDLE` and `DONE` (R140). -/
def Hcs.pendingCall (h : Hcs) : Option TransportCall :=
  match h.phase with
  | .idle => none
  | .done => none
  | .write =>
    match h.cmds[h.idx]? with
    | some b => some (.writeByte h.addr b)
    | none => none
  | .read => some (.requestBytes h.addr (if h.n = 0 then 1 else h.n))

/-- Write micro-step (R137) with the transport's answer `ok` to `write-byte`. -/
def Hcs.writeStep (ok : Bool) (h : Hcs) : Hcs :=
  if ok then
    { h with idx := h.idx + 1, phase := if h.idx + 1 = h.cmds.length then .read else .write }
  else { h with result := .errTransaction, phase := .done }

/-- Read micro-step, 1-byte mode (R138): no caller buffer is written. -/
def Hcs.readSingle (seq : List Byte) (h : Hcs) : Hcs :=
  { h with k := seq.length, result := singleResult h.echo seq, phase := .done }

/-- Read micro-step, multi-byte mode (R139): the bytes that came are in `HS_BUF` in every case, the rest of it is unchanged. -/
def Hcs.readMulti (seq : List Byte) (h : Hcs) : Hcs :=
  { h with
    k := seq.length, buf := seq ++ h.buf.drop seq.length
    result := multiResult h.echo h.n seq, phase := .done }

/-- Read micro-step (R133): the mode is `HS_N`'s. -/
def Hcs.readStep (seq : List Byte) (h : Hcs) : Hcs :=
  if h.n = 0 then h.readSingle seq else h.readMulti seq

end Sys2Proof.Machine
end

