-- ==== Sys2Proof/Machine/Dispatch.lean ====
section
/-! DEFINITION. One arm for each operation of opcode_table.json. -/

namespace Sys2Proof.Machine

def exec (i : Instr) (s : State) : Host.Outcome State Fault Refusal :=
  match i with
  | .evStart => Sys2Proof.Machine.execEvStart s
  | .evOvfAwaitAddress d => Sys2Proof.Machine.execEvOvfAwaitAddress d s
  | .evOvfSendDataByte d => Sys2Proof.Machine.execEvOvfSendDataByte d s
  | .evOvfAwaitAckAfterSend d => Sys2Proof.Machine.execEvOvfAwaitAckAfterSend d s
  | .evOvfCheckReceivedAck d => Sys2Proof.Machine.execEvOvfCheckReceivedAck d s
  | .evOvfReceiveDataByte d => Sys2Proof.Machine.execEvOvfReceiveDataByte d s
  | .evOvfStoreByteAndAck d => Sys2Proof.Machine.execEvOvfStoreByteAndAck d s
  | .evOvfInvalidState low d => Sys2Proof.Machine.execEvOvfInvalidState low d s
  | .evStop => Sys2Proof.Machine.execEvStop s
  | .appAvailable => Sys2Proof.Machine.execAppAvailable s
  | .appRead => Sys2Proof.Machine.execAppRead s
  | .appQueue b => Sys2Proof.Machine.execAppQueue b s
  | .appTxCount => Sys2Proof.Machine.execAppTxCount s
  | .hostCmd1 d => Sys2Proof.Machine.execHostCmd1 d s
  | .hostCmdN d r => Sys2Proof.Machine.execHostCmdN d r s

end Sys2Proof.Machine
end

