-- ==== Sys2Proof/Machine/Clients.lean ====
section
/-! DEFINITION. The host client programs of 45_host_clients.md: registry and connections (R150 to R152), status decode (R156), upload (R153 to R159) and
scanner (R160 to R164). They reach the bus through `HOST_CMD1`, `HOST_CMDN` and the probe of R144 alone. 00_scope.md R5 leaves them outside the block. -/

namespace Sys2Proof.Machine

open Config

/-- A move that is not enabled (R10). -/
def stuck (why : NoMove) : Result := .fault (.noMove why)

/-! ## Address classes -/

/-- `boot(a)` (R164). -/
def isBootAddr (c : HostConfig) (a : PeerAddr) : Bool := decide (c.addrMin ≤ a) && decide (a ≤ c.bootMax)

/-- `app(a)` (R164). -/
def isAppAddr (c : HostConfig) (a : PeerAddr) : Bool := decide (c.appMin ≤ a) && decide (a ≤ c.addrMax)

/-- `pair(a)`, defined for `boot(a)` (R81, R164). -/
def pairAddr (c : HostConfig) (a : PeerAddr) : Option PeerAddr :=
  if isBootAddr c a then some (a + c.pairOffset) else none

/-! ## Registry and connections -/

/-- Result of `acquire` (R150). -/
inductive AcquireResult where
  | success
  | alreadyInUse
  deriving DecidableEq, Repr

/-- `acquire(a)` (R150). -/
def acquire (a : PeerAddr) (held : List PeerAddr) : AcquireResult × List PeerAddr :=
  if a ∈ held then (.alreadyInUse, held) else (.success, held ++ [a])

/-- `release(a)` (R150). -/
def release (a : PeerAddr) (held : List PeerAddr) : List PeerAddr := held.filter fun b => b ≠ a

/-- `open(a, hint)` (R151): the transport's `init`, where it is called, leaves nothing in this state but `OWNS_TRANSPORT` (log 26). DESIGN CHOICE (log 33): the
caller gives the page-write block size, or none for a target that is no firmware target; R151 says neither where it comes from nor which target is one. -/
def Client.openConn (a : PeerAddr) (hint : PinHint) (blockSize : Option Nat) (c : Client) : Client :=
  match acquire a c.held with
  | (.alreadyInUse, _) => { c with openResult := some .addressConflict }
  | (.success, held) =>
    { c with
      held := held
      conns := c.conns ++ [{ addr := a, ownsTransport := decide (hint = .dedicatedLines), blockSize := blockSize }]
      openResult := some .opened }

/-- `close()` of the Connection to `a` (R152). -/
def Client.closeConn (a : PeerAddr) (c : Client) : Client :=
  { c with held := release a c.held, conns := c.conns.filter fun k => k.addr ≠ a }

/-! ## Status reply -/

/-- A 16-bit field of the status reply (R79, R156). -/
def statusWord (order : WordOrder) (r : List Byte) (lo : Nat) : BitVec 16 :=
  match order with
  | .le => r.getD (lo + 1) 0#8 ++ r.getD lo 0#8
  | .be => r.getD lo 0#8 ++ r.getD (lo + 1) 0#8

/-- Device Status decode (R156, R78). -/
def decodeStatus (order : WordOrder) (r : List Byte) : DeviceStatus :=
  { signature := r.getD 1 0#8, major := r.getD 2 0#8, minor := r.getD 3 0#8
    features := r.getD 4 0#8, bootStart := statusWord order r 5, appStart := statusWord order r 7
    trampoline := statusWord order r 9 }

/-! ## Pages -/

/-- The page count `ceil(len / PAGE_SIZE)` (R157). -/
def pageCount (pageSize len : Nat) : Nat := (len + pageSize - 1) / pageSize

/-- Page `i` of an image (R157); the last may be short and is not padded. -/
def pageOf (pageSize : Nat) (image : List Byte) (i : Nat) : List Byte :=
  (image.drop (i * pageSize)).take pageSize

/-! ## Host operations the programs issue -/

/-- The descriptor of an operation to the peer `a`, its 7-bit address in the 8-bit field. -/
def descriptorTo (a : PeerAddr) (cmds : List Byte) (echo : Byte) : Descriptor :=
  { addr := a.setWidth 8, cmds := cmds, echo := echo }

/-- INIT (R153). -/
def initOp (c : HostConfig) (a : PeerAddr) : Instr :=
  .hostCmd1 (descriptorTo a [c.cmdInit] c.echoInit)

/-- Page-write of one page (R77, R158). -/
def pageOp (c : HostConfig) (a : PeerAddr) (page : List Byte) : Instr :=
  .hostCmd1 (descriptorTo a (c.cmdPageWrite :: page) c.echoPageWrite)

/-- STATUS-query (R155); the caller's buffer holds free bytes (log 20). -/
def statusOp (c : HostConfig) (a : PeerAddr) (fresh : Nat) : Instr :=
  .hostCmdN (descriptorTo a [c.cmdStatus] c.echoStatus)
    { n := c.statusReplyLen, buf := (List.range c.statusReplyLen).map fun i => freeByte (fresh + i) }

/-- The client program goes on with `j`. -/
def State.withJob (j : Job) (s : State) : State := s.withClient { s.client with job := j }

/-- Issues a host operation, and the program goes on with `j`. -/
def issueThen (i : Instr) (j : Job) (s : State) : Result :=
  match exec i s with
  | .next t => .next (t.withJob j)
  | .fault f => .fault f
  | .refused r => .refused r

/-- Issues the status query, with the Device Status record at its default until it succeeds (R155; log 20). -/
def issueStatus (a : PeerAddr) (j : Job) (s : State) : Result :=
  issueThen (statusOp s.host a s.fresh) j
    ((s.withClient { s.client with status := DeviceStatus.unknown }).draw s.host.statusReplyLen)

/-- The blocking call returns at `DONE` (R140): the program goes on with the result. -/
def onDone (k : HsResult → State → State) (s : State) : Result :=
  if s.hcs.phase = .done then .next (k s.hcs.result s) else stuck .clientWaits

/-- A status query that has returned `r`: the record is populated only when it succeeded (R155). -/
def State.takeStatus (r : HsResult) (s : State) : State :=
  if r = .ok then s.withClient { s.client with status := decodeStatus s.host.wordOrder s.hcs.buf } else s

/-! ## Upload -/

/-- The end of an upload (R159). -/
def State.endUpload (r : UploadResult) (s : State) : State :=
  s.withClient { s.client with job := .idle, uploadResult := some r }

/-- The next step of an upload (R153 to R159). Its pages have `PAGE_SIZE` bytes (R157), whatever a Connection's block size (log 33). -/
def uploadStep (a : PeerAddr) (image : List Byte) (twoStep : Bool) (stage : UploadStage) (s : State) : Result :=
  match stage with
  | .init false => issueThen (initOp s.host a) (.upload a image twoStep (.init true)) s
  | .init true =>
    onDone (fun r t =>
      if r = .ok then t.withJob (.upload a image twoStep (if twoStep then .delay else .status false))
      else t.endUpload (.failed .init none r)) s
  | .delay => .next (s.withJob (.upload a image twoStep (.secondInit false)))
  | .secondInit false => issueThen (initOp s.host a) (.upload a image twoStep (.secondInit true)) s
  | .secondInit true =>
    onDone (fun r t =>
      if r = .ok then t.withJob (.upload a image twoStep (.status false))
      else t.endUpload (.failed .init none r)) s
  | .status false => issueStatus a (.upload a image twoStep (.status true)) s
  | .status true =>
    onDone (fun r t =>
      if r = .ok then
        if pageCount t.host.pageSize image.length = 0 then (t.takeStatus r).endUpload .success
        else (t.takeStatus r).withJob (.upload a image twoStep (.page 0 false))
      else t.endUpload (.failed .status none r)) s
  | .page i false =>
    issueThen (pageOp s.host a (pageOf s.host.pageSize image i)) (.upload a image twoStep (.page i true)) s
  | .page i true =>
    onDone (fun r t =>
      if r = .ok then
        if i + 1 < pageCount t.host.pageSize image.length then
          t.withJob (.upload a image twoStep (.page (i + 1) false))
        else t.endUpload .success
      else t.endUpload (.failed .upload (some i) r)) s

/-! ## Status query by itself -/

/-- The next step of a status query (R155). -/
def queryStep (a : PeerAddr) (issued : Bool) (s : State) : Result :=
  match issued with
  | false => issueStatus a (.query a true) s
  | true =>
    onDone (fun r t =>
      (t.takeStatus r).withClient { (t.takeStatus r).client with job := .idle, queryResult := some r }) s

/-! ## Scanner -/

/-- The end of find-first (R160). -/
def State.endFind (r : FindResult) (s : State) : State :=
  s.withClient { s.client with job := .idle, findResult := some r }

/-- The next step of find-first: the settle delay after a probe is over (R160). -/
def findStep (a : PeerAddr) (stage : ProbeStage) (s : State) : Result :=
  match stage with
  | .probe => stuck .clientWaits
  | .settle true => .next (s.endFind (.found a (decide (s.host.appMin ≤ a))))
  | .settle false =>
    if a < s.host.findFirstMax then .next (s.withJob (.find (a + 1) .probe))
    else .next (s.endFind .notFound)

/-- The full scan goes on after the address `a` (R161). -/
def State.scanNext (a : PeerAddr) (entries : List InfoRecord) (s : State) : State :=
  if a < s.host.addrMax then s.withJob (.scan (a + 1) (.probing .probe) entries)
  else s.withClient { s.client with job := .idle, scanResult := some entries }

/-- The entry of a peer that answers nothing more (R161, D38). -/
def unknownEntry (a : PeerAddr) : InfoRecord := { addr := a, tag := .unknown, major := 0#8, minor := 0#8 }

/-- The entry of a bootloader peer whose status query returned `r` (R161). -/
def queriedEntry (c : HostConfig) (a : PeerAddr) (r : HsResult) (st : DeviceStatus) : InfoRecord :=
  if r = .ok then
    { addr := a, tag := if st.signature = c.signature then .timonel else .unknown, major := st.major, minor := st.minor }
  else unknownEntry a

/-- The next step of a full scan (R161). -/
def scanStep (a : PeerAddr) (stage : ScanStage) (entries : List InfoRecord) (s : State) : Result :=
  match stage with
  | .probing .probe => stuck .clientWaits
  | .probing (.settle false) => .next (s.scanNext a entries)
  | .probing (.settle true) =>
    if a ≤ s.host.bootMax then .next (s.withJob (.scan a .opening entries))
    else if s.host.appMin ≤ a then
      .next (s.scanNext a (entries ++ [{ addr := a, tag := .application, major := 0#8, minor := 0#8 }]))
    else .next (s.scanNext a entries)
  | .opening =>
    if a ∈ s.client.held then
      .next ((s.withClient (s.client.openConn a .noDedicatedLines (some s.host.pageSize))).scanNext a
        (entries ++ [unknownEntry a]))
    else
      .next ((s.withClient (s.client.openConn a .noDedicatedLines (some s.host.pageSize))).withJob
        (.scan a (.query false) entries))
  | .query false => issueStatus a (.scan a (.query true) entries) s
  | .query true =>
    onDone (fun r t =>
      (t.takeStatus r).withJob
        (.scan a (.closing (queriedEntry t.host a r (t.takeStatus r).client.status)) entries)) s
  | .closing e => .next ((s.withClient (s.client.closeConn a)).scanNext a (entries ++ [e]))

/-! ## The client layer as an agent -/

/-- The next step of the client program under way. -/
def clientStep (s : State) : Result :=
  match s.client.job with
  | .idle => stuck .clientWaits
  | .upload a image twoStep stage => uploadStep a image twoStep stage s
  | .query a issued => queryStep a issued s
  | .find a stage => findStep a stage s
  | .scan a stage entries => scanStep a stage entries s

/-- The address a client program wants probed (R160, R161). -/
def Client.probeDue (c : Client) : Option PeerAddr :=
  match c.job with
  | .find a .probe => some a
  | .scan a (.probing .probe) _ => some a
  | _ => none

/-- The probe is answered: the settle delay follows (R160, R161, R163). -/
def Client.probeAnswered (ok : Bool) (c : Client) : Client :=
  match c.job with
  | .find a .probe => { c with job := .find a (.settle ok) }
  | .scan a (.probing .probe) entries => { c with job := .scan a (.probing (.settle ok)) entries }
  | _ => c

/-- A call on the client layer: the host has one context, so it is made only while no program and no host operation is under way (R134, R182). -/
def clientCall (c : ClientCall) (s : State) : Result :=
  if s.client.job ≠ .idle then stuck .clientBusy
  else if s.hcs.ready = false then stuck .hostBusy
  else
    match c with
    | .openConn a hint blockSize => .next (s.withClient (s.client.openConn a hint blockSize))
    | .closeConn a =>
      if a ∈ s.client.conns.map Connection.addr then .next (s.withClient (s.client.closeConn a))
      else stuck .noConnection
    | .upload a image twoStep =>
      .next (s.withClient { s.client with job := .upload a image twoStep (.init false), uploadResult := none })
    | .queryStatus a => .next (s.withClient { s.client with job := .query a false, queryResult := none })
    | .findFirst =>
      if s.host.addrMin ≤ s.host.findFirstMax then
        .next (s.withClient { s.client with job := .find s.host.addrMin .probe, findResult := none })
      else .next (s.endFind .notFound)
    | .fullScan =>
      if s.host.addrMin ≤ s.host.addrMax then
        .next (s.withClient { s.client with job := .scan s.host.addrMin (.probing .probe) [], scanResult := none })
      else .next (s.withClient { s.client with scanResult := some [] })

end Sys2Proof.Machine
end

