-- ==== Sys2Proof/Machine/Bus.lean ====
section
/-! DEFINITION. The host-side transport: its answers to a pending call, drawn for a model of the HCS alone (42_host_sequencer.md R131, R132) or produced by
the bus binding with the SPEs (R142 to R145), in which one call is a series of deliveries, each one SPE step (20_memory.md R58). -/

namespace Sys2Proof.Machine

open Config

/-- The refusal a decoder's error stands for (R86, R183). -/
def refusalOf : DecodeError → Refusal
  | .reservedOp => .reservedOp
  | .nonzeroData => .nonzeroData
  | .badDescriptor => .badDescriptor

/-- Has a fault ended the run of the agent that performs `i` (R170)? The host has no fault. -/
def State.agentFaulted (i : Instr) (s : State) : Bool :=
  match i.agent with
  | .environment => s.dev.speFault.isSome
  | .application => s.dev.appFault.isSome
  | .hostCaller => false

/-- Runs a request: the key is `ST` of the device in front and `W` (R84). A faulted agent takes no step (R170). -/
def runRequest (r : Request) (s : State) : Result :=
  match decodeRequest s.dev.st r with
  | .error e => .refused (refusalOf e)
  | .ok i => if s.agentFaulted i then stuck .agentFaulted else exec i s

/-! ## Calls and answers -/

/-- The call that waits for an answer: the HCS's, or else the client program's probe. -/
def State.pendingCall (s : State) : Option TransportCall :=
  match s.hcs.pendingCall with
  | some c => some c
  | none => s.client.probeDue.map TransportCall.probe

/-- The answered call's micro-step (R137 to R139; R160, R161 for a probe). A reply has at most the bytes asked for (R132). -/
def completeCall (c : TransportCall) (a : Answer) (s : State) : Result :=
  match c, a with
  | .writeByte _ _, .ack ok => .next (s.withHcs (s.hcs.writeStep ok))
  | .requestBytes _ n, .bytes seq =>
    if seq.length ≤ n then .next (s.withHcs (s.hcs.readStep seq)) else stuck .answerMismatch
  | .probe _, .ack ok => .next (s.withClient (s.client.probeAnswered ok))
  | .writeByte _ _, .bytes _ => stuck .answerMismatch
  | .requestBytes _ _, .ack _ => stuck .answerMismatch
  | .probe _, .bytes _ => stuck .answerMismatch

/-- A drawn answer to the pending call (R131, R132): any answer at all, under no law; the schedule holds it. DESIGN CHOICE (log 37): the answer to a probe may be
drawn too, where R144 gives it in the bus binding alone, and a draw is taken whatever devices the state holds. -/
def drawnAnswer (a : Answer) (s : State) : Result :=
  match s.bus with
  | some _ => stuck .transactionOpen
  | none =>
    match s.pendingCall with
    | none => stuck .noCallPending
    | some c => completeCall c a s

/-! ## The bus binding -/

/-- The peer a call addresses. -/
def TransportCall.addr : TransportCall → PeerAddr
  | .writeByte a _ => a
  | .requestBytes a _ => a
  | .probe a => a

/-- The event goes to every SPE. -/
def toAll (l : List PeerAddr) (e : BusEvent) (r : Reading) : List Delivery :=
  l.map fun a => { target := a, event := e, reads := r }

/-- The overflow that ends a shift of the SPE with the address `a`. -/
def toOne (a : PeerAddr) (b : Byte) (r : Reading) : Delivery := { target := a, event := .ovf b, reads := r }

/-- A byte of a read: it has been shifted out, and the master reads it; then the master's ACK, or NACK after the last of `n` (R143). -/
def readByte (a : PeerAddr) (n i : Nat) : List Delivery :=
  [toOne a ignoredByte .byte, toOne a (ackByte (decide (i + 1 = n))) .nothing]

/-- What the addressed SPE alone receives, after the address byte (R142 to R144). -/
def addressedPart : TransportCall → List Delivery
  | .writeByte a b => [toOne a ignoredByte .acknowledge, toOne a b .acknowledge, toOne a ignoredByte .acknowledge]
  | .requestBytes a n => toOne a ignoredByte .acknowledge :: (List.range n).flatMap (readByte a n)
  | .probe a => [toOne a ignoredByte .acknowledge]

/-- The address byte of a call's transaction (R70). -/
def TransportCall.addrByte : TransportCall → Byte
  | .writeByte a _ => writeAddrByte a
  | .requestBytes a _ => readAddrByte a
  | .probe a => writeAddrByte a

/-- The event series of a transaction on a bus with these addresses (R142 to R144). -/
def busScript (l : List PeerAddr) (c : TransportCall) : List Delivery :=
  toAll l .start .nothing ++ toAll l (.ovf c.addrByte) .acknowledge
    ++ (if c.addr ∈ l then addressedPart c else []) ++ toAll l .stop .nothing

/-- The addresses on the bus. -/
def State.addresses (s : State) : List PeerAddr := s.devices.map Device.addr

/-- A transaction as the bus takes it up: nothing delivered, nothing read. -/
def Transaction.opened (l : List PeerAddr) (c : TransportCall) : Transaction :=
  { call := c, todo := busScript l c, acked := decide (c.addr ∈ l), seq := [], broken := false }

/-- The bus takes up a call. Two SPEs with one address, and a second master whose transaction is open, are outside the binding (R145). -/
def beginTransaction (c : TransportCall) (s : State) : Result :=
  if s.addresses.Nodup then
    if s.foreign = [] then .next (s.withBus (some (Transaction.opened s.addresses c)))
    else .refused .secondMaster
  else .refused .duplicateAddress

/-- The delivery has been made, `out` being the SPE's `BM_BYTE` at it (R143). -/
def Transaction.delivered (d : Delivery) (out : Byte) (t : Transaction) : Transaction :=
  { t with seq := if d.reads = .byte then t.seq ++ [out] else t.seq }

/-- The event has not been taken. A released transport delivers no overflow (R23, R178): its device has been reset in the middle of the transaction (R190); and a
faulted SPE takes nothing (R170; log 36). A byte the master reads there is free, and so is what the master takes for the acknowledgement of the addressed
device (log 15). -/
def Transaction.missed (d : Delivery) (out : Byte) (t : Transaction) : Transaction :=
  { t with
    seq := if d.reads = .byte then t.seq ++ [out] else t.seq
    broken := t.broken || (decide (d.target = t.call.addr) && decide (d.reads = .acknowledge)) }

/-- The transaction goes on without the event, and a free value is used up. -/
def passBy (d : Delivery) (t : Transaction) (s : State) : State :=
  (s.withBus (some (t.missed d (freeByte s.fresh)))).draw 1

/-- One delivery: the SPE with the target address takes the event as it takes any request (R84, R142); `t` is the transaction without it. The bus and every
other agent go on beside a faulted SPE, and past the event that faults it (R170; log 36). -/
def deliver (d : Delivery) (t : Transaction) (s : State) : Result :=
  match s.focus d.target with
  | none => stuck .noSuchDevice
  | some u =>
    if u.dev.speFault ≠ none ∨ (d.event.isOvf = true ∧ u.dev.bm = bmReleased) then .next (passBy d t s)
    else
      match runRequest { word := d.event.word, payload := .none } u with
      | .next v =>
        if v.dev.speFault = none then
          .next (((v.focus s.dev.addr).getD v).withBus (some (t.delivered d u.dev.bmByte)))
        else .next (passBy d t ((v.focus s.dev.addr).getD v))
      | .fault f => .fault f
      | .refused r => .refused r

/-- Whether the master takes the call for acknowledged (R142 to R144): when a device has the address. Where the addressed device was reset before it had
acknowledged, the spec does not say: free (log 15). -/
def Transaction.acknowledged (fresh : Nat) (t : Transaction) : Bool :=
  if t.broken then freeAck fresh else t.acked

/-- The answer of a finished transaction (R142 to R144). A read that is acknowledged returns every byte it asked for, and one that is not returns none (R143). -/
def Transaction.answer (fresh : Nat) (t : Transaction) : Answer :=
  match t.call with
  | .writeByte _ _ => .ack (t.acknowledged fresh)
  | .requestBytes _ _ => .bytes (if t.acknowledged fresh then t.seq else [])
  | .probe _ => .ack (t.acknowledged fresh)

/-- The end of a transaction, after its `EV_STOP`: the call's registers are written (R58, R142). -/
def finishTransaction (t : Transaction) (s : State) : Result :=
  if s.pendingCall = some t.call then completeCall t.call (t.answer s.fresh) ((s.withBus none).draw 1)
  else stuck .noCallPending

/-- The bus carries the pending call one event further. -/
def busStep (s : State) : Result :=
  match s.bus with
  | some t =>
    match t.todo with
    | d :: rest => deliver d { t with todo := rest } s
    | [] => finishTransaction t s
  | none =>
    match s.pendingCall with
    | none => stuck .noCallPending
    | some c => beginTransaction c s

end Sys2Proof.Machine
end

