-- ==== Sys2Proof/Machine/Moves.lean ====
section
/-! DEFINITION. What one move of the schedule does (00_scope.md R3, 20_memory.md R58, R60), and the placing of a table word where the next step takes it. -/

namespace Sys2Proof.Machine

open Config

/-- A bus event from elsewhere while the bus carries the host's transaction: a second master (R145). -/
def State.busTaken (i : Instr) (s : State) : Bool := decide (i.agent = .environment) && s.bus.isSome

/-- A host operation while a client program is under way: the host has one context, and its caller is that program (R182, R184; log 19). -/
def State.hostTaken (i : Instr) (s : State) : Bool :=
  decide (i.agent = .hostCaller) && decide (s.client.job ≠ .idle)

/-- The record of another master's transaction (R145; log 19) after its event `i` at the device with the address `a`: it is open there from `EV_START` to
`EV_STOP`. -/
def foreignAfter (i : Instr) (a : PeerAddr) (l : List PeerAddr) : List PeerAddr :=
  if i = .evStart then l.insert a else if i = .evStop then l.erase a else l

/-- An instruction offered from outside: it runs, and where it is a bus event it is another master's. -/
def runOffered (i : Instr) (s : State) : Result :=
  match exec i s with
  | .next t => .next (t.withForeign (foreignAfter i s.dev.addr s.foreign))
  | .fault f => .fault f
  | .refused r => .refused r

/-- A request to a faulted agent (R170): a bus event passes the SPE by and its source goes on (log 36); an application operation has no move (log 5). -/
def offerFaulted (i : Instr) (s : State) : Result :=
  if i.agent = .environment then .next (s.withForeign (foreignAfter i s.dev.addr s.foreign)) else stuck .agentFaulted

/-- A request offered to the block: decoded (R84), then run. -/
def offer (r : Request) (s : State) : Result :=
  match decodeRequest s.dev.st r with
  | .error e => .refused (refusalOf e)
  | .ok i =>
    if s.busTaken i then .refused .secondMaster
    else if s.hostTaken i then stuck .clientBusy
    else if s.agentFaulted i then offerFaulted i s
    else runOffered i s

/-- The device in front changes. -/
def runFocus (a : PeerAddr) (s : State) : Result :=
  match s.focus a with
  | some t => .next t
  | none => stuck .noSuchDevice

/-- One move, in the state whose schedule is what follows it. -/
def runMove (m : Move) (s : State) : Result :=
  match m with
  | .request r => offer r s
  | .focus a => runFocus a s
  | .resetDevice => .next (s.withDev s.dev.resetSpe)
  | .resetHost => .next s.resetHalf
  | .transport a => drawnAnswer a s
  | .bus => busStep s
  | .client c => clientCall c s
  | .clientStep => clientStep s

/-- The next move and the state in which it runs. -/
def takeMove (s : State) : Option (Move × State) :=
  match s.sched with
  | [] => none
  | m :: rest => some (m, s.withSched rest)

/-- The bus mode that goes with a state code (R24); codes 6 and 7 go with none. -/
def pairedMode (st : BitVec 3) : BitVec 3 :=
  match st with
  | 0#3 => bmIn8
  | 1#3 => bmOutAck
  | 2#3 => bmOut8
  | 3#3 => bmIn1
  | 4#3 => bmOutAck
  | 5#3 => bmIn8
  | _ => bmReleased

/-- The device in front with its agents running. -/
def State.unfaulted (s : State) : State := s.withDev { s.dev with speFault := none, appFault := none }

/-- What the row of the key `k` needs so that the next step runs it (log 27): for `EV_OVF` the state code in the key and the bus mode that goes with it; no
transaction under way for a bus event; no client program for a host operation; an agent that has not faulted. -/
def State.readyFor (k : Key) (s : State) : State :=
  match keyOp k with
  | 0x1#4 => s.unfaulted.withBus none
  | 0x2#4 => (s.unfaulted.withDev (s.unfaulted.dev.goTo (keySt k) (pairedMode (keySt k)))).withBus none
  | 0x3#4 => s.unfaulted.withBus none
  | 0x8#4 => s.withJob .idle
  | 0x9#4 => s.withJob .idle
  | _ => s.unfaulted

/-- Offers the table word `w` as the next move. -/
def State.placeWord (nbits w : Nat) (s : State) : State :=
  (s.readyFor (BitVec.ofNat 15 (w % 2 ^ nbits))).withSched
    (.request
      { word := (BitVec.ofNat 15 (w % 2 ^ nbits)).extractLsb' 0 12
        payload := zeroPayload (BitVec.ofNat 15 (w % 2 ^ nbits)) } :: s.sched)

end Sys2Proof.Machine
end

