-- ==== Sys2Proof/Machine/Step.lean ====
section
/-! DEFINITION. One step of the machine: the next move of the schedule. -/

namespace Sys2Proof.Machine

/-- One step (R58, R60): the first move of the schedule is taken; an empty schedule offers nothing (log 4). -/
def step (s : State) : Host.Outcome State Fault Refusal :=
  match takeMove s with
  | none => stuck .nothingOffered
  | some (m, t) => runMove m t

/-- The state whose next step runs the table word `w` (log 27). -/
def State.withFetchWord (s : State) (nbits w : Nat) : State := s.placeWord nbits w

end Sys2Proof.Machine
end

