-- ==== Sys2Proof/Safety.lean ====
section
/-! DEFINITION. The terms claims are made in: what an outcome holds, the bytes a ring has pending, the invariants of 10_state.md R24 and R30, series of
instructions and of bus events, and the end of a run (70_reset_and_hazards.md R203). -/

namespace Sys2Proof.Machine

open Config

/-! ## Outcomes -/

/-- The next state of an outcome, if it is one. -/
def nextOf (r : Result) : Option State :=
  match r with
  | .next s => some s
  | .fault _ => none
  | .refused _ => none

/-- The fault of an outcome, if it is one. -/
def faultOf (r : Result) : Option Fault :=
  match r with
  | .next _ => none
  | .fault f => some f
  | .refused _ => none

/-- The refusal of an outcome, if it is one. -/
def refusalIn (r : Result) : Option Refusal :=
  match r with
  | .next _ => none
  | .fault _ => none
  | .refused x => some x

/-! ## Invariants -/

/-- The bytes pending in a ring of `2 ^ log2` elements, oldest first (R25, R54). -/
def Ring.pending (log2 : Nat) (r : Ring) : List Byte :=
  (List.range r.count).map fun i => Memory.read r.mem ((r.tail + i) % 2 ^ log2)

/-- The ring invariant (R30), with the index width of R8 and the storage bound of R55. -/
structure Ring.Ok (log2 : Nat) (r : Ring) : Prop where
  count_le : r.count ≤ 2 ^ log2
  tail_lt : r.tail < 2 ^ log2
  head_eq : r.head = (r.tail + r.count) % 2 ^ log2
  mem_wf : Memory.wf r.mem = true
  mem_within : Memory.within (2 ^ log2) r.mem = true

/-- The pairs (`ST`, `BM`) of R24. -/
def legalPairs : List (BitVec 3 × BitVec 3) :=
  [ (stAwaitAddress, bmReleased), (stAwaitAddress, bmIn8), (stSendDataByte, bmOutAck)
    , (stAwaitAckAfterSend, bmOut8), (stCheckReceivedAck, bmIn1), (stReceiveDataByte, bmOutAck)
    , (stStoreByteAndAck, bmIn8) ]

/-- A device whose registers are those of a reachable state, as far as R24 and R30 say; its SPE has not faulted (R10, R108). -/
structure Device.Ok (d : Device) : Prop where
  pair : (d.st, d.bm) ∈ legalPairs
  rx : d.rx.Ok d.cfg.rxLog2.val
  tx : d.tx.Ok d.cfg.txLog2.val
  spe_fault : d.speFault = none

/-- The HCS's registers as R33, R34 and R36 describe them. -/
structure Hcs.Ok (c : HostConfig) (h : Hcs) : Prop where
  cmds_le : h.cmds.length ≤ c.maxCmdLen
  idx_le : h.idx ≤ h.cmds.length
  write_idx : h.phase = .write → h.idx < h.cmds.length
  read_idx : h.phase = .read → h.idx = h.cmds.length
  n_le : h.n ≤ c.maxReplyLen
  buf_len : h.n ≠ 0 → h.buf.length = h.n

/-- No address is held twice, and `HELD` lists exactly the live Connections (R150 to R152). -/
structure Client.Ok (c : Client) : Prop where
  nodup : c.held.Nodup
  held_eq : c.held = c.conns.map Connection.addr

/-- The machine's invariant. The last clause is R145's: the bus carries the host's transaction only while no other master's is open. -/
structure State.Ok (s : State) : Prop where
  devices : ∀ d ∈ s.devices, d.Ok
  hcs : s.hcs.Ok s.host
  client : s.client.Ok
  one_transaction : s.bus ≠ none → s.foreign = []

/-! ## Series -/

/-- Instructions one after another, stopping at the first that does not answer a next state. -/
def execAll : List Instr → State → Result
  | [], s => .next s
  | i :: l, s =>
    match exec i s with
    | .next t => execAll l t
    | .fault f => .fault f
    | .refused r => .refused r

/-- Bus events one after another, each taken as a request by the device in front (R84, R111). -/
def feed : List BusEvent → State → Result
  | [], s => .next s
  | e :: l, s =>
    match runRequest { word := e.word, payload := .none } s with
    | .next t => feed l t
    | .fault f => .fault f
    | .refused r => .refused r

/-- The data part of a write transaction: each byte, then the completion of its ACK with any payload (R111). -/
def writeData (l : List (Byte × Byte)) : List BusEvent :=
  l.flatMap fun p => [.ovf p.1, .ovf p.2]

/-- A whole write transaction to the address `a` (R111): the bytes of `l`, each beside the payload that ends its ACK; `x` ends the address ACK. -/
def writeTransaction (a : PeerAddr) (x : Byte) (l : List (Byte × Byte)) : List BusEvent :=
  .start :: .ovf (writeAddrByte a) :: .ovf x :: (writeData l ++ [.stop])

/-- The data part of a read of `l.length + 1` bytes (R111): each payload of `l` ends one byte that the master acknowledges, `y` the last, which it does not. -/
def readData (l : List Byte) (y : Byte) : List BusEvent :=
  (l.flatMap fun x => [.ovf x, .ovf (ackByte false)]) ++ [.ovf y, .ovf (ackByte true)]

/-- A whole read transaction of `l.length + 1` bytes from the address `a` (R111). -/
def readTransaction (a : PeerAddr) (x : Byte) (l : List Byte) (y : Byte) : List BusEvent :=
  .start :: .ovf (readAddrByte a) :: .ovf x :: (readData l y ++ [.stop])

/-- One micro-step of an HCS alone with the answer to the call it waits for (R133, R137 to R139); an answer of the other kind changes nothing. -/
def Hcs.answered (h : Hcs) (a : Answer) : Hcs :=
  match h.phase, a with
  | .write, .ack ok => h.writeStep ok
  | .read, .bytes seq => h.readStep seq
  | _, _ => h

/-- Steps one after another, stopping at the first that does not answer a next state. -/
def runFor : Nat → State → Result
  | 0, s => .next s
  | n + 1, s =>
    match step s with
    | .next t => runFor n t
    | .fault f => .fault f
    | .refused r => .refused r

/-! ## The end of a run -/

/-- No agent of the device has faulted (R170). -/
def Device.faultless (d : Device) : Bool := d.speFault.isNone && d.appFault.isNone

/-- A run of the composed model is over (R203): the HCS stands in `IDLE` or `DONE`, every SPE in (`AWAIT_ADDRESS`, `RELEASED`), no event is pending and
nothing more is offered. A run that has come to a fault or a refusal is not over but bad: a faulted state is never final (R170). -/
def State.runOver (s : State) : Bool :=
  s.hcs.ready && s.devices.all (fun d => decide (d.st = stAwaitAddress ∧ d.bm = bmReleased) && d.faultless)
    && s.bus.isNone && decide (s.client.job = .idle) && s.sched.isEmpty

end Sys2Proof.Machine
end

