-- ==== Sys2Proof/Certificates/Slice0/Obligations.lean ====
section
/-! DEFINITION. The statements for the provers, from the numbered rules of spec/. Registers and codes are written as the rules' numbers: `ST` 0 to 5 of R21,
`BM` 0 to 4 of R23. OPEN parameters (R7) are fields of the state, so a statement about every state holds for every value of them. -/

open Sys2Proof Sys2Proof.Machine Sys2Proof.Config

/-! ## Encoding -/

/-- R83 to R87: the key and payload of an operation decode to that operation, with every operand at every value, in every `ST` for those that ignore it. -/
def Obligations.DecodeOfEncode : Prop :=
  ∀ (st : BitVec 3) (i : Instr), decode (encodeKey st i) (encodePayload i) = .ok i

/-- 95_test_vectors.md 2.1: words written out there, and what they decode as or are refused for. -/
def Obligations.DecodesSampleWords : Prop :=
  decode 0b000_0001_00000000#15 .none = .ok .evStart ∧
  decode 0b000_0001_00000001#15 .none = .error .nonzeroData ∧
  decode 0b000_0010_00010101#15 .none = .ok (.evOvfAwaitAddress 0x15#8) ∧
  decode 0b011_0010_00000001#15 .none = .ok (.evOvfCheckReceivedAck 0x01#8) ∧
  decode 0b101_0010_01000001#15 .none = .ok (.evOvfStoreByteAndAck 0x41#8) ∧
  decode 0b111_0010_11111111#15 .none = .ok (.evOvfInvalidState 1#1 0xFF#8) ∧
  decode 0b000_0011_00000000#15 .none = .ok .evStop ∧
  decode 0b000_0100_00000000#15 .none = .ok .appAvailable ∧
  decode 0b000_0110_11111111#15 .none = .ok (.appQueue 0xFF#8) ∧
  decode 0b000_1000_00000001#15 .none = .error .nonzeroData ∧
  decode 0b000_1111_00010010#15 .none = .error .reservedOp

/-- R84, R85: `EV_OVF` is selected by all three bits of `ST`; every other operation ignores them. -/
def Obligations.DecodeSelectsByState : Prop :=
  (∀ d p, decode (mkKey 0#3 (mkWord 0x2#4 d)) p = .ok (.evOvfAwaitAddress d)) ∧
  (∀ d p, decode (mkKey 1#3 (mkWord 0x2#4 d)) p = .ok (.evOvfSendDataByte d)) ∧
  (∀ d p, decode (mkKey 2#3 (mkWord 0x2#4 d)) p = .ok (.evOvfAwaitAckAfterSend d)) ∧
  (∀ d p, decode (mkKey 3#3 (mkWord 0x2#4 d)) p = .ok (.evOvfCheckReceivedAck d)) ∧
  (∀ d p, decode (mkKey 4#3 (mkWord 0x2#4 d)) p = .ok (.evOvfReceiveDataByte d)) ∧
  (∀ d p, decode (mkKey 5#3 (mkWord 0x2#4 d)) p = .ok (.evOvfStoreByteAndAck d)) ∧
  (∀ d p, decode (mkKey 6#3 (mkWord 0x2#4 d)) p = .ok (.evOvfInvalidState 0#1 d)) ∧
  (∀ d p, decode (mkKey 7#3 (mkWord 0x2#4 d)) p = .ok (.evOvfInvalidState 1#1 d)) ∧
  ∀ (st st' : BitVec 3) (op : BitVec 4) (d : Byte) (p : Payload), op ≠ 0x2#4 →
    decode (mkKey st (mkWord op d)) p = decode (mkKey st' (mkWord op d)) p

/-- R84, opcode_table.json: a key that decodes belongs to its operation's row of the table and to no other. -/
def Obligations.DecodedKeyHasOneRow : Prop :=
  ∀ (k : Key) (p : Payload) (i : Instr), decode k p = .ok i →
    rowTakes (rowOf i) k = true ∧ ∀ r ∈ opcodeTable, rowTakes r k = true → r = rowOf i

/-- R84, opcode_table.json: a key that belongs to a row decodes to an operation of that row, with its descriptor beside it. -/
def Obligations.EveryTableKeyDecodes : Prop :=
  ∀ (k : Key), ∀ r ∈ opcodeTable, rowTakes r k = true → ∃ p i, decode k p = .ok i ∧ rowOf i = r

/-- R86: a reserved operation code, or nonzero `DATA` where it must be 0, is refused by name when it is offered. -/
def Obligations.RefusesReservedWords : Prop :=
  ∀ (s : State) (op : BitVec 4) (d : Byte) (p : Payload) (rest : List Move),
    s.sched = .request { word := mkWord op d, payload := p } :: rest →
    ((op = 0x0#4 ∨ 0xA#4 ≤ op) → step s = .refused .reservedOp) ∧
    (op ∈ [0x1#4, 0x3#4, 0x4#4, 0x5#4, 0x7#4, 0x8#4, 0x9#4] → d ≠ 0#8 → step s = .refused .nonzeroData)

/-! ## The step -/

/-- R58, R84: when the move is a request that decodes, the step is the operation in the state whose schedule is what follows; beside it the step keeps the
model's record of a transaction that is not the host's, open at a device from `EV_START` to `EV_STOP` (R145; log 19). The requests that do not run are
`Obligations.BarredRequestsDoNotRun`. -/
def Obligations.StepRunsDecodedInstruction : Prop :=
  ∀ (s : State) (r : Request) (rest : List Move) (i : Instr),
    s.sched = .request r :: rest → decodeRequest s.dev.st r = .ok i →
    ¬ (i.agent = .environment ∧ s.bus ≠ none) → ¬ (i.agent = .hostCaller ∧ s.client.job ≠ .idle) →
    ¬ (i.agent = .environment ∧ s.dev.speFault ≠ none) → ¬ (i.agent = .application ∧ s.dev.appFault ≠ none) →
    (∀ t, exec i (s.withSched rest) = .next t →
      step s = .next { t with foreign :=
        if i = .evStart then s.foreign.insert s.dev.cfg.slaveAddr
        else if i = .evStop then s.foreign.erase s.dev.cfg.slaveAddr else s.foreign }) ∧
    (∀ f, exec i (s.withSched rest) = .fault f → step s = .fault f) ∧
    (∀ r, exec i (s.withSched rest) = .refused r → step s = .refused r)

/-- R145, R182: a bus event from elsewhere during a transaction is refused as a second master's; a host operation during a client program has no move
(the model's choice, log 19). R170: an agent that has faulted takes no step: a bus event passes its SPE by, leaving every device as it was, and an operation of its
application has no move (how both show: logs 5, 36). -/
def Obligations.BarredRequestsDoNotRun : Prop :=
  ∀ (s : State) (r : Request) (rest : List Move) (i : Instr),
    s.sched = .request r :: rest → decodeRequest s.dev.st r = .ok i →
    (i.agent = .environment → s.bus ≠ none → step s = .refused .secondMaster) ∧
    (i.agent = .hostCaller → s.client.job ≠ .idle → step s = .fault (.noMove .clientBusy)) ∧
    (i.agent = .environment → s.bus = none → s.dev.speFault ≠ none → step s = .next { s with
      sched := rest
      foreign :=
        if i = .evStart then s.foreign.insert s.dev.cfg.slaveAddr
        else if i = .evStop then s.foreign.erase s.dev.cfg.slaveAddr else s.foreign }) ∧
    (i.agent = .application → s.dev.appFault ≠ none → step s = .fault (.noMove .agentFaulted))

/-! ## Bus events -/

/-- R100, with its encoding; `BM_BYTE` is left open, as R23 leaves it while `BM` is not `OUT8`. -/
def Obligations.EvStartResult : Prop :=
  encode .evStart = { word := 0x100#12, payload := .none } ∧ rowOf .evStart = ⟨0x0FFF#15, 0x0100#15⟩ ∧
  ∀ s : State, ∃ v, exec .evStart s = .next (s.withDev { s.dev with
    st := 0#3, bm := 1#3, bmByte := v
    ntf := if s.dev.st = 4#3 ∨ s.dev.st = 5#3 then s.dev.ntf ++ [.rcv] else s.dev.ntf })

/-- R107, with its encoding; `BM_BYTE` is left open, as R23 leaves it while `BM` is not `OUT8`. -/
def Obligations.EvStopResult : Prop :=
  encode .evStop = { word := 0x300#12, payload := .none } ∧ rowOf .evStop = ⟨0x0FFF#15, 0x0300#15⟩ ∧
  ∀ s : State, ∃ v, exec .evStop s = .next (s.withDev { s.dev with
    st := 0#3, bm := 0#3, bmByte := v
    ntf := if s.dev.st = 4#3 ∨ s.dev.st = 5#3 then s.dev.ntf ++ [.rcv] else s.dev.ntf })

/-- R101, R71: of the 256 address bytes exactly two select the SPE; no other is acknowledged. That `BM_BYTE` stays is log 32. -/
def Obligations.OvfAddressResult : Prop :=
  ∀ (s : State) (b : Byte),
    (s.dev.bm = 1#3 → exec (.evOvfAwaitAddress b) s = .next (s.withDev (
      if b = s.dev.cfg.slaveAddr ++ 1#1 then
        { s.dev with st := 1#3, bm := 3#3, ntf := s.dev.ntf ++ [.req] }
      else if b = s.dev.cfg.slaveAddr ++ 0#1 then { s.dev with st := 4#3, bm := 3#3 }
      else { s.dev with st := 0#3, bm := 0#3 }))) ∧
    (s.dev.bm ≠ 1#3 → exec (.evOvfAwaitAddress b) s = .fault (.noMove .overflowNotArmed))

/-- What R109 makes of a device, in the rule's own terms: the oldest transmit byte, or the filler when there is none, is armed. -/
def Sys2Proof.Machine.Device.afterSendNext (d : Device) : Device :=
  if 0 < d.tx.count then
    { d with
      st := 2#3, bm := 4#3, bmByte := Memory.read d.tx.mem d.tx.tail
      tx := { d.tx with tail := (d.tx.tail + 1) % 2 ^ d.cfg.txLog2.val, count := d.tx.count - 1 } }
  else { d with st := 2#3, bm := 4#3, bmByte := d.cfg.filler }

/-- R102, R109: the operand is ignored. -/
def Obligations.OvfSendDataResult : Prop :=
  ∀ (s : State) (b : Byte),
    (s.dev.bm = 3#3 → exec (.evOvfSendDataByte b) s = .next (s.withDev s.dev.afterSendNext)) ∧
    (s.dev.bm ≠ 3#3 → exec (.evOvfSendDataByte b) s = .fault (.noMove .overflowNotArmed))

/-- R103, with its encoding; the operand is ignored. That `BM_BYTE` stays is log 32. -/
def Obligations.OvfByteSentResult : Prop :=
  ∀ (s : State) (b : Byte),
    encodeWord (.evOvfAwaitAckAfterSend b) = 0x200#12 ||| b.setWidth 12 ∧
    rowOf (.evOvfAwaitAckAfterSend b) = ⟨0x7F00#15, 0x2200#15⟩ ∧
    (s.dev.bm = 4#3 →
      exec (.evOvfAwaitAckAfterSend b) s = .next (s.withDev { s.dev with st := 3#3, bm := 2#3 })) ∧
    (s.dev.bm ≠ 4#3 → exec (.evOvfAwaitAckAfterSend b) s = .fault (.noMove .overflowNotArmed))

/-- R104, R109: `d[0] = 1` ends the read, `d[0] = 0` sends the next byte; `d[7:1]` does not matter. That `BM_BYTE` stays at the end of
the read is log 32. -/
def Obligations.OvfAckBitResult : Prop :=
  ∀ (s : State) (b : Byte),
    (s.dev.bm = 2#3 → b.getLsbD 0 = true →
      exec (.evOvfCheckReceivedAck b) s = .next (s.withDev { s.dev with st := 0#3, bm := 0#3 })) ∧
    (s.dev.bm = 2#3 → b.getLsbD 0 = false →
      exec (.evOvfCheckReceivedAck b) s = .next (s.withDev s.dev.afterSendNext)) ∧
    (s.dev.bm ≠ 2#3 → exec (.evOvfCheckReceivedAck b) s = .fault (.noMove .overflowNotArmed))

/-- R105, with its encoding; the operand is ignored. That `BM_BYTE` stays is log 32. -/
def Obligations.OvfAckSentResult : Prop :=
  ∀ (s : State) (b : Byte),
    encodeWord (.evOvfReceiveDataByte b) = 0x200#12 ||| b.setWidth 12 ∧
    rowOf (.evOvfReceiveDataByte b) = ⟨0x7F00#15, 0x4200#15⟩ ∧
    (s.dev.bm = 3#3 →
      exec (.evOvfReceiveDataByte b) s = .next (s.withDev { s.dev with st := 5#3, bm := 1#3 })) ∧
    (s.dev.bm ≠ 3#3 → exec (.evOvfReceiveDataByte b) s = .fault (.noMove .overflowNotArmed))

/-- R106, R174: the byte is pushed where there is room and dropped with `RX_OVF` set where there is none; it is acknowledged in both
cases. That `BM_BYTE` stays is log 32. -/
def Obligations.OvfByteReceivedResult : Prop :=
  ∀ (s : State) (b : Byte),
    (s.dev.bm = 1#3 → s.dev.rx.count < 2 ^ s.dev.cfg.rxLog2.val →
      exec (.evOvfStoreByteAndAck b) s = .next (s.withDev { s.dev with
        st := 4#3, bm := 3#3
        rx := {
          mem := Memory.write s.dev.rx.mem s.dev.rx.head b
          head := (s.dev.rx.head + 1) % 2 ^ s.dev.cfg.rxLog2.val
          tail := s.dev.rx.tail, count := s.dev.rx.count + 1 } })) ∧
    (s.dev.bm = 1#3 → 2 ^ s.dev.cfg.rxLog2.val ≤ s.dev.rx.count →
      exec (.evOvfStoreByteAndAck b) s = .next (s.withDev { s.dev with st := 4#3, bm := 3#3, rxOvf := true })) ∧
    (s.dev.bm ≠ 1#3 → exec (.evOvfStoreByteAndAck b) s = .fault (.noMove .overflowNotArmed))

/-- R108, R170: with `ST` 6 or 7 the overflow raises `F_STATE_INVALID`: the SPE keeps the dispatch key as its record, and nothing else is written, whatever `BM` is
(log 18). -/
def Obligations.OvfInvalidStateFaults : Prop :=
  ∀ (s : State) (low : BitVec 1) (b : Byte),
    exec (.evOvfInvalidState low b) s = .next (s.withDev { s.dev with
      speFault := some (.stateInvalid (mkKey (3#2 ++ low) (mkWord 0x2#4 b))) }) ∧
    FaultRecord.code (.stateInvalid (mkKey (3#2 ++ low) (mkWord 0x2#4 b))) = 3

/-- R178, 93 U9: an overflow offered to a released SPE in a defined state, its run not ended by a fault, has no move. -/
def Obligations.ReleasedOverflowHasNoMove : Prop :=
  ∀ (s : State) (b : Byte) (p : Payload), s.dev.bm = 0#3 → s.dev.st ≤ 5#3 → s.dev.speFault = none →
    runRequest { word := mkWord 0x2#4 b, payload := p } s = .fault (.noMove .overflowNotArmed)

/-- R110, R24, R10: from every pair of R24, every event its enabling allows has exactly one outcome in an SPE that has not faulted: a next state whose pair is again
one of R24, and no fault. -/
def Obligations.EventsStayInDefinedStates : Prop :=
  ∀ (s : State) (e : BusEvent), (s.dev.st, s.dev.bm) ∈ legalPairs → (e.isOvf = true → s.dev.bm ≠ 0#3) → s.dev.speFault = none →
    ∃ t, runRequest { word := e.word, payload := .none } s = .next t ∧ (t.dev.st, t.dev.bm) ∈ legalPairs ∧
      t.dev.speFault = none

/-- The frame of the bus events (R31, R100 to R109): what they leave alone, for each of them that answers a next state. A byte received with `RX` full leaves all
of `RX` alone (R106); an event that faults writes its record alone (R108, R170). That `BM_BYTE` stays in the rules that do not send is the model's choice (log 32): R23 leaves it unspecified. -/
def Obligations.BusEventFrame : Prop :=
  ∀ (i : Instr) (s t : State), i.agent = .environment → exec i s = .next t →
    t.peers = s.peers ∧ t.host = s.host ∧ t.hcs = s.hcs ∧ t.bus = s.bus ∧ t.foreign = s.foreign ∧ t.client = s.client ∧
    t.fresh = s.fresh ∧ t.sched = s.sched ∧ t.dev.cfg = s.dev.cfg ∧ t.dev.appRet = s.dev.appRet ∧
    t.dev.appFault = s.dev.appFault ∧
    ((∀ low d, i ≠ .evOvfInvalidState low d) → t.dev.speFault = s.dev.speFault) ∧
    ((∃ low d, i = .evOvfInvalidState low d) → t.dev = { s.dev with speFault := t.dev.speFault }) ∧
    t.dev.rx.tail = s.dev.rx.tail ∧ t.dev.tx.head = s.dev.tx.head ∧
    (∀ a, Memory.read t.dev.tx.mem a = Memory.read s.dev.tx.mem a) ∧
    (∀ a, ((∃ d, i = .evOvfStoreByteAndAck d) → s.dev.rx.count < 2 ^ s.dev.cfg.rxLog2.val → a ≠ s.dev.rx.head) →
      Memory.read t.dev.rx.mem a = Memory.read s.dev.rx.mem a) ∧
    (2 ^ s.dev.cfg.rxLog2.val ≤ s.dev.rx.count → t.dev.rx = s.dev.rx) ∧
    ((∀ d, i ≠ .evOvfStoreByteAndAck d) → t.dev.rx = s.dev.rx ∧ t.dev.rxOvf = s.dev.rxOvf) ∧
    ((∀ d, i ≠ .evOvfSendDataByte d) → (∀ d, i ≠ .evOvfCheckReceivedAck d) →
      t.dev.tx = s.dev.tx ∧ t.dev.bmByte = s.dev.bmByte) ∧
    (i ≠ .evStart → i ≠ .evStop → (∀ d, i ≠ .evOvfAwaitAddress d) → t.dev.ntf = s.dev.ntf)

/-! ## Application operations -/

/-- R120, R123: the occupancy counts are returned, and nothing else changes. -/
def Obligations.AppCountsResult : Prop :=
  ∀ s : State,
    exec .appAvailable s = .next (s.withDev { s.dev with appRet := .count s.dev.rx.count }) ∧
    exec .appTxCount s = .next (s.withDev { s.dev with appRet := .count s.dev.tx.count })

/-- R121, R52, R170: a read of a ring that is not empty pops its oldest byte; of an empty one it faults: the application keeps the record `W`, nothing else is
written, and the fault is R170's code 1. -/
def Obligations.AppReadResult : Prop :=
  ∀ s : State,
    (s.dev.rx.count ≠ 0 → exec .appRead s = .next (s.withDev { s.dev with
      appRet := .byte (Memory.read s.dev.rx.mem s.dev.rx.tail)
      rx := { s.dev.rx with
        tail := (s.dev.rx.tail + 1) % 2 ^ s.dev.cfg.rxLog2.val, count := s.dev.rx.count - 1 } })) ∧
    (s.dev.rx.count = 0 →
      exec .appRead s = .next (s.withDev { s.dev with appFault := some (.readEmpty 0x500#12) })) ∧
    FaultRecord.code (.readEmpty 0x500#12) = 1

/-- R122, R51, R170: a byte is queued unless the ring is full; then the operation faults: the application keeps the record `W`, nothing else is written, and the
fault is R170's code 2. -/
def Obligations.AppQueueResult : Prop :=
  ∀ (s : State) (b : Byte),
    (s.dev.tx.count ≠ 2 ^ s.dev.cfg.txLog2.val → exec (.appQueue b) s = .next (s.withDev { s.dev with
      appRet := .nothing
      tx := {
        mem := Memory.write s.dev.tx.mem s.dev.tx.head b
        head := (s.dev.tx.head + 1) % 2 ^ s.dev.cfg.txLog2.val
        tail := s.dev.tx.tail, count := s.dev.tx.count + 1 } })) ∧
    (s.dev.tx.count = 2 ^ s.dev.cfg.txLog2.val →
      exec (.appQueue b) s = .next (s.withDev { s.dev with appFault := some (.queueFull (mkWord 0x6#4 b)) })) ∧
    FaultRecord.code (.queueFull (mkWord 0x6#4 b)) = 2

/-- The frame of the application operations (R31, R22): no operation of the main context touches `ST`, `BM`, `BM_BYTE`, `RX_OVF`, `NTF` or the host; one that faults
leaves both rings and the value last given alone (R170), and no other writes a fault record. -/
def Obligations.AppOperationFrame : Prop :=
  ∀ (i : Instr) (s t : State), i.agent = .application → exec i s = .next t →
    t.peers = s.peers ∧ t.host = s.host ∧ t.hcs = s.hcs ∧ t.bus = s.bus ∧ t.foreign = s.foreign ∧ t.client = s.client ∧
    t.fresh = s.fresh ∧ t.sched = s.sched ∧ t.dev.cfg = s.dev.cfg ∧ t.dev.st = s.dev.st ∧
    t.dev.bm = s.dev.bm ∧ t.dev.bmByte = s.dev.bmByte ∧ t.dev.rxOvf = s.dev.rxOvf ∧
    t.dev.ntf = s.dev.ntf ∧ t.dev.rx.head = s.dev.rx.head ∧ t.dev.tx.tail = s.dev.tx.tail ∧
    (∀ a, Memory.read t.dev.rx.mem a = Memory.read s.dev.rx.mem a) ∧
    (∀ a, ((∃ b, i = .appQueue b) → a ≠ s.dev.tx.head) →
      Memory.read t.dev.tx.mem a = Memory.read s.dev.tx.mem a) ∧
    (i ≠ .appRead → t.dev.rx = s.dev.rx) ∧ ((∀ b, i ≠ .appQueue b) → t.dev.tx = s.dev.tx) ∧
    t.dev.speFault = s.dev.speFault ∧
    ((i = .appRead → s.dev.rx.count ≠ 0) → ((∃ b, i = .appQueue b) → s.dev.tx.count ≠ 2 ^ s.dev.cfg.txLog2.val) →
      t.dev.appFault = s.dev.appFault) ∧
    ((i = .appRead ∧ s.dev.rx.count = 0 ∨ (∃ b, i = .appQueue b) ∧ s.dev.tx.count = 2 ^ s.dev.cfg.txLog2.val) →
      t.dev.rx = s.dev.rx ∧ t.dev.tx = s.dev.tx ∧ t.dev.appRet = s.dev.appRet)

/-- R65: the SPE only adds to `RX` and only removes from `TX`; the application only removes from `RX` and only adds to `TX`. -/
def Obligations.RingOwnership : Prop :=
  ∀ (i : Instr) (s t : State), exec i s = .next t →
    (i.agent = .environment → s.dev.rx.count ≤ t.dev.rx.count ∧ t.dev.tx.count ≤ s.dev.tx.count) ∧
    (i.agent = .application → t.dev.rx.count ≤ s.dev.rx.count ∧ s.dev.tx.count ≤ t.dev.tx.count)

/-- R124: after a query that answered a count other than 0, any bus events leave a read that takes a byte and does not fault; the same for room to queue. -/
def Obligations.CheckedUseDoesNotFault : Prop :=
  ∀ (l : List Instr) (s t u : State), (∀ i ∈ l, i.agent = .environment) →
    (∀ n, exec .appAvailable s = .next t → t.dev.appRet = .count n → n ≠ 0 → execAll l t = .next u →
      ∃ v, exec .appRead u = .next v ∧ v.dev.appFault = u.dev.appFault ∧ v.dev.rx.count + 1 = u.dev.rx.count) ∧
    (∀ n b, exec .appTxCount s = .next t → t.dev.appRet = .count n → n < 2 ^ s.dev.cfg.txLog2.val →
      execAll l t = .next u → ∃ v, exec (.appQueue b) u = .next v ∧
        v.dev.appFault = u.dev.appFault ∧ v.dev.tx.count = u.dev.tx.count + 1)

/-! ## Rings -/

/-- R51: what `RingPush` writes, in canonical storage with room, and that nothing else is written. -/
def Obligations.RingPushEffect : Prop :=
  ∀ (log2 : Nat) (b : Byte) (r : Ring), Memory.wf r.mem = true → r.count < 2 ^ log2 →
    Memory.read (r.push log2 b).mem r.head = b ∧
    (∀ a, a ≠ r.head → Memory.read (r.push log2 b).mem a = Memory.read r.mem a) ∧
    (r.push log2 b).head = (r.head + 1) &&& (2 ^ log2 - 1) ∧ (r.push log2 b).tail = r.tail ∧
    (r.push log2 b).count = r.count + 1 ∧ (log2 = 0 → (r.push log2 b).head = 0) ∧
    Memory.wf (r.push log2 b).mem = true

/-- R30: the ring invariant holds of an empty ring, and pushing with room and popping a byte keep it. -/
def Obligations.RingInvariantKept : Prop :=
  ∀ (log2 : Nat), Ring.empty.Ok log2 ∧
    ∀ (r : Ring), r.Ok log2 →
      (∀ b, r.count < 2 ^ log2 → (r.push log2 b).Ok log2) ∧ (0 < r.count → (r.drop log2).Ok log2)

/-- R54: first in, first out. A push with room appends its byte to the pending bytes; a pop returns the oldest and leaves the others. -/
def Obligations.RingIsFifo : Prop :=
  ∀ (log2 : Nat) (r : Ring), r.Ok log2 →
    (∀ b, r.count < 2 ^ log2 → (r.push log2 b).pending log2 = r.pending log2 ++ [b]) ∧
    (0 < r.count → r.pending log2 = r.front :: (r.drop log2).pending log2)

/-- R28: `RX_OVF` is set only by the drop of a byte in a full ring, no operation clears it, and reset does. -/
def Obligations.OverflowFlagIsSticky : Prop :=
  (∀ (i : Instr) (s t : State), exec i s = .next t →
    (s.dev.rxOvf = true → t.dev.rxOvf = true) ∧
    (s.dev.rxOvf = false → t.dev.rxOvf = true →
      (∃ b, i = .evOvfStoreByteAndAck b) ∧ 2 ^ s.dev.cfg.rxLog2.val ≤ s.dev.rx.count)) ∧
  ∀ d : Device, d.resetSpe.rxOvf = false

/-! ## Whole transactions -/

/-- R111, write: an SPE in `AWAIT_ADDRESS` that takes a whole write transaction to its address stores the bytes as far as there is room, sets the flag when one
was dropped, notifies `RCV` once, and is released; `TX` is untouched. -/
def Obligations.WriteTransactionEffect : Prop :=
  ∀ (s : State) (x : Byte) (l : List (Byte × Byte)), s.dev.Ok → s.dev.st = 0#3 →
    ∃ t, feed (writeTransaction s.dev.cfg.slaveAddr x l) s = .next t ∧
      t.dev.st = 0#3 ∧ t.dev.bm = 0#3 ∧
      t.dev.rx.pending s.dev.cfg.rxLog2.val = s.dev.rx.pending s.dev.cfg.rxLog2.val ++
        (l.map Prod.fst).take (2 ^ s.dev.cfg.rxLog2.val - s.dev.rx.count) ∧
      t.dev.rxOvf = (s.dev.rxOvf || decide (2 ^ s.dev.cfg.rxLog2.val - s.dev.rx.count < l.length)) ∧
      t.dev.ntf = s.dev.ntf ++ [.rcv] ∧ t.dev.tx = s.dev.tx ∧ t.hcs = s.hcs ∧ t.peers = s.peers

/-- R111, read: an SPE in `AWAIT_ADDRESS` that takes a whole read transaction of `l.length + 1` bytes from its address pops as many of its transmit bytes as it
has, notifies `REQ` once, and is released; `RX` is untouched. -/
def Obligations.ReadTransactionEffect : Prop :=
  ∀ (s : State) (x y : Byte) (l : List Byte), s.dev.Ok → s.dev.st = 0#3 →
    ∃ t, feed (readTransaction s.dev.cfg.slaveAddr x l y) s = .next t ∧
      t.dev.st = 0#3 ∧ t.dev.bm = 0#3 ∧
      t.dev.tx.count = s.dev.tx.count - (l.length + 1) ∧
      t.dev.tx.pending s.dev.cfg.txLog2.val = (s.dev.tx.pending s.dev.cfg.txLog2.val).drop (l.length + 1) ∧
      t.dev.ntf = s.dev.ntf ++ [.req] ∧ t.dev.rx = s.dev.rx ∧ t.dev.rxOvf = s.dev.rxOvf

/-- R111, another address: an SPE that has not faulted takes the start, the address byte and the stop, and nothing but `ST` and `BM` may have changed. That
`BM_BYTE` stays is log 32. -/
def Obligations.OtherAddressTransactionEffect : Prop :=
  ∀ (s : State) (b : Byte), s.dev.st = 0#3 → s.dev.speFault = none →
    b ≠ s.dev.cfg.slaveAddr ++ 0#1 → b ≠ s.dev.cfg.slaveAddr ++ 1#1 →
    feed [.start, .ovf b, .stop] s = .next (s.withDev { s.dev with st := 0#3, bm := 0#3 })

/-! ## Host sequencer -/

/-- R135: in `IDLE` or `DONE` a descriptor within R134's bounds starts an operation in the 1-byte mode; `HS_BUF`, `HS_K` and `HS_RESULT` are not written. -/
def Obligations.HostCmd1Result : Prop :=
  ∀ (s : State) (d : Descriptor), (s.hcs.phase = .idle ∨ s.hcs.phase = .done) →
    1 ≤ d.cmds.length → d.cmds.length ≤ s.host.maxCmdLen → d.addr.toNat ≤ 127 →
    exec (.hostCmd1 d) s = .next { s with hcs := { s.hcs with
      addr := BitVec.ofNat 7 d.addr.toNat, cmds := d.cmds, idx := 0, echo := d.echo, n := 0
      phase := .write } }

/-- R136: in `IDLE` or `DONE` a descriptor within R134's bounds, with a buffer of `n` bytes, starts an operation in the multi-byte mode. -/
def Obligations.HostCmdNResult : Prop :=
  ∀ (s : State) (d : Descriptor) (r : ReplyRequest), (s.hcs.phase = .idle ∨ s.hcs.phase = .done) →
    1 ≤ d.cmds.length → d.cmds.length ≤ s.host.maxCmdLen → d.addr.toNat ≤ 127 →
    1 ≤ r.n → r.n ≤ s.host.maxReplyLen → r.buf.length = r.n →
    exec (.hostCmdN d r) s = .next { s with hcs := { s.hcs with
      addr := BitVec.ofNat 7 d.addr.toNat, cmds := d.cmds, idx := 0, echo := d.echo, n := r.n
      buf := r.buf, phase := .write } }

/-- R134: while an operation is in progress an issue has no move; otherwise a descriptor out of bounds is refused. -/
def Obligations.HostIssueRefusals : Prop :=
  ∀ (s : State) (d : Descriptor) (r : ReplyRequest),
    ((s.hcs.phase = .write ∨ s.hcs.phase = .read) →
      exec (.hostCmd1 d) s = .fault (.noMove .hostBusy) ∧ exec (.hostCmdN d r) s = .fault (.noMove .hostBusy)) ∧
    ((s.hcs.phase = .idle ∨ s.hcs.phase = .done) →
      (d.cmds.length = 0 ∨ s.host.maxCmdLen < d.cmds.length ∨ 127 < d.addr.toNat) →
      exec (.hostCmd1 d) s = .refused .badDescriptor ∧ exec (.hostCmdN d r) s = .refused .badDescriptor) ∧
    ((s.hcs.phase = .idle ∨ s.hcs.phase = .done) → (r.n = 0 ∨ s.host.maxReplyLen < r.n) →
      exec (.hostCmdN d r) s = .refused .badDescriptor)

/-- The frame of an issue (R135, R136): only the HCS's registers change, and of these neither `HS_K` nor `HS_RESULT`. -/
def Obligations.HostOperationFrame : Prop :=
  ∀ (i : Instr) (s t : State), i.agent = .hostCaller → exec i s = .next t →
    t.dev = s.dev ∧ t.peers = s.peers ∧ t.host = s.host ∧ t.bus = s.bus ∧ t.foreign = s.foreign ∧ t.client = s.client ∧
    t.fresh = s.fresh ∧ t.sched = s.sched ∧ t.hcs.k = s.hcs.k ∧ t.hcs.result = s.hcs.result ∧
    ((∃ d, i = .hostCmd1 d) → t.hcs.buf = s.hcs.buf)

/-- R137, R131: the write micro-step of an HCS alone, for either answer the transport draws. -/
def Obligations.WriteMicroStepResult : Prop :=
  ∀ (s : State) (rest : List Move), s.hcs.phase = .write → s.hcs.idx < s.hcs.cmds.length → s.bus = none →
    (s.sched = .transport (.ack false) :: rest →
      step s = .next { s with sched := rest, hcs := { s.hcs with result := .errTransaction, phase := .done } }) ∧
    (s.sched = .transport (.ack true) :: rest → s.hcs.idx + 1 < s.hcs.cmds.length →
      step s = .next { s with sched := rest, hcs := { s.hcs with idx := s.hcs.idx + 1 } }) ∧
    (s.sched = .transport (.ack true) :: rest → s.hcs.idx + 1 = s.hcs.cmds.length →
      step s = .next { s with sched := rest, hcs := { s.hcs with idx := s.hcs.idx + 1, phase := .read } })

/-- R138, R132: the read micro-step of the 1-byte mode, for every reply of at most one byte. -/
def Obligations.ReadSingleResult : Prop :=
  ∀ (s : State) (rest : List Move) (seq : List Byte),
    s.hcs.phase = .read → s.hcs.n = 0 → s.bus = none → seq.length ≤ 1 →
    s.sched = .transport (.bytes seq) :: rest →
    step s = .next { s with sched := rest, hcs := { s.hcs with
      k := seq.length, phase := .done
      result := if seq = [s.hcs.echo] then .ok else .errSingleMismatch } }

/-- R139, R132: the read micro-step of the multi-byte mode, for every reply of at most `HS_N` bytes: the bytes that came are in the buffer, the rest of it is
unchanged, and the length is checked before the content. -/
def Obligations.ReadMultiResult : Prop :=
  ∀ (s : State) (rest : List Move) (seq : List Byte),
    s.hcs.phase = .read → 1 ≤ s.hcs.n → s.bus = none → seq.length ≤ s.hcs.n → s.hcs.buf.length = s.hcs.n →
    s.sched = .transport (.bytes seq) :: rest →
    ∃ t, step s = .next t ∧ t.hcs.phase = .done ∧ t.hcs.k = seq.length ∧
      (∀ i, i < seq.length → t.hcs.buf[i]? = seq[i]?) ∧
      (∀ i, seq.length ≤ i → t.hcs.buf[i]? = s.hcs.buf[i]?) ∧
      (seq.length ≠ s.hcs.n → t.hcs.result = .errMultiLength) ∧
      (seq.length = s.hcs.n → seq.head? ≠ some s.hcs.echo → t.hcs.result = .errMultiContent) ∧
      (seq.length = s.hcs.n → seq.head? = some s.hcs.echo → t.hcs.result = .ok)

/-- R35, R140: over every step but a host reset, `HS_RESULT` is written only where `HS_PHASE` becomes `DONE`, and `DONE` is left only by an issue: the move is
a request that decodes to a host operation, or the step of a client program at a stage that issues one. -/
def Obligations.ResultOnlyAtDone : Prop :=
  ∀ (s t : State), step s = .next t → s.sched.head? ≠ some .resetHost →
    (t.hcs.result ≠ s.hcs.result → s.hcs.phase ≠ .done ∧ t.hcs.phase = .done) ∧
    (s.hcs.phase = .done → t.hcs.phase ≠ .done →
      t.hcs.phase = .write ∧ t.hcs.idx = 0 ∧ t.hcs.result = s.hcs.result ∧
      ((∃ r i, s.sched.head? = some (.request r) ∧ decodeRequest s.dev.st r = .ok i ∧
          ((∃ d, i = .hostCmd1 d) ∨ ∃ d q, i = .hostCmdN d q)) ∨
        (s.sched.head? = some .clientStep ∧
          ((∃ a image two st, s.client.job = .upload a image two st ∧
              (st = .init false ∨ st = .secondInit false ∨ st = .status false ∨ ∃ i, st = .page i false)) ∨
            (∃ a, s.client.job = .query a false) ∨ ∃ a es, s.client.job = .scan a (.query false) es))))

/-- R141: two issues of one descriptor against the same answers make the same calls and come to the same result, whatever the HCS held before. -/
def Obligations.OperationForgetsPast : Prop :=
  ∀ (s s' t t' : State) (d : Descriptor) (r : ReplyRequest) (l : List Answer),
    ((exec (.hostCmd1 d) s = .next t ∧ exec (.hostCmd1 d) s' = .next t') ∨
      (exec (.hostCmdN d r) s = .next t ∧ exec (.hostCmdN d r) s' = .next t')) →
    (l.foldl Hcs.answered t.hcs).pendingCall = (l.foldl Hcs.answered t'.hcs).pendingCall ∧
    (l.foldl Hcs.answered t.hcs).phase = (l.foldl Hcs.answered t'.hcs).phase ∧
    ((l.foldl Hcs.answered t.hcs).phase = .done →
      (l.foldl Hcs.answered t.hcs).result = (l.foldl Hcs.answered t'.hcs).result) ∧
    (t.hcs.n ≠ 0 → (l.foldl Hcs.answered t.hcs).buf = (l.foldl Hcs.answered t'.hcs).buf)

/-- R89: the five result codes. -/
def Obligations.ResultCodesDistinct : Prop :=
  HsResult.ok.code = 0 ∧ HsResult.errSingleMismatch.code = 1 ∧ HsResult.errMultiLength.code = 2 ∧
  HsResult.errMultiContent.code = 3 ∧ HsResult.errTransaction.code = 4

/-! ## Bus binding -/

/-- R142, R58, R184: on a bus of any devices with distinct addresses, each in `AWAIT_ADDRESS` with its SPE running, a write transaction to one of them, from its taking up to its end,
acknowledges the byte, which that device stores as R106 says, notifying `RCV`; every other device is only released. To an address that no device has it is not
acknowledged, and every device is only released. `HS` registers are written at the end. That `BM_BYTE` stays is log 32. -/
def Obligations.ComposedWrite : Prop :=
  ∀ (s : State) (rest : List Move) (b : Byte),
    s.bus = none → s.foreign = [] → (s.devices.map fun d => d.cfg.slaveAddr).Nodup → (∀ d ∈ s.devices, d.st = 0#3) →
    (∀ d ∈ s.devices, d.speFault = none) →
    s.hcs.phase = .write → s.hcs.cmds[s.hcs.idx]? = some b →
    (s.hcs.addr ∈ s.devices.map (fun d => d.cfg.slaveAddr) →
      s.sched = List.replicate (3 * s.devices.length + 5) .bus ++ rest →
      ∃ t, runFor (3 * s.devices.length + 5) s = .next t ∧ t.sched = rest ∧ t.bus = none ∧ t.client = s.client ∧
        t.hcs = s.hcs.writeStep true ∧
        t.devices = s.devices.map fun d =>
          if d.cfg.slaveAddr ≠ s.hcs.addr then { d with st := 0#3, bm := 0#3 }
          else if d.rx.count < 2 ^ d.cfg.rxLog2.val then
            { d with st := 0#3, bm := 0#3, ntf := d.ntf ++ [.rcv], rx := d.rx.push d.cfg.rxLog2.val b }
          else { d with st := 0#3, bm := 0#3, ntf := d.ntf ++ [.rcv], rxOvf := true }) ∧
    (s.hcs.addr ∉ s.devices.map (fun d => d.cfg.slaveAddr) →
      s.sched = List.replicate (3 * s.devices.length + 2) .bus ++ rest →
      ∃ t, runFor (3 * s.devices.length + 2) s = .next t ∧ t.sched = rest ∧ t.bus = none ∧ t.client = s.client ∧
        t.hcs = s.hcs.writeStep false ∧ t.devices = s.devices.map fun d => { d with st := 0#3, bm := 0#3 })

/-- R143, R58, R184: on a bus of any devices with distinct addresses, each in `AWAIT_ADDRESS` with its SPE running, a read transaction of the `m` bytes the host asks for, from its
taking up to its end, gives the host the addressed device's transmit bytes, oldest first, and its filler after the last of them; that device notifies `REQ`,
every other is only released. From an address that no device has nothing is read. That `BM_BYTE` stays is log 32. -/
def Obligations.ComposedRead : Prop :=
  ∀ (s : State) (rest : List Move) (m : Nat),
    s.bus = none → s.foreign = [] → (s.devices.map fun d => d.cfg.slaveAddr).Nodup → (∀ d ∈ s.devices, d.st = 0#3) →
    (∀ d ∈ s.devices, d.speFault = none) →
    s.hcs.phase = .read → m = (if s.hcs.n = 0 then 1 else s.hcs.n) →
    (∀ d ∈ s.devices, d.cfg.slaveAddr = s.hcs.addr → d.Ok →
      s.sched = List.replicate (3 * s.devices.length + 2 * m + 3) .bus ++ rest →
      ∃ t e, runFor (3 * s.devices.length + 2 * m + 3) s = .next t ∧ t.sched = rest ∧ t.bus = none ∧ t.client = s.client ∧
        t.hcs = s.hcs.readStep ((d.tx.pending d.cfg.txLog2.val ++ List.replicate m d.cfg.filler).take m) ∧
        t.devices = (s.devices.map fun c => if c.cfg.slaveAddr = s.hcs.addr then e else { c with st := 0#3, bm := 0#3 }) ∧
        e.cfg = d.cfg ∧ e.st = 0#3 ∧ e.bm = 0#3 ∧ e.ntf = d.ntf ++ [.req] ∧ e.rx = d.rx ∧ e.rxOvf = d.rxOvf ∧
        e.tx.pending d.cfg.txLog2.val = (d.tx.pending d.cfg.txLog2.val).drop m) ∧
    (s.hcs.addr ∉ s.devices.map (fun d => d.cfg.slaveAddr) →
      s.sched = List.replicate (3 * s.devices.length + 2) .bus ++ rest →
      ∃ t, runFor (3 * s.devices.length + 2) s = .next t ∧ t.sched = rest ∧ t.bus = none ∧ t.client = s.client ∧
        t.hcs = s.hcs.readStep [] ∧ t.devices = s.devices.map fun d => { d with st := 0#3, bm := 0#3 })

/-- A call's address byte, and what its device alone receives after it, in the rules' own terms (R142, R143, R144); `true` marks the events at which the master
reads the byte shifted out. -/
def Sys2Proof.Machine.TransportCall.binding : TransportCall → Byte × List (BusEvent × Bool)
  | .writeByte a b => (a ++ 0#1, [(.ovf 0#8, false), (.ovf b, false), (.ovf 0#8, false)])
  | .requestBytes a n =>
    (a ++ 1#1, (.ovf 0#8, false) ::
      (List.range n).flatMap fun i => [(.ovf 0#8, true), (.ovf (if i + 1 = n then 1#8 else 0#8), false)])
  | .probe a => (a ++ 0#1, [(.ovf 0#8, false)])

/-- R142 to R145: the bus takes up a call only when no two devices have one address and no other master's transaction is open; the events are those of the binding
in its order, with nothing read yet. When they are over, a written byte or a probe is answered `ACK`, and a read gives every byte read, exactly when a device has
the address; where its device was reset before it had acknowledged, either answer (log 15). R190, R170: a delivery of an overflow to a device that a reset has released, and one of any event to a device whose SPE has
faulted, leaves every device as it was, and the transaction goes on; what the master reads there is free (logs 15, 36). R108, R170: a delivery that faults its SPE (`ST`
6 or 7) leaves that device its record, every other device as it was, and the transaction going on in the same way. -/
def Obligations.TransactionEventOrder : Prop :=
  ∀ (s : State) (rest : List Move) (c : TransportCall), s.sched = .bus :: rest →
    (s.pendingCall = some c → s.bus = none →
      (¬ (s.devices.map fun d => d.cfg.slaveAddr).Nodup → step s = .refused .duplicateAddress) ∧
      ((s.devices.map fun d => d.cfg.slaveAddr).Nodup → s.foreign ≠ [] → step s = .refused .secondMaster) ∧
      ((s.devices.map fun d => d.cfg.slaveAddr).Nodup → s.foreign = [] →
        ∃ todo, step s = .next { s with sched := rest, bus := some {
            call := c, todo := todo, acked := decide (c.addr ∈ s.devices.map fun d => d.cfg.slaveAddr)
            seq := [], broken := false } } ∧
          todo.map (fun x => (x.target, x.event, decide (x.reads = .byte))) =
            (s.devices.map fun d => (d.cfg.slaveAddr, BusEvent.start, false)) ++
            (s.devices.map fun d => (d.cfg.slaveAddr, BusEvent.ovf c.binding.1, false)) ++
            (if c.addr ∈ s.devices.map (fun d => d.cfg.slaveAddr) then c.binding.2.map fun x => (c.addr, x) else []) ++
            (s.devices.map fun d => (d.cfg.slaveAddr, BusEvent.stop, false)))) ∧
    (∀ tx x todo d, s.bus = some tx → tx.todo = x :: todo →
      (s.devices.map fun e => e.cfg.slaveAddr).Nodup → d ∈ s.devices → d.cfg.slaveAddr = x.target →
      ((d.bm = 0#3 ∧ ∃ b, x.event = .ovf b) ∨ d.speFault ≠ none) →
      ∃ v : Byte, step s = .next { s with sched := rest, fresh := s.fresh + 1, bus := some { tx with
        todo := todo
        seq := if x.reads = .byte then tx.seq ++ [v] else tx.seq
        broken := tx.broken || decide (x.target = tx.call.addr ∧ x.reads = .acknowledge) } }) ∧
    (∀ tx x todo b d, s.bus = some tx → tx.todo = x :: todo → x.event = .ovf b →
      (s.devices.map fun e => e.cfg.slaveAddr).Nodup → d ∈ s.devices → d.cfg.slaveAddr = x.target →
      d.bm ≠ 0#3 → d.speFault = none → (d.st = 6#3 ∨ d.st = 7#3) →
      ∃ (v : Byte) (t : State), step s = .next t ∧
        t.devices = (s.devices.map fun e =>
          if e.cfg.slaveAddr = x.target then { e with speFault := some (.stateInvalid (mkKey e.st (mkWord 0x2#4 b))) } else e) ∧
        t = { s with sched := rest, fresh := s.fresh + 1, dev := t.dev, peers := t.peers, bus := some { tx with
          todo := todo
          seq := if x.reads = .byte then tx.seq ++ [v] else tx.seq
          broken := tx.broken || decide (x.target = tx.call.addr ∧ x.reads = .acknowledge) } }) ∧
    (∀ tx, s.pendingCall = some c → s.bus = some tx → tx.call = c → tx.todo = [] →
      ∃ ok : Bool, (tx.broken = false → ok = tx.acked) ∧
        (∀ a b, c = .writeByte a b →
          step s = .next { s with sched := rest, bus := none, fresh := s.fresh + 1, hcs := s.hcs.writeStep ok }) ∧
        (∀ a n, c = .requestBytes a n → tx.seq.length ≤ n →
          step s = .next { s with
            sched := rest, bus := none, fresh := s.fresh + 1, hcs := s.hcs.readStep (if ok then tx.seq else []) }) ∧
        (∀ a, c = .probe a →
          step s = .next { s with sched := rest, bus := none, fresh := s.fresh + 1, client := s.client.probeAnswered ok }))

/-! ## Reset, configuration, invariant -/

/-- R37, R190, R191: the values the spec gives for reset, for every device configuration and host parameters; `SLAVE_ADDR` is the configured one. -/
def Obligations.ResetValues : Prop :=
  ∀ (d : DeviceConfig) (ps : List DeviceConfig) (h : HostConfig),
    ((State.resetWith d ps h).devices.map fun e => e.cfg) = d :: ps ∧
    (∀ e ∈ (State.resetWith d ps h).devices,
      e.st = 0#3 ∧ e.bm = 0#3 ∧ e.rx.head = 0 ∧ e.rx.tail = 0 ∧ e.rx.count = 0 ∧
      e.tx.head = 0 ∧ e.tx.tail = 0 ∧ e.tx.count = 0 ∧ e.rxOvf = false ∧ e.ntf = []) ∧
    (State.resetWith d ps h).hcs.phase = .idle ∧ (State.resetWith d ps h).client.held = [] ∧
    State.reset = State.resetWith exampleDevice [] exampleHost

/-- R190: a reset of the device at any moment gives the values of R37 and does not change `SLAVE_ADDR`; ring storage is not written (R31), and no fault record is
cleared (R170). -/
def Obligations.DeviceResetEffect : Prop :=
  ∀ (s : State) (rest : List Move), s.sched = .resetDevice :: rest →
    ∃ t, step s = .next t ∧ t.dev.cfg = s.dev.cfg ∧ t.dev.st = 0#3 ∧ t.dev.bm = 0#3 ∧
      t.dev.rx.head = 0 ∧ t.dev.rx.tail = 0 ∧ t.dev.rx.count = 0 ∧ t.dev.tx.head = 0 ∧
      t.dev.tx.tail = 0 ∧ t.dev.tx.count = 0 ∧ t.dev.rxOvf = false ∧ t.dev.ntf = [] ∧
      t.dev.rx.mem = s.dev.rx.mem ∧ t.dev.tx.mem = s.dev.tx.mem ∧
      t.dev.speFault = s.dev.speFault ∧ t.dev.appFault = s.dev.appFault ∧ t.hcs = s.hcs ∧ t.peers = s.peers

/-- R191: a reset of the host half at any moment; devices and parameters are not touched. -/
def Obligations.HostResetEffect : Prop :=
  ∀ (s : State) (rest : List Move), s.sched = .resetHost :: rest →
    ∃ t, step s = .next t ∧ t.hcs.phase = .idle ∧ t.client.held = [] ∧ t.client.conns = [] ∧
      t.dev = s.dev ∧ t.peers = s.peers ∧ t.host = s.host ∧ t.sched = rest

/-- R29, R7, R184, R170: no step writes a device's configuration or the host parameters, or adds or removes a device; none clears a fault record; and an agent that
has faulted takes no step: over every step but a reset of a device, a faulted SPE's registers stay, and what a faulted application alone writes stays. The
pairs are each device before the step and the same one after it. -/
def Obligations.ConfigurationAndFaultsStay : Prop :=
  ∀ (s t : State), step s = .next t →
    t.host = s.host ∧ ∃ l : List (Device × Device),
      l.map Prod.fst = s.devices ∧ (l.map Prod.snd).Perm t.devices ∧
      ∀ p ∈ l, p.2.cfg = p.1.cfg ∧
        (p.1.speFault ≠ none → p.2.speFault = p.1.speFault ∧
          (s.sched.head? ≠ some .resetDevice →
            p.2.st = p.1.st ∧ p.2.bm = p.1.bm ∧ p.2.bmByte = p.1.bmByte ∧ p.2.rxOvf = p.1.rxOvf ∧
            p.2.ntf = p.1.ntf ∧ p.2.rx.head = p.1.rx.head ∧ p.2.tx.tail = p.1.tx.tail)) ∧
        (p.1.appFault ≠ none → p.2.appFault = p.1.appFault ∧
          (s.sched.head? ≠ some .resetDevice →
            p.2.appRet = p.1.appRet ∧ p.2.rx.tail = p.1.rx.tail ∧ p.2.tx.head = p.1.tx.head))

/-- The machine's invariant (R24, R30, R55, R33, R34, R36, R150 to R152; no SPE has faulted, R10, R108) is kept by every step, from every state that has it. -/
def Obligations.StepKeepsInvariant : Prop :=
  ∀ (s t : State), s.Ok → step s = .next t → t.Ok

/-- The machine's invariant holds after reset, for every configuration (R24, R30, R33, R37, R145, R150, R191); that no agent starts faulted is log 5. That `HS_CMDS`, `HS_IDX`, `HS_N` and `HS_BUF` are in
their ranges at reset rests on the values the model names for them (log 2): R37 leaves them unspecified. -/
def Obligations.ResetMeetsInvariant : Prop :=
  ∀ (d : DeviceConfig) (ps : List DeviceConfig) (h : HostConfig),
    (State.resetWith d ps h).Ok ∧ ∀ e ∈ (State.resetWith d ps h).devices, e.faultless = true

/-! ## Client programs -/

/-- R150, R151: a second acquire without a release fails, a release makes it succeed again, and an open of a held address changes nothing but its result. -/
def Obligations.RegistryRules : Prop :=
  (∀ (a : PeerAddr) (held : List PeerAddr),
    (acquire a (acquire a held).2).1 = .alreadyInUse ∧
    (acquire a (release a held)).1 = .success ∧
    (∀ b, b ≠ a → (b ∈ (acquire a held).2 ↔ b ∈ held) ∧ (b ∈ release a held ↔ b ∈ held))) ∧
  ∀ (a : PeerAddr) (hint : PinHint) (bs : Option Nat) (c : Client),
    (a ∈ c.held → c.openConn a hint bs = { c with openResult := some .addressConflict }) ∧
    (a ∉ c.held → (c.openConn a hint bs).openResult = some .opened ∧ a ∈ (c.openConn a hint bs).held)

/-- R164: for a host whose address bounds and pairing offset are the source's (R7), an address of 8..35 and no other is a bootloader's, one of 36..63 and no other
an application's, and a bootloader's pair is 28 above it and an application's. -/
def Obligations.AddressClasses : Prop :=
  ∀ (h : HostConfig) (a : PeerAddr),
    h.addrMin = 8#7 → h.bootMax = 35#7 → h.appMin = 36#7 → h.addrMax = 63#7 → h.pairOffset = 28#7 →
    isBootAddr h a = decide (8 ≤ a.toNat ∧ a.toNat ≤ 35) ∧
    isAppAddr h a = decide (36 ≤ a.toNat ∧ a.toNat ≤ 63) ∧
    (8 ≤ a.toNat ∧ a.toNat ≤ 35 →
      ∃ b, pairAddr h a = some b ∧ b.toNat = a.toNat + 28 ∧ isAppAddr h b = true)

/-- R157: the pages of an image, in order, are the image; every page but the last has `PAGE_SIZE` bytes, and the last has what is left,
at least one and at most `PAGE_SIZE`; an empty image has no page. -/
def Obligations.PagesMakeTheImage : Prop :=
  ∀ (ps : Nat) (image : List Byte), 1 ≤ ps →
    (List.range (pageCount ps image.length)).flatMap (pageOf ps image) = image ∧
    (∀ i, i + 1 < pageCount ps image.length → (pageOf ps image i).length = ps) ∧
    (∀ i, i + 1 = pageCount ps image.length →
      1 ≤ (pageOf ps image i).length ∧ (pageOf ps image i).length ≤ ps ∧
        (pageOf ps image i).length = image.length - i * ps) ∧
    (∀ i, i < pageCount ps image.length → ∀ j, j < (pageOf ps image i).length →
      (pageOf ps image i)[j]? = image[i * ps + j]?) ∧
    (image = [] → pageCount ps image.length = 0)

/-- R153 to R155, R158, R159: the phases of an upload in their order: what each stage issues, and where each result leads (a page's result:
`Obligations.UploadIsFailFast`). The Device Status record and the caller's buffer at the issue of a status query are the model's choice (log 20). -/
def Obligations.UploadPhaseOrder : Prop :=
  ∀ (s : State) (rest : List Move) (a : PeerAddr) (image : List Byte) (two : Bool) (i : Nat),
    s.sched = .clientStep :: rest → (s.hcs.phase = .idle ∨ s.hcs.phase = .done) →
    (∀ second : Bool, 1 ≤ s.host.maxCmdLen →
      s.client.job = .upload a image two (if second then .secondInit false else .init false) →
      step s = .next { s with
        sched := rest
        client := { s.client with job := .upload a image two (if second then .secondInit true else .init true) }
        hcs := { s.hcs with
          addr := a, cmds := [s.host.cmdInit], idx := 0, echo := s.host.echoInit, n := 0, phase := .write } }) ∧
    (s.client.job = .upload a image two (.status false) → 1 ≤ s.host.maxCmdLen →
      1 ≤ s.host.statusReplyLen → s.host.statusReplyLen ≤ s.host.maxReplyLen →
      ∃ buf : List Byte, buf.length = s.host.statusReplyLen ∧ step s = .next { s with
        sched := rest, fresh := s.fresh + s.host.statusReplyLen
        client := { s.client with job := .upload a image two (.status true), status := DeviceStatus.unknown }
        hcs := { s.hcs with
          addr := a, cmds := [s.host.cmdStatus], idx := 0, echo := s.host.echoStatus, n := s.host.statusReplyLen
          buf := buf, phase := .write } }) ∧
    (s.client.job = .upload a image two (.page i false) →
      (pageOf s.host.pageSize image i).length < s.host.maxCmdLen →
      step s = .next { s with sched := rest, client := { s.client with job := .upload a image two (.page i true) }
                              hcs := { s.hcs with
                                addr := a, cmds := s.host.cmdPageWrite :: pageOf s.host.pageSize image i, idx := 0
                                echo := s.host.echoPageWrite, n := 0, phase := .write } }) ∧
    (s.client.job = .upload a image two .delay →
      step s = .next { s with sched := rest, client := { s.client with job := .upload a image two (.secondInit false) } }) ∧
    (s.hcs.phase = .done →
      (s.client.job = .upload a image two (.init true) → s.hcs.result = .ok →
        step s = .next { s with sched := rest, client := { s.client with
          job := .upload a image two (if two then .delay else .status false) } }) ∧
      (s.client.job = .upload a image two (.secondInit true) → s.hcs.result = .ok →
        step s = .next { s with sched := rest, client := { s.client with job := .upload a image two (.status false) } }) ∧
      ((s.client.job = .upload a image two (.init true) ∨ s.client.job = .upload a image two (.secondInit true)) →
        s.hcs.result ≠ .ok → step s = .next { s with sched := rest, client := { s.client with
          job := .idle, uploadResult := some (.failed .init none s.hcs.result) } }) ∧
      (s.client.job = .upload a image two (.status true) → s.hcs.result = .ok →
        0 < pageCount s.host.pageSize image.length → step s = .next { s with sched := rest, client := { s.client with
          job := .upload a image two (.page 0 false), status := decodeStatus s.host.wordOrder s.hcs.buf } }) ∧
      (s.client.job = .upload a image two (.status true) → s.hcs.result = .ok →
        pageCount s.host.pageSize image.length = 0 → step s = .next { s with sched := rest, client := { s.client with
          job := .idle, uploadResult := some .success, status := decodeStatus s.host.wordOrder s.hcs.buf } }) ∧
      (s.client.job = .upload a image two (.status true) → s.hcs.result ≠ .ok →
        step s = .next { s with sched := rest, client := { s.client with
          job := .idle, uploadResult := some (.failed .status none s.hcs.result) } }))

/-- R158, R159: the result of page `i` decides the upload: a failure ends it, naming the page; the last success ends it; any other success goes on with page
`i + 1`. -/
def Obligations.UploadIsFailFast : Prop :=
  ∀ (s : State) (rest : List Move) (a : PeerAddr) (image : List Byte) (two : Bool) (i : Nat),
    s.sched = .clientStep :: rest → s.client.job = .upload a image two (.page i true) → s.hcs.phase = .done →
    (s.hcs.result ≠ .ok → step s = .next { s with sched := rest, client := { s.client with
      job := .idle, uploadResult := some (.failed .upload (some i) s.hcs.result) } }) ∧
    (s.hcs.result = .ok → i + 1 < pageCount s.host.pageSize image.length →
      step s = .next { s with sched := rest, client := { s.client with
        job := .upload a image two (.page (i + 1) false) } }) ∧
    (s.hcs.result = .ok → pageCount s.host.pageSize image.length ≤ i + 1 →
      step s = .next { s with sched := rest, client := { s.client with
        job := .idle, uploadResult := some .success } })

/-- R160: after the settle delay of a probe, find-first ends with the address that acknowledged, or goes on to the next one up to `FIND_FIRST_MAX`. -/
def Obligations.FindFirstOrder : Prop :=
  ∀ (s : State) (rest : List Move) (a : PeerAddr) (ack : Bool),
    s.sched = .clientStep :: rest → s.client.job = .find a (.settle ack) →
    (ack = true → step s = .next { s with sched := rest, client := { s.client with
      job := .idle, findResult := some (.found a (decide (s.host.appMin ≤ a))) } }) ∧
    (ack = false → a < s.host.findFirstMax → step s = .next { s with sched := rest, client := { s.client with
      job := .find (a + 1) .probe } }) ∧
    (ack = false → ¬ a < s.host.findFirstMax → step s = .next { s with sched := rest, client := { s.client with
      job := .idle, findResult := some .notFound } })

/-- R155, R156, R78, R79: a status query that has returned populates the record from `HS_BUF` only when it succeeded. -/
def Obligations.StatusQueryResult : Prop :=
  ∀ (s : State) (rest : List Move) (a : PeerAddr) (r0 r1 r2 r3 r4 r5 r6 r7 r8 r9 r10 : Byte),
    s.sched = .clientStep :: rest → s.client.job = .query a true → s.hcs.phase = .done →
    s.hcs.buf = [r0, r1, r2, r3, r4, r5, r6, r7, r8, r9, r10] →
    (s.hcs.result = .ok → s.host.wordOrder = .le →
      step s = .next { s with sched := rest, client := { s.client with
        job := .idle, queryResult := some .ok
        status := {
          signature := r1, major := r2, minor := r3, features := r4
          bootStart := r6 ++ r5, appStart := r8 ++ r7, trampoline := r10 ++ r9 } } }) ∧
    (s.hcs.result = .ok → s.host.wordOrder = .be →
      step s = .next { s with sched := rest, client := { s.client with
        job := .idle, queryResult := some .ok
        status := {
          signature := r1, major := r2, minor := r3, features := r4
          bootStart := r5 ++ r6, appStart := r7 ++ r8, trampoline := r9 ++ r10 } } }) ∧
    (s.hcs.result ≠ .ok → step s = .next { s with sched := rest, client := { s.client with
      job := .idle, queryResult := some s.hcs.result } })

/-- How a full scan goes on after the address `a` with the entries so far (R161): the probe of the next address, or the result. -/
def Sys2Proof.Machine.Client.scanned (h : HostConfig) (a : PeerAddr) (es : List InfoRecord) (c : Client) : Client :=
  if a < h.addrMax then { c with job := .scan (a + 1) (.probing .probe) es }
  else { c with job := .idle, scanResult := some es }

/-- R161, with R151, R152, R155: every stage of a full scan at one address. After the settle delay of a probe: nothing for a peer that did not acknowledge, an
application peer's entry, the opening of a Connection to a bootloader peer. A failed open gives the entry `UNKNOWN` without versions; an open one leads to the
status query, whose success gives `TIMONEL` or `UNKNOWN` by the signature with the versions, whose failure `UNKNOWN` without; then the Connection is closed and
the entry added. The record and the buffer at the issue, the hint of the open, and an address in neither half or in both are the model's choice (log 20), and so is the
block size (log 33). -/
def Obligations.ScanOrder : Prop :=
  ∀ (s : State) (rest : List Move) (a : PeerAddr) (es : List InfoRecord), s.sched = .clientStep :: rest →
    (∀ ack, s.client.job = .scan a (.probing (.settle ack)) es →
      (ack = false → step s = .next { s with sched := rest, client := s.client.scanned s.host a es }) ∧
      (ack = true → a ≤ s.host.bootMax →
        step s = .next { s with sched := rest, client := { s.client with job := .scan a .opening es } }) ∧
      (ack = true → ¬ a ≤ s.host.bootMax → s.host.appMin ≤ a →
        step s = .next { s with
          sched := rest
          client := s.client.scanned s.host a (es ++ [{ addr := a, tag := .application, major := 0#8, minor := 0#8 }]) }) ∧
      (ack = true → ¬ a ≤ s.host.bootMax → ¬ s.host.appMin ≤ a →
        step s = .next { s with sched := rest, client := s.client.scanned s.host a es })) ∧
    (s.client.job = .scan a .opening es →
      (a ∈ s.client.held → step s = .next { s with
        sched := rest
        client := ({ s.client with openResult := some .addressConflict } : Client).scanned s.host a
          (es ++ [{ addr := a, tag := .unknown, major := 0#8, minor := 0#8 }]) }) ∧
      (a ∉ s.client.held → step s = .next { s with sched := rest, client := { s.client with
        held := s.client.held ++ [a], openResult := some .opened, job := .scan a (.query false) es
        conns := s.client.conns ++ [{ addr := a, ownsTransport := false, blockSize := some s.host.pageSize }] } })) ∧
    (s.client.job = .scan a (.query false) es → (s.hcs.phase = .idle ∨ s.hcs.phase = .done) → 1 ≤ s.host.maxCmdLen →
      1 ≤ s.host.statusReplyLen → s.host.statusReplyLen ≤ s.host.maxReplyLen →
      ∃ buf : List Byte, buf.length = s.host.statusReplyLen ∧ step s = .next { s with
        sched := rest, fresh := s.fresh + s.host.statusReplyLen
        client := { s.client with job := .scan a (.query true) es, status := DeviceStatus.unknown }
        hcs := { s.hcs with
          addr := a, cmds := [s.host.cmdStatus], idx := 0, echo := s.host.echoStatus, n := s.host.statusReplyLen
          buf := buf, phase := .write } }) ∧
    (s.client.job = .scan a (.query true) es → s.hcs.phase = .done →
      (∀ st, s.hcs.result = .ok → st = decodeStatus s.host.wordOrder s.hcs.buf →
        step s = .next { s with sched := rest, client := { s.client with
          status := st
          job := .scan a (.closing {
            addr := a, tag := if st.signature = s.host.signature then .timonel else .unknown
            major := st.major, minor := st.minor }) es } }) ∧
      (s.hcs.result ≠ .ok → step s = .next { s with sched := rest, client := { s.client with
        job := .scan a (.closing { addr := a, tag := .unknown, major := 0#8, minor := 0#8 }) es } })) ∧
    (∀ e, s.client.job = .scan a (.closing e) es →
      step s = .next { s with
        sched := rest
        client := ({ s.client with
          held := s.client.held.filter (fun b => b ≠ a)
          conns := s.client.conns.filter (fun k => k.addr ≠ a) } : Client).scanned s.host a (es ++ [e]) })
end

