-- ==== Sys2Proof/Laws/Decode.lean ====
section
/-! SUPPORT. The fields of a request word and of a dispatch key, and the key put together from its fields (30_encoding.md R83, R84). -/

namespace Sys2Proof

/-- A bit of a key made of `ST` and `W`. -/
theorem getLsbD_mkKey (st : BitVec 3) (w : ReqWord) (i : Nat) :
    (mkKey st w).getLsbD i = if i < 12 then w.getLsbD i else st.getLsbD (i - 12) :=
  BitVec.getLsbD_append

/-- A bit of a word made of `OP` and `DATA`. -/
theorem getLsbD_mkWord (op : BitVec 4) (d : Byte) (i : Nat) :
    (mkWord op d).getLsbD i = if i < 8 then d.getLsbD i else op.getLsbD (i - 8) :=
  BitVec.getLsbD_append

@[simp] theorem keySt_mkKey (st : BitVec 3) (w : ReqWord) : keySt (mkKey st w) = st := by
  apply BitVec.eq_of_getLsbD_eq
  intro i hi
  have h : ¬ 12 + i < 12 := by omega
  simp only [keySt, BitVec.getLsbD_extractLsb', getLsbD_mkKey, if_neg h, hi]
  simp

@[simp] theorem keyOp_mkKey (st : BitVec 3) (op : BitVec 4) (d : Byte) :
    keyOp (mkKey st (mkWord op d)) = op := by
  apply BitVec.eq_of_getLsbD_eq
  intro i hi
  have h1 : 8 + i < 12 := by omega
  have h2 : ¬ 8 + i < 8 := by omega
  simp only [keyOp, BitVec.getLsbD_extractLsb', getLsbD_mkKey, getLsbD_mkWord, if_pos h1, if_neg h2, hi]
  simp

@[simp] theorem keyData_mkKey (st : BitVec 3) (op : BitVec 4) (d : Byte) :
    keyData (mkKey st (mkWord op d)) = d := by
  apply BitVec.eq_of_getLsbD_eq
  intro i hi
  have h1 : 0 + i < 12 := by omega
  have h2 : 0 + i < 8 := by omega
  simp only [keyData, BitVec.getLsbD_extractLsb', getLsbD_mkKey, getLsbD_mkWord, if_pos h1, if_pos h2, hi]
  simp

/-- A key is put together from its three fields. -/
theorem key_eta (k : Key) : k = mkKey (keySt k) (mkWord (keyOp k) (keyData k)) := by
  apply BitVec.eq_of_getLsbD_eq
  intro i hi
  rw [getLsbD_mkKey, getLsbD_mkWord]
  simp only [keySt, keyOp, keyData, BitVec.getLsbD_extractLsb']
  by_cases h1 : i < 12
  · by_cases h2 : i < 8
    · simp [h1, h2]
    · have h3 : 8 + (i - 8) = i := by omega
      have h4 : i - 8 < 4 := by omega
      simp [h1, h2, h3, h4]
  · have h3 : 12 + (i - 12) = i := by omega
    have h4 : i - 12 < 3 := by omega
    simp [h1, h3, h4]

end Sys2Proof
end

