-- ==== Sys2Proof/Laws/State.lean ====
section
/-! SUPPORT. One lemma for each field under each named update of a device and of the state, true by rfl, so that no later proof unfolds a record update. -/

namespace Sys2Proof.Machine

/-! ## Device.goTo -/

@[simp] theorem Device.goTo_cfg (st bm : BitVec 3) (d : Device) : (d.goTo st bm).cfg = d.cfg := rfl
@[simp] theorem Device.goTo_st (st bm : BitVec 3) (d : Device) : (d.goTo st bm).st = st := rfl
@[simp] theorem Device.goTo_bm (st bm : BitVec 3) (d : Device) : (d.goTo st bm).bm = bm := rfl
@[simp] theorem Device.goTo_bmByte (st bm : BitVec 3) (d : Device) : (d.goTo st bm).bmByte = d.bmByte := rfl
@[simp] theorem Device.goTo_rx (st bm : BitVec 3) (d : Device) : (d.goTo st bm).rx = d.rx := rfl
@[simp] theorem Device.goTo_tx (st bm : BitVec 3) (d : Device) : (d.goTo st bm).tx = d.tx := rfl
@[simp] theorem Device.goTo_rxOvf (st bm : BitVec 3) (d : Device) : (d.goTo st bm).rxOvf = d.rxOvf := rfl
@[simp] theorem Device.goTo_ntf (st bm : BitVec 3) (d : Device) : (d.goTo st bm).ntf = d.ntf := rfl
@[simp] theorem Device.goTo_appRet (st bm : BitVec 3) (d : Device) : (d.goTo st bm).appRet = d.appRet := rfl
@[simp] theorem Device.goTo_speFault (st bm : BitVec 3) (d : Device) : (d.goTo st bm).speFault = d.speFault := rfl
@[simp] theorem Device.goTo_appFault (st bm : BitVec 3) (d : Device) : (d.goTo st bm).appFault = d.appFault := rfl

/-! ## Device.emit -/

@[simp] theorem Device.emit_cfg (n : Notification) (d : Device) : (d.emit n).cfg = d.cfg := rfl
@[simp] theorem Device.emit_st (n : Notification) (d : Device) : (d.emit n).st = d.st := rfl
@[simp] theorem Device.emit_bm (n : Notification) (d : Device) : (d.emit n).bm = d.bm := rfl
@[simp] theorem Device.emit_bmByte (n : Notification) (d : Device) : (d.emit n).bmByte = d.bmByte := rfl
@[simp] theorem Device.emit_rx (n : Notification) (d : Device) : (d.emit n).rx = d.rx := rfl
@[simp] theorem Device.emit_tx (n : Notification) (d : Device) : (d.emit n).tx = d.tx := rfl
@[simp] theorem Device.emit_rxOvf (n : Notification) (d : Device) : (d.emit n).rxOvf = d.rxOvf := rfl
@[simp] theorem Device.emit_ntf (n : Notification) (d : Device) : (d.emit n).ntf = d.ntf ++ [n] := rfl
@[simp] theorem Device.emit_appRet (n : Notification) (d : Device) : (d.emit n).appRet = d.appRet := rfl
@[simp] theorem Device.emit_speFault (n : Notification) (d : Device) : (d.emit n).speFault = d.speFault := rfl
@[simp] theorem Device.emit_appFault (n : Notification) (d : Device) : (d.emit n).appFault = d.appFault := rfl

/-! ## Device.load -/

@[simp] theorem Device.load_cfg (b : Byte) (d : Device) : (d.load b).cfg = d.cfg := rfl
@[simp] theorem Device.load_st (b : Byte) (d : Device) : (d.load b).st = Config.stAwaitAckAfterSend := rfl
@[simp] theorem Device.load_bm (b : Byte) (d : Device) : (d.load b).bm = Config.bmOut8 := rfl
@[simp] theorem Device.load_bmByte (b : Byte) (d : Device) : (d.load b).bmByte = b := rfl
@[simp] theorem Device.load_rx (b : Byte) (d : Device) : (d.load b).rx = d.rx := rfl
@[simp] theorem Device.load_tx (b : Byte) (d : Device) : (d.load b).tx = d.tx := rfl
@[simp] theorem Device.load_rxOvf (b : Byte) (d : Device) : (d.load b).rxOvf = d.rxOvf := rfl
@[simp] theorem Device.load_ntf (b : Byte) (d : Device) : (d.load b).ntf = d.ntf := rfl
@[simp] theorem Device.load_appRet (b : Byte) (d : Device) : (d.load b).appRet = d.appRet := rfl
@[simp] theorem Device.load_speFault (b : Byte) (d : Device) : (d.load b).speFault = d.speFault := rfl
@[simp] theorem Device.load_appFault (b : Byte) (d : Device) : (d.load b).appFault = d.appFault := rfl

/-! ## Device.withRx -/

@[simp] theorem Device.withRx_cfg (r : Ring) (d : Device) : (d.withRx r).cfg = d.cfg := rfl
@[simp] theorem Device.withRx_st (r : Ring) (d : Device) : (d.withRx r).st = d.st := rfl
@[simp] theorem Device.withRx_bm (r : Ring) (d : Device) : (d.withRx r).bm = d.bm := rfl
@[simp] theorem Device.withRx_bmByte (r : Ring) (d : Device) : (d.withRx r).bmByte = d.bmByte := rfl
@[simp] theorem Device.withRx_rx (r : Ring) (d : Device) : (d.withRx r).rx = r := rfl
@[simp] theorem Device.withRx_tx (r : Ring) (d : Device) : (d.withRx r).tx = d.tx := rfl
@[simp] theorem Device.withRx_rxOvf (r : Ring) (d : Device) : (d.withRx r).rxOvf = d.rxOvf := rfl
@[simp] theorem Device.withRx_ntf (r : Ring) (d : Device) : (d.withRx r).ntf = d.ntf := rfl
@[simp] theorem Device.withRx_appRet (r : Ring) (d : Device) : (d.withRx r).appRet = d.appRet := rfl
@[simp] theorem Device.withRx_speFault (r : Ring) (d : Device) : (d.withRx r).speFault = d.speFault := rfl
@[simp] theorem Device.withRx_appFault (r : Ring) (d : Device) : (d.withRx r).appFault = d.appFault := rfl

/-! ## Device.withTx -/

@[simp] theorem Device.withTx_cfg (r : Ring) (d : Device) : (d.withTx r).cfg = d.cfg := rfl
@[simp] theorem Device.withTx_st (r : Ring) (d : Device) : (d.withTx r).st = d.st := rfl
@[simp] theorem Device.withTx_bm (r : Ring) (d : Device) : (d.withTx r).bm = d.bm := rfl
@[simp] theorem Device.withTx_bmByte (r : Ring) (d : Device) : (d.withTx r).bmByte = d.bmByte := rfl
@[simp] theorem Device.withTx_rx (r : Ring) (d : Device) : (d.withTx r).rx = d.rx := rfl
@[simp] theorem Device.withTx_tx (r : Ring) (d : Device) : (d.withTx r).tx = r := rfl
@[simp] theorem Device.withTx_rxOvf (r : Ring) (d : Device) : (d.withTx r).rxOvf = d.rxOvf := rfl
@[simp] theorem Device.withTx_ntf (r : Ring) (d : Device) : (d.withTx r).ntf = d.ntf := rfl
@[simp] theorem Device.withTx_appRet (r : Ring) (d : Device) : (d.withTx r).appRet = d.appRet := rfl
@[simp] theorem Device.withTx_speFault (r : Ring) (d : Device) : (d.withTx r).speFault = d.speFault := rfl
@[simp] theorem Device.withTx_appFault (r : Ring) (d : Device) : (d.withTx r).appFault = d.appFault := rfl

/-! ## Device.flagOverflow -/

@[simp] theorem Device.flagOverflow_cfg (d : Device) : (d.flagOverflow).cfg = d.cfg := rfl
@[simp] theorem Device.flagOverflow_st (d : Device) : (d.flagOverflow).st = d.st := rfl
@[simp] theorem Device.flagOverflow_bm (d : Device) : (d.flagOverflow).bm = d.bm := rfl
@[simp] theorem Device.flagOverflow_bmByte (d : Device) : (d.flagOverflow).bmByte = d.bmByte := rfl
@[simp] theorem Device.flagOverflow_rx (d : Device) : (d.flagOverflow).rx = d.rx := rfl
@[simp] theorem Device.flagOverflow_tx (d : Device) : (d.flagOverflow).tx = d.tx := rfl
@[simp] theorem Device.flagOverflow_rxOvf (d : Device) : (d.flagOverflow).rxOvf = true := rfl
@[simp] theorem Device.flagOverflow_ntf (d : Device) : (d.flagOverflow).ntf = d.ntf := rfl
@[simp] theorem Device.flagOverflow_appRet (d : Device) : (d.flagOverflow).appRet = d.appRet := rfl
@[simp] theorem Device.flagOverflow_speFault (d : Device) : (d.flagOverflow).speFault = d.speFault := rfl
@[simp] theorem Device.flagOverflow_appFault (d : Device) : (d.flagOverflow).appFault = d.appFault := rfl

/-! ## Device.giveApp -/

@[simp] theorem Device.giveApp_cfg (v : AppReturn) (d : Device) : (d.giveApp v).cfg = d.cfg := rfl
@[simp] theorem Device.giveApp_st (v : AppReturn) (d : Device) : (d.giveApp v).st = d.st := rfl
@[simp] theorem Device.giveApp_bm (v : AppReturn) (d : Device) : (d.giveApp v).bm = d.bm := rfl
@[simp] theorem Device.giveApp_bmByte (v : AppReturn) (d : Device) : (d.giveApp v).bmByte = d.bmByte := rfl
@[simp] theorem Device.giveApp_rx (v : AppReturn) (d : Device) : (d.giveApp v).rx = d.rx := rfl
@[simp] theorem Device.giveApp_tx (v : AppReturn) (d : Device) : (d.giveApp v).tx = d.tx := rfl
@[simp] theorem Device.giveApp_rxOvf (v : AppReturn) (d : Device) : (d.giveApp v).rxOvf = d.rxOvf := rfl
@[simp] theorem Device.giveApp_ntf (v : AppReturn) (d : Device) : (d.giveApp v).ntf = d.ntf := rfl
@[simp] theorem Device.giveApp_appRet (v : AppReturn) (d : Device) : (d.giveApp v).appRet = v := rfl
@[simp] theorem Device.giveApp_speFault (v : AppReturn) (d : Device) : (d.giveApp v).speFault = d.speFault := rfl
@[simp] theorem Device.giveApp_appFault (v : AppReturn) (d : Device) : (d.giveApp v).appFault = d.appFault := rfl

/-! ## Device.keepFault -/

@[simp] theorem Device.keepFault_cfg (r : FaultRecord) (d : Device) : (d.keepFault r).cfg = d.cfg := by cases r <;> rfl
@[simp] theorem Device.keepFault_st (r : FaultRecord) (d : Device) : (d.keepFault r).st = d.st := by cases r <;> rfl
@[simp] theorem Device.keepFault_bm (r : FaultRecord) (d : Device) : (d.keepFault r).bm = d.bm := by cases r <;> rfl
@[simp] theorem Device.keepFault_bmByte (r : FaultRecord) (d : Device) : (d.keepFault r).bmByte = d.bmByte := by cases r <;> rfl
@[simp] theorem Device.keepFault_rx (r : FaultRecord) (d : Device) : (d.keepFault r).rx = d.rx := by cases r <;> rfl
@[simp] theorem Device.keepFault_tx (r : FaultRecord) (d : Device) : (d.keepFault r).tx = d.tx := by cases r <;> rfl
@[simp] theorem Device.keepFault_rxOvf (r : FaultRecord) (d : Device) : (d.keepFault r).rxOvf = d.rxOvf := by cases r <;> rfl
@[simp] theorem Device.keepFault_ntf (r : FaultRecord) (d : Device) : (d.keepFault r).ntf = d.ntf := by cases r <;> rfl
@[simp] theorem Device.keepFault_appRet (r : FaultRecord) (d : Device) : (d.keepFault r).appRet = d.appRet := by cases r <;> rfl
@[simp] theorem Device.keepFault_readEmpty_speFault (w : ReqWord) (d : Device) : (d.keepFault (.readEmpty w)).speFault = d.speFault := rfl
@[simp] theorem Device.keepFault_readEmpty_appFault (w : ReqWord) (d : Device) : (d.keepFault (.readEmpty w)).appFault = some (.readEmpty w) := rfl
@[simp] theorem Device.keepFault_queueFull_speFault (w : ReqWord) (d : Device) : (d.keepFault (.queueFull w)).speFault = d.speFault := rfl
@[simp] theorem Device.keepFault_queueFull_appFault (w : ReqWord) (d : Device) : (d.keepFault (.queueFull w)).appFault = some (.queueFull w) := rfl
@[simp] theorem Device.keepFault_stateInvalid_speFault (k : Key) (d : Device) : (d.keepFault (.stateInvalid k)).speFault = some (.stateInvalid k) := rfl
@[simp] theorem Device.keepFault_stateInvalid_appFault (k : Key) (d : Device) : (d.keepFault (.stateInvalid k)).appFault = d.appFault := rfl

/-! ## State.withDev -/

@[simp] theorem State.withDev_dev (x : Device) (s : State) : (s.withDev x).dev = x := rfl
@[simp] theorem State.withDev_peers (x : Device) (s : State) : (s.withDev x).peers = s.peers := rfl
@[simp] theorem State.withDev_host (x : Device) (s : State) : (s.withDev x).host = s.host := rfl
@[simp] theorem State.withDev_hcs (x : Device) (s : State) : (s.withDev x).hcs = s.hcs := rfl
@[simp] theorem State.withDev_bus (x : Device) (s : State) : (s.withDev x).bus = s.bus := rfl
@[simp] theorem State.withDev_foreign (x : Device) (s : State) : (s.withDev x).foreign = s.foreign := rfl
@[simp] theorem State.withDev_client (x : Device) (s : State) : (s.withDev x).client = s.client := rfl
@[simp] theorem State.withDev_fresh (x : Device) (s : State) : (s.withDev x).fresh = s.fresh := rfl
@[simp] theorem State.withDev_sched (x : Device) (s : State) : (s.withDev x).sched = s.sched := rfl

/-! ## State.withHcs -/

@[simp] theorem State.withHcs_dev (x : Hcs) (s : State) : (s.withHcs x).dev = s.dev := rfl
@[simp] theorem State.withHcs_peers (x : Hcs) (s : State) : (s.withHcs x).peers = s.peers := rfl
@[simp] theorem State.withHcs_host (x : Hcs) (s : State) : (s.withHcs x).host = s.host := rfl
@[simp] theorem State.withHcs_hcs (x : Hcs) (s : State) : (s.withHcs x).hcs = x := rfl
@[simp] theorem State.withHcs_bus (x : Hcs) (s : State) : (s.withHcs x).bus = s.bus := rfl
@[simp] theorem State.withHcs_foreign (x : Hcs) (s : State) : (s.withHcs x).foreign = s.foreign := rfl
@[simp] theorem State.withHcs_client (x : Hcs) (s : State) : (s.withHcs x).client = s.client := rfl
@[simp] theorem State.withHcs_fresh (x : Hcs) (s : State) : (s.withHcs x).fresh = s.fresh := rfl
@[simp] theorem State.withHcs_sched (x : Hcs) (s : State) : (s.withHcs x).sched = s.sched := rfl

/-! ## State.withBus -/

@[simp] theorem State.withBus_dev (x : Option Transaction) (s : State) : (s.withBus x).dev = s.dev := rfl
@[simp] theorem State.withBus_peers (x : Option Transaction) (s : State) : (s.withBus x).peers = s.peers := rfl
@[simp] theorem State.withBus_host (x : Option Transaction) (s : State) : (s.withBus x).host = s.host := rfl
@[simp] theorem State.withBus_hcs (x : Option Transaction) (s : State) : (s.withBus x).hcs = s.hcs := rfl
@[simp] theorem State.withBus_bus (x : Option Transaction) (s : State) : (s.withBus x).bus = x := rfl
@[simp] theorem State.withBus_foreign (x : Option Transaction) (s : State) : (s.withBus x).foreign = s.foreign := rfl
@[simp] theorem State.withBus_client (x : Option Transaction) (s : State) : (s.withBus x).client = s.client := rfl
@[simp] theorem State.withBus_fresh (x : Option Transaction) (s : State) : (s.withBus x).fresh = s.fresh := rfl
@[simp] theorem State.withBus_sched (x : Option Transaction) (s : State) : (s.withBus x).sched = s.sched := rfl

/-! ## State.withForeign -/

@[simp] theorem State.withForeign_dev (x : List PeerAddr) (s : State) : (s.withForeign x).dev = s.dev := rfl
@[simp] theorem State.withForeign_peers (x : List PeerAddr) (s : State) : (s.withForeign x).peers = s.peers := rfl
@[simp] theorem State.withForeign_host (x : List PeerAddr) (s : State) : (s.withForeign x).host = s.host := rfl
@[simp] theorem State.withForeign_hcs (x : List PeerAddr) (s : State) : (s.withForeign x).hcs = s.hcs := rfl
@[simp] theorem State.withForeign_bus (x : List PeerAddr) (s : State) : (s.withForeign x).bus = s.bus := rfl
@[simp] theorem State.withForeign_foreign (x : List PeerAddr) (s : State) : (s.withForeign x).foreign = x := rfl
@[simp] theorem State.withForeign_client (x : List PeerAddr) (s : State) : (s.withForeign x).client = s.client := rfl
@[simp] theorem State.withForeign_fresh (x : List PeerAddr) (s : State) : (s.withForeign x).fresh = s.fresh := rfl
@[simp] theorem State.withForeign_sched (x : List PeerAddr) (s : State) : (s.withForeign x).sched = s.sched := rfl

/-! ## State.withClient -/

@[simp] theorem State.withClient_dev (x : Client) (s : State) : (s.withClient x).dev = s.dev := rfl
@[simp] theorem State.withClient_peers (x : Client) (s : State) : (s.withClient x).peers = s.peers := rfl
@[simp] theorem State.withClient_host (x : Client) (s : State) : (s.withClient x).host = s.host := rfl
@[simp] theorem State.withClient_hcs (x : Client) (s : State) : (s.withClient x).hcs = s.hcs := rfl
@[simp] theorem State.withClient_bus (x : Client) (s : State) : (s.withClient x).bus = s.bus := rfl
@[simp] theorem State.withClient_foreign (x : Client) (s : State) : (s.withClient x).foreign = s.foreign := rfl
@[simp] theorem State.withClient_client (x : Client) (s : State) : (s.withClient x).client = x := rfl
@[simp] theorem State.withClient_fresh (x : Client) (s : State) : (s.withClient x).fresh = s.fresh := rfl
@[simp] theorem State.withClient_sched (x : Client) (s : State) : (s.withClient x).sched = s.sched := rfl

/-! ## State.draw -/

@[simp] theorem State.draw_dev (x : Nat) (s : State) : (s.draw x).dev = s.dev := rfl
@[simp] theorem State.draw_peers (x : Nat) (s : State) : (s.draw x).peers = s.peers := rfl
@[simp] theorem State.draw_host (x : Nat) (s : State) : (s.draw x).host = s.host := rfl
@[simp] theorem State.draw_hcs (x : Nat) (s : State) : (s.draw x).hcs = s.hcs := rfl
@[simp] theorem State.draw_bus (x : Nat) (s : State) : (s.draw x).bus = s.bus := rfl
@[simp] theorem State.draw_foreign (x : Nat) (s : State) : (s.draw x).foreign = s.foreign := rfl
@[simp] theorem State.draw_client (x : Nat) (s : State) : (s.draw x).client = s.client := rfl
@[simp] theorem State.draw_fresh (x : Nat) (s : State) : (s.draw x).fresh = s.fresh + x := rfl
@[simp] theorem State.draw_sched (x : Nat) (s : State) : (s.draw x).sched = s.sched := rfl

/-! ## State.withSched -/

@[simp] theorem State.withSched_dev (x : List Move) (s : State) : (s.withSched x).dev = s.dev := rfl
@[simp] theorem State.withSched_peers (x : List Move) (s : State) : (s.withSched x).peers = s.peers := rfl
@[simp] theorem State.withSched_host (x : List Move) (s : State) : (s.withSched x).host = s.host := rfl
@[simp] theorem State.withSched_hcs (x : List Move) (s : State) : (s.withSched x).hcs = s.hcs := rfl
@[simp] theorem State.withSched_bus (x : List Move) (s : State) : (s.withSched x).bus = s.bus := rfl
@[simp] theorem State.withSched_foreign (x : List Move) (s : State) : (s.withSched x).foreign = s.foreign := rfl
@[simp] theorem State.withSched_client (x : List Move) (s : State) : (s.withSched x).client = s.client := rfl
@[simp] theorem State.withSched_fresh (x : List Move) (s : State) : (s.withSched x).fresh = s.fresh := rfl
@[simp] theorem State.withSched_sched (x : List Move) (s : State) : (s.withSched x).sched = x := rfl

/-! ## State.withJob -/

@[simp] theorem State.withJob_dev (x : Job) (s : State) : (s.withJob x).dev = s.dev := rfl
@[simp] theorem State.withJob_peers (x : Job) (s : State) : (s.withJob x).peers = s.peers := rfl
@[simp] theorem State.withJob_host (x : Job) (s : State) : (s.withJob x).host = s.host := rfl
@[simp] theorem State.withJob_hcs (x : Job) (s : State) : (s.withJob x).hcs = s.hcs := rfl
@[simp] theorem State.withJob_bus (x : Job) (s : State) : (s.withJob x).bus = s.bus := rfl
@[simp] theorem State.withJob_foreign (x : Job) (s : State) : (s.withJob x).foreign = s.foreign := rfl
@[simp] theorem State.withJob_client (x : Job) (s : State) : (s.withJob x).client = { s.client with job := x } := rfl
@[simp] theorem State.withJob_fresh (x : Job) (s : State) : (s.withJob x).fresh = s.fresh := rfl
@[simp] theorem State.withJob_sched (x : Job) (s : State) : (s.withJob x).sched = s.sched := rfl

end Sys2Proof.Machine
end

