-- ==== Sys2Proof/Laws/Ops.lean ====
section
/-! SUPPORT. What each shared operation can do, said once: the taking of a bus event and of a fault, an application answer, the focus, and the bitmask wraparound. -/

namespace Sys2Proof.Machine

/-- Taking an event answers exactly the rule's device in front. -/
theorem takeEvent_next {rule : Device → Device} {s t : State} :
    takeEvent rule s = .next t ↔ t = s.withDev (rule s.dev) := by
  simp [takeEvent, eq_comm]

/-- An armed event answers a next state exactly when its mode is armed, and then the rule's device in front. -/
theorem takeArmed_next {mode : BitVec 3} {rule : Device → Device} {s t : State} :
    takeArmed mode rule s = .next t ↔ s.dev.bm = mode ∧ t = s.withDev (rule s.dev) := by
  unfold takeArmed
  split <;> simp_all [takeEvent, eq_comm]

/-- An application answer is the operation's device with the value returned. -/
theorem answerApp_next {v : AppReturn} {rule : Device → Device} {s t : State} :
    answerApp v rule s = .next t ↔ t = s.withDev ((rule s.dev).giveApp v) := by
  simp [answerApp, eq_comm]

/-- Taking a fault answers the state that keeps its record (R170). -/
theorem raise_next {r : FaultRecord} {s t : State} : raise r s = .next t ↔ t = s.withDev (s.dev.keepFault r) := by
  simp [raise, eq_comm]

/-- Everything an application read can do: the fault of an empty ring, or the oldest byte (R121). -/
theorem execAppRead_next {s t : State} :
    execAppRead s = .next t ↔
      t = s.withDev (if s.dev.rx.count = 0 then s.dev.keepFault (.readEmpty (mkWord 0x5#4 0#8))
        else (s.dev.withRx (s.dev.rx.drop s.dev.cfg.rxLog2.val)).giveApp (.byte s.dev.rx.front)) := by
  unfold execAppRead
  split
  · exact raise_next
  · exact answerApp_next

/-- Everything an application queue can do: the fault of a full ring, or the byte pushed (R122). -/
theorem execAppQueue_next {b : Byte} {s t : State} :
    execAppQueue b s = .next t ↔
      t = s.withDev (if s.dev.tx.count = s.dev.txCap then s.dev.keepFault (.queueFull (mkWord 0x6#4 b))
        else (s.dev.withTx (s.dev.tx.push s.dev.cfg.txLog2.val b)).giveApp .nothing) := by
  unfold execAppQueue
  split
  · exact raise_next
  · exact answerApp_next

/-- The bitmask wraparound is the remainder (R51, R53). -/
theorem nextIndex_eq (log2 i : Nat) : nextIndex log2 i = (i + 1) % 2 ^ log2 := by
  simp [nextIndex]

/-- What an exchange with a device of the list leaves: the same devices, the one asked for in front. -/
theorem swapIn_some {a : PeerAddr} {d q : Device} {ps qs : List Device}
    (h : swapIn a d ps = some (q, qs)) : q.addr = a ∧ (q :: qs).Perm (d :: ps) := by
  induction ps generalizing q qs with
  | nil => simp [swapIn] at h
  | cons p ps ih =>
    unfold swapIn at h
    split at h
    · next ha =>
      simp only [Option.some.injEq, Prod.mk.injEq] at h
      obtain ⟨rfl, rfl⟩ := h
      exact ⟨ha, List.Perm.swap d p ps⟩
    · split at h
      · cases h
      · next q' qs' hrec =>
        simp only [Option.some.injEq, Prod.mk.injEq] at h
        obtain ⟨rfl, rfl⟩ := h
        obtain ⟨ha, hp⟩ := ih hrec
        exact ⟨ha, (List.Perm.swap p q' qs').trans ((hp.cons p).trans (List.Perm.swap d p ps))⟩

/-- Everything a change of the device in front can do: the same devices, the one asked for in front, the rest of the state untouched. -/
theorem State.focus_some {a : PeerAddr} {s t : State} (h : s.focus a = some t) :
    t.dev.addr = a ∧ t.devices.Perm s.devices ∧ t.host = s.host ∧ t.hcs = s.hcs ∧ t.bus = s.bus ∧
      t.client = s.client ∧ t.fresh = s.fresh ∧ t.sched = s.sched := by
  unfold State.focus at h
  split at h
  · next ha => cases h; exact ⟨ha, List.Perm.refl _, rfl, rfl, rfl, rfl, rfl, rfl⟩
  · split at h
    · cases h
    · next d ps hs =>
      simp only [Option.some.injEq] at h
      subst h
      obtain ⟨ha, hp⟩ := swapIn_some hs
      exact ⟨ha, hp, rfl, rfl, rfl, rfl, rfl, rfl⟩

/-- Issuing a host operation answers exactly the begun operation. -/
theorem execHostCmd1_next {d : Descriptor} {s t : State} :
    execHostCmd1 d s = .next t ↔
      s.hcs.ready = true ∧ descriptorOk s.host d = true ∧ t = s.withHcs (s.hcs.begin d 0) := by
  unfold execHostCmd1
  split
  · next hr =>
    split
    · next hd => simp only [hr, hd, true_and, Host.Outcome.next.injEq, eq_comm]
    · next hd => simp [hd]
  · next hr => simp [hr]

/-- Issuing a multi-byte host operation answers exactly the begun operation with the caller's buffer. -/
theorem execHostCmdN_next {d : Descriptor} {r : ReplyRequest} {s t : State} :
    execHostCmdN d r s = .next t ↔
      s.hcs.ready = true ∧ (descriptorOk s.host d && replyOk s.host r) = true ∧
        t = s.withHcs { s.hcs.begin d r.n with buf := r.buf } := by
  unfold execHostCmdN
  split
  · next hr =>
    split
    · next hd => simp only [hr, hd, true_and, Host.Outcome.next.injEq, eq_comm]
    · next hd => simp only [hd, false_and, and_false, reduceCtorEq, Bool.false_eq_true]
  · next hr => simp [hr]

end Sys2Proof.Machine
end

