-- ==== Sys2Proof/Laws/Bus.lean ====
section
/-! SUPPORT. What a bus event and a delivery of the bus can do: an event changes the device in front alone and keeps its configuration, and a delivery is
that event at the addressed device, every other device and the order of the devices as before (42_host_sequencer.md R142, 70_reset_and_hazards.md R184). -/

namespace Sys2Proof.Machine

open Config

/-- `f` at the devices with the address `a`. -/
def Device.onlyAt (a : PeerAddr) (f : Device → Device) (d : Device) : Device := if d.addr = a then f d else d

/-- `f` at every device. -/
def State.mapDevices (f : Device → Device) (s : State) : State := { s with dev := f s.dev, peers := s.peers.map f }

@[simp] theorem State.mapDevices_devices (f : Device → Device) (s : State) :
    (s.mapDevices f).devices = s.devices.map f := rfl
@[simp] theorem State.mapDevices_host (f : Device → Device) (s : State) : (s.mapDevices f).host = s.host := rfl
@[simp] theorem State.mapDevices_hcs (f : Device → Device) (s : State) : (s.mapDevices f).hcs = s.hcs := rfl
@[simp] theorem State.mapDevices_bus (f : Device → Device) (s : State) : (s.mapDevices f).bus = s.bus := rfl
@[simp] theorem State.mapDevices_foreign (f : Device → Device) (s : State) : (s.mapDevices f).foreign = s.foreign := rfl
@[simp] theorem State.mapDevices_client (f : Device → Device) (s : State) : (s.mapDevices f).client = s.client := rfl
@[simp] theorem State.mapDevices_fresh (f : Device → Device) (s : State) : (s.mapDevices f).fresh = s.fresh := rfl
@[simp] theorem State.mapDevices_sched (f : Device → Device) (s : State) : (s.mapDevices f).sched = s.sched := rfl

/-! ## One event at the device in front -/

/-- Sending the next byte keeps the configuration. -/
@[simp] theorem Device.sendNext_cfg (d : Device) : d.sendNext.cfg = d.cfg := by
  unfold Device.sendNext; split <;> rfl

/-- Ending a write keeps the configuration. -/
@[simp] theorem Device.endWrite_cfg (d : Device) : d.endWrite.cfg = d.cfg := by
  unfold Device.endWrite; split <;> rfl

/-- Taking an address byte keeps the configuration. -/
@[simp] theorem Device.onAddress_cfg (b : Byte) (d : Device) : (d.onAddress b).cfg = d.cfg := by
  unfold Device.onAddress; split
  · split <;> rfl
  · rfl

/-- Taking an acknowledge bit keeps the configuration. -/
@[simp] theorem Device.onAckBit_cfg (b : Byte) (d : Device) : (d.onAckBit b).cfg = d.cfg := by
  unfold Device.onAckBit; split
  · rfl
  · exact d.sendNext_cfg

/-- Taking a data byte keeps the configuration. -/
@[simp] theorem Device.onByteReceived_cfg (b : Byte) (d : Device) : (d.onByteReceived b).cfg = d.cfg := by
  unfold Device.onByteReceived; split <;> rfl

/-- Sending the next byte faults no agent. -/
@[simp] theorem Device.sendNext_speFault (d : Device) : d.sendNext.speFault = d.speFault := by
  unfold Device.sendNext; split <;> rfl

/-- Ending a write faults no agent. -/
@[simp] theorem Device.endWrite_speFault (d : Device) : d.endWrite.speFault = d.speFault := by
  unfold Device.endWrite; split <;> rfl

/-- Taking an address byte faults no agent. -/
@[simp] theorem Device.onAddress_speFault (b : Byte) (d : Device) : (d.onAddress b).speFault = d.speFault := by
  unfold Device.onAddress; split
  · split <;> rfl
  · rfl

/-- Taking an acknowledge bit faults no agent. -/
@[simp] theorem Device.onAckBit_speFault (b : Byte) (d : Device) : (d.onAckBit b).speFault = d.speFault := by
  unfold Device.onAckBit; split
  · rfl
  · exact d.sendNext_speFault

/-- Taking a data byte faults no agent. -/
@[simp] theorem Device.onByteReceived_speFault (b : Byte) (d : Device) : (d.onByteReceived b).speFault = d.speFault := by
  unfold Device.onByteReceived; split <;> rfl

/-- What an armed rule can do when it keeps the configuration, whatever stands around the device in front. -/
theorem takeArmed_frame {mode : BitVec 3} {rule : Device → Device} {s t : State} (hr : ∀ d, (rule d).cfg = d.cfg)
    (h : takeArmed mode rule s = .next t) :
    t = s.withDev t.dev ∧ t.dev.cfg = s.dev.cfg ∧
      ∀ u : State, u.dev = s.dev → takeArmed mode rule u = .next (u.withDev t.dev) := by
  obtain ⟨hb, rfl⟩ := takeArmed_next.1 h
  exact ⟨rfl, hr _, fun u hu => takeArmed_next.2 ⟨hu ▸ hb, by rw [hu]; rfl⟩⟩

/-- A request to an SPE that has faulted is not taken (R170). -/
theorem runRequest_faulted (e : BusEvent) {s : State} (hf : s.dev.speFault ≠ none) :
    runRequest { word := e.word, payload := .none } s = stuck .agentFaulted := by
  have hi : s.dev.speFault.isSome = true := Option.isSome_iff_ne_none.2 hf
  cases e with
  | start =>
    simp [runRequest, decodeRequest, BusEvent.word, decode, dataMustBeZero, State.agentFaulted, Instr.agent, hi]
  | stop =>
    simp [runRequest, decodeRequest, BusEvent.word, decode, dataMustBeZero, State.agentFaulted, Instr.agent, hi]
  | ovf b =>
    simp only [runRequest, decodeRequest, BusEvent.word, decode, keyOp_mkKey, keySt_mkKey, keyData_mkKey]
    have ha : (decodeOvf s.dev.st b).agent = .environment := by unfold decodeOvf; split <;> rfl
    simp [State.agentFaulted, ha, hi]

/-- A request of a start is R100's rule. -/
theorem runRequest_start {s : State} (hf : s.dev.speFault = none) :
    runRequest { word := BusEvent.start.word, payload := .none } s = .next (s.withDev s.dev.onStart) := by
  simp [runRequest, decodeRequest, BusEvent.word, decode, dataMustBeZero, State.agentFaulted, Instr.agent, hf, exec, execEvStart,
    takeEvent]

/-- A request of a stop is R107's rule. -/
theorem runRequest_stop {s : State} (hf : s.dev.speFault = none) :
    runRequest { word := BusEvent.stop.word, payload := .none } s = .next (s.withDev s.dev.onStop) := by
  simp [runRequest, decodeRequest, BusEvent.word, decode, dataMustBeZero, State.agentFaulted, Instr.agent, hf, exec, execEvStop,
    takeEvent]

/-- A request of an overflow is the rule that `ST` selects (R84). -/
theorem runRequest_ovf (b : Byte) {s : State} (hf : s.dev.speFault = none) :
    runRequest { word := (BusEvent.ovf b).word, payload := .none } s = exec (decodeOvf s.dev.st b) s := by
  simp only [runRequest, decodeRequest, BusEvent.word, decode, keyOp_mkKey, keySt_mkKey, keyData_mkKey]
  have ha : (decodeOvf s.dev.st b).agent = .environment := by unfold decodeOvf; split <;> rfl
  simp [State.agentFaulted, ha, hf]

/-- What the raising of a fault can do, whatever stands around the device in front. -/
theorem raise_frame {r : FaultRecord} {s t : State} (h : raise r s = .next t) :
    t = s.withDev t.dev ∧ t.dev.cfg = s.dev.cfg ∧ ∀ u : State, u.dev = s.dev → raise r u = .next (u.withDev t.dev) := by
  obtain rfl := raise_next.1 h
  exact ⟨rfl, Device.keepFault_cfg r s.dev, fun u hu => raise_next.2 (by rw [hu]; rfl)⟩

/-- Everything an event can do: only an SPE that has not faulted takes it; it changes the device in front alone, keeps its configuration, and depends on nothing
else. -/
theorem runRequest_event {e : BusEvent} {s t : State} (h : runRequest { word := e.word, payload := .none } s = .next t) :
    s.dev.speFault = none ∧ t = s.withDev t.dev ∧ t.dev.cfg = s.dev.cfg ∧
      ∀ u : State, u.dev = s.dev → runRequest { word := e.word, payload := .none } u = .next (u.withDev t.dev) := by
  by_cases hf : s.dev.speFault = none
  swap
  · rw [runRequest_faulted e hf] at h; cases h
  refine ⟨hf, ?_⟩
  cases e with
  | start =>
    rw [runRequest_start hf] at h; cases h
    exact ⟨rfl, s.dev.endWrite_cfg, fun u hu => by rw [runRequest_start (hu ▸ hf), hu]; rfl⟩
  | stop =>
    rw [runRequest_stop hf] at h; cases h
    exact ⟨rfl, s.dev.endWrite_cfg, fun u hu => by rw [runRequest_stop (hu ▸ hf), hu]; rfl⟩
  | ovf b =>
    rw [runRequest_ovf b hf] at h
    suffices k : t = s.withDev t.dev ∧ t.dev.cfg = s.dev.cfg ∧
        ∀ u : State, u.dev = s.dev → exec (decodeOvf s.dev.st b) u = .next (u.withDev t.dev) from
      ⟨k.1, k.2.1, fun u hu => by rw [runRequest_ovf b (hu ▸ hf), hu]; exact k.2.2 u hu⟩
    unfold decodeOvf at h ⊢
    split at h
    · exact takeArmed_frame (Device.onAddress_cfg b) h
    · exact takeArmed_frame Device.sendNext_cfg h
    · exact takeArmed_frame (fun _ => rfl) h
    · exact takeArmed_frame (Device.onAckBit_cfg b) h
    · exact takeArmed_frame (fun _ => rfl) h
    · exact takeArmed_frame (Device.onByteReceived_cfg b) h
    all_goals exact raise_frame h

/-! ## One delivery -/

/-- No device of the list has the address: nothing changes. -/
theorem map_onlyAt_of_notMem {a : PeerAddr} {ps : List Device} (h : a ∉ ps.map Device.addr) (f : Device → Device) :
    ps.map (Device.onlyAt a f) = ps :=
  (List.map_congr_left fun q hq => if_neg fun hqa => h (List.mem_map.2 ⟨q, hq, hqa⟩)).trans (List.map_id ps)

/-- With distinct addresses the exchange puts `x` in the place of the device asked for. -/
theorem swapIn_eq {x d : Device} {ps : List Device} (hn : (ps.map Device.addr).Nodup) (hd : d ∈ ps) :
    swapIn d.addr x ps = some (d, ps.map (Device.onlyAt d.addr fun _ => x)) := by
  induction ps with
  | nil => cases hd
  | cons p ps ih =>
    rw [List.map_cons, List.nodup_cons] at hn
    unfold swapIn
    by_cases hp : p.addr = d.addr
    · have hdp : d = p := (List.mem_cons.1 hd).resolve_right fun h => hn.1 (List.mem_map.2 ⟨d, h, hp.symm⟩)
      subst hdp
      rw [if_pos rfl, List.map_cons, map_onlyAt_of_notMem hn.1]
      simp [Device.onlyAt]
    · have hd' : d ∈ ps := (List.mem_cons.1 hd).resolve_left fun h => hp (h ▸ rfl)
      rw [if_neg hp, ih hn.2 hd', List.map_cons]
      simp [Device.onlyAt, hp]

/-- With distinct addresses, bringing a device to the front, changing it, and bringing the old front back changes that device in its place. -/
theorem State.focus_roundtrip {s : State} {d : Device} (hn : s.addresses.Nodup) (hd : d ∈ s.devices) :
    ∃ u, s.focus d.addr = some u ∧ u.dev = d ∧ ∀ e : Device, e.cfg = d.cfg →
      (u.withDev e).focus s.dev.addr = some (s.mapDevices (Device.onlyAt d.addr fun _ => e)) := by
  simp only [State.addresses, State.devices, List.map_cons, List.nodup_cons] at hn
  obtain ⟨hfront, hrest⟩ := hn
  by_cases h : s.dev.addr = d.addr
  · have hsd : d = s.dev := (List.mem_cons.1 hd).resolve_right fun hd => hfront (List.mem_map.2 ⟨d, hd, h.symm⟩)
    subst hsd
    refine ⟨s, if_pos rfl, rfl, fun e he => ?_⟩
    have hea : e.addr = s.dev.addr := congrArg DeviceConfig.slaveAddr he
    simp only [State.focus, State.withDev_dev, hea, if_true, State.mapDevices, map_onlyAt_of_notMem hfront]
    simp [Device.onlyAt, State.withDev]
  · have hd' : d ∈ s.peers := (List.mem_cons.1 hd).resolve_left fun hd => h (hd ▸ rfl)
    refine ⟨{ s with dev := d, peers := s.peers.map (Device.onlyAt d.addr fun _ => s.dev) }, ?_, rfl, fun e he => ?_⟩
    · simp only [State.focus, if_neg h, swapIn_eq hrest hd']
    · have hea : e.addr = d.addr := congrArg DeviceConfig.slaveAddr he
      have hback : ∀ ps : List Device, s.dev.addr ∉ ps.map Device.addr → d ∈ ps → (ps.map Device.addr).Nodup →
          swapIn s.dev.addr e (ps.map (Device.onlyAt d.addr fun _ => s.dev)) =
            some (s.dev, ps.map (Device.onlyAt d.addr fun _ => e)) := by
        intro ps
        induction ps with
        | nil => intro _ hm _; cases hm
        | cons p ps ih =>
          intro hf hm hnd
          rw [List.map_cons, List.mem_cons, not_or] at hf
          rw [List.map_cons, List.nodup_cons] at hnd
          by_cases hp : p.addr = d.addr
          · have hps : d.addr ∉ ps.map Device.addr := hp ▸ hnd.1
            rw [List.map_cons, List.map_cons, map_onlyAt_of_notMem hps, map_onlyAt_of_notMem hps]
            simp [Device.onlyAt, hp, swapIn]
          · have hm' : d ∈ ps := (List.mem_cons.1 hm).resolve_left fun h => hp (h ▸ rfl)
            have hps : ¬ p.addr = s.dev.addr := fun h => hf.1 h.symm
            rw [List.map_cons, List.map_cons]
            simp only [Device.onlyAt, if_neg hp, swapIn, if_neg hps]
            rw [ih hf.2 hm' hnd.2]
      have hne : ¬ e.addr = s.dev.addr := fun k => h (k.symm.trans hea)
      simp only [State.focus, State.withDev_dev, State.withDev_peers, if_neg hne, hback _ hfront hd' hrest,
        State.mapDevices, Device.onlyAt, if_neg h]
      rfl

/-- Everything a delivery does when its event is taken without a fault: the event at the device it is for, in its place; every other device as before; and the
byte that stood in `BM_BYTE` read where the master reads one. -/
theorem deliver_next {x : Delivery} {tx : Transaction} {s : State} {d e : Device} (hn : s.addresses.Nodup)
    (hd : d ∈ s.devices) (hx : x.target = d.addr) (hb : x.event.isOvf = true → d.bm ≠ bmReleased)
    (he : runRequest { word := x.event.word, payload := .none } (s.withDev d) = .next (s.withDev e)) (hf : e.speFault = none) :
    deliver x tx s =
      .next ((s.mapDevices (Device.onlyAt d.addr fun _ => e)).withBus (some (tx.delivered x d.bmByte))) := by
  obtain ⟨u, hu, hud, hback⟩ := State.focus_roundtrip hn hd
  obtain ⟨hdf, -, hcfg, hloc⟩ := runRequest_event he
  unfold deliver
  rw [hx, hu]
  simp only [hud]
  rw [if_neg fun h => h.elim (fun h => h hdf) fun h => hb h.1 h.2, hloc u (by rw [hud]; rfl)]
  simp only [State.withDev_dev, if_pos hf, hback e hcfg, Option.getD_some]

/-- Everything a delivery does when its event faults the SPE it is for (R108, R170): that device keeps the record, every other device is as before, and the
transaction goes on without the event. -/
theorem deliver_raise {x : Delivery} {tx : Transaction} {s : State} {d e : Device} (hn : s.addresses.Nodup)
    (hd : d ∈ s.devices) (hx : x.target = d.addr) (hb : x.event.isOvf = true → d.bm ≠ bmReleased)
    (he : runRequest { word := x.event.word, payload := .none } (s.withDev d) = .next (s.withDev e)) (hf : e.speFault ≠ none) :
    deliver x tx s = .next (passBy x tx (s.mapDevices (Device.onlyAt d.addr fun _ => e))) := by
  obtain ⟨u, hu, hud, hback⟩ := State.focus_roundtrip hn hd
  obtain ⟨hdf, -, hcfg, hloc⟩ := runRequest_event he
  unfold deliver
  rw [hx, hu]
  simp only [hud]
  rw [if_neg fun h => h.elim (fun h => h hdf) fun h => hb h.1 h.2, hloc u (by rw [hud]; rfl)]
  simp only [State.withDev_dev, if_neg hf, hback e hcfg, Option.getD_some]

/-- Everything a delivery does when its event passes the SPE by: no device changes, and the transaction goes on without it. -/
theorem deliver_passBy {x : Delivery} {tx : Transaction} {s : State} {d : Device} (hn : s.addresses.Nodup)
    (hd : d ∈ s.devices) (hx : x.target = d.addr)
    (hb : d.speFault ≠ none ∨ (x.event.isOvf = true ∧ d.bm = bmReleased)) : deliver x tx s = .next (passBy x tx s) := by
  obtain ⟨u, hu, hud, -⟩ := State.focus_roundtrip hn hd
  unfold deliver
  rw [hx, hu]
  simp only [hud, if_pos hb]

end Sys2Proof.Machine
end

