-- ==== Sys2Proof/Laws/Memory.lean ====
section
/-! SUPPORT. Ring storage: what a read sees after a write, and that writing keeps the canonical form. -/

namespace Sys2Proof.Machine

/-- Weakening of the lower bound in the canonical form. -/
theorem Memory.wfAbove_weaken {lo hi : Nat} (h : lo ≤ hi) {m : Memory}
    (hm : Memory.wfAbove (some hi) m = true) : Memory.wfAbove (some lo) m = true := by
  cases m with
  | nil => rfl
  | cons c t =>
    simp only [Memory.wfAbove, Bool.and_eq_true, decide_eq_true_eq] at hm ⊢
    exact ⟨⟨by omega, hm.1.2⟩, hm.2⟩

/-- Without a bound the canonical form is no stronger. -/
theorem Memory.wfAbove_none {lo : Option Nat} {m : Memory} (hm : Memory.wfAbove lo m = true) :
    Memory.wfAbove none m = true := by
  cases m with
  | nil => rfl
  | cons c t =>
    cases lo with
    | none => exact hm
    | some lo =>
      simp only [Memory.wfAbove, Bool.and_eq_true, decide_eq_true_eq] at hm ⊢
      exact ⟨hm.1.2, hm.2⟩

/-- An index at or below the bound is not listed. -/
theorem Memory.read_of_wfAbove {lo : Nat} {m : Memory} (hm : Memory.wfAbove (some lo) m = true)
    {a : Nat} (ha : a ≤ lo) : Memory.read m a = Config.unwritten := by
  induction m generalizing lo with
  | nil => rfl
  | cons c t ih =>
    simp only [Memory.wfAbove, Bool.and_eq_true, decide_eq_true_eq] at hm
    have hne : ¬ c.1 = a := by omega
    simp only [Memory.read, if_neg hne]
    exact ih hm.2 (by omega)

/-- A write leaves every other index alone; the memory need not be canonical. -/
theorem Memory.read_write_other {a b : Nat} (h : b ≠ a) (m : Memory) (v : Byte) :
    Memory.read (Memory.write m a v) b = Memory.read m b := by
  have hab : ¬ a = b := fun e => h e.symm
  induction m with
  | nil => unfold Memory.write; split <;> simp [Memory.read, hab]
  | cons c t ih =>
    obtain ⟨k, w⟩ := c
    by_cases h1 : a < k
    · by_cases hv : v = Config.unwritten <;> simp [Memory.write, Memory.read, h1, hv, hab]
    · by_cases h2 : a = k
      · subst h2
        by_cases hv : v = Config.unwritten <;> simp [Memory.write, Memory.read, hv, hab]
      · simp [Memory.write, Memory.read, h1, h2, ih]

/-- A read of the index just written gives the byte written, in canonical memory. -/
theorem Memory.read_write_same {lo : Option Nat} {m : Memory} (hm : Memory.wfAbove lo m = true)
    (a : Nat) (v : Byte) : Memory.read (Memory.write m a v) a = v := by
  induction m generalizing lo with
  | nil =>
    unfold Memory.write
    split
    · next hv => simp [Memory.read, hv]
    · simp [Memory.read]
  | cons c t ih =>
    obtain ⟨k, w⟩ := c
    have ht : Memory.wfAbove (some k) t = true := by
      cases lo <;> simp only [Memory.wfAbove, Bool.and_eq_true] at hm <;> exact hm.2
    by_cases h1 : a < k
    · by_cases hv : v = Config.unwritten
      · simpa [Memory.write, Memory.read, h1, hv, Nat.ne_of_gt h1] using
          Memory.read_of_wfAbove ht (Nat.le_of_lt h1)
      · simp [Memory.write, Memory.read, h1, hv]
    · by_cases h2 : a = k
      · subst h2
        by_cases hv : v = Config.unwritten
        · simpa [Memory.write, hv] using Memory.read_of_wfAbove ht (Nat.le_refl a)
        · simp [Memory.write, Memory.read, hv]
      · have hka : ¬ k = a := fun e => h2 e.symm
        simp [Memory.write, Memory.read, h1, h2, hka, ih ht]

/-- Writing above the bound keeps the canonical form above it. -/
theorem Memory.write_wfAbove {lo : Option Nat} {m : Memory} (hm : Memory.wfAbove lo m = true)
    {a : Nat} (ha : ∀ l, lo = some l → l < a) (v : Byte) :
    Memory.wfAbove lo (Memory.write m a v) = true := by
  induction m generalizing lo with
  | nil =>
    unfold Memory.write
    split
    · rfl
    · next hv => cases lo <;> simp_all [Memory.wfAbove]
  | cons c t ih =>
    obtain ⟨k, w⟩ := c
    have ht : Memory.wfAbove (some k) t = true := by
      cases lo <;> simp only [Memory.wfAbove, Bool.and_eq_true] at hm <;> exact hm.2
    by_cases h1 : a < k
    · by_cases hv : v = Config.unwritten
      · simpa [Memory.write, h1, hv] using hm
      · cases lo <;> simp_all [Memory.write, Memory.wfAbove]
    · by_cases h2 : a = k
      · subst h2
        by_cases hv : v = Config.unwritten
        · cases lo with
          | none => simpa [Memory.write, hv] using Memory.wfAbove_none ht
          | some l =>
            simpa [Memory.write, hv] using
              Memory.wfAbove_weaken (Nat.le_of_lt (ha l rfl)) ht
        · cases lo <;> simp_all [Memory.write, Memory.wfAbove]
      · have hk : k < a := by omega
        have hrec := ih ht (fun l hl => by cases hl; exact hk)
        have hw : Memory.write ((k, w) :: t) a v = (k, w) :: Memory.write t a v := by
          simp [Memory.write, h1, h2]
        rw [hw]
        cases lo <;> simp_all [Memory.wfAbove]

/-- A write keeps the canonical form: the one memory operation that changes storage. -/
theorem Memory.write_wf {m : Memory} (hm : Memory.wf m = true) (a : Nat) (v : Byte) :
    Memory.wf (Memory.write m a v) = true :=
  Memory.write_wfAbove hm (fun _ h => by cases h) v

/-- A write inside a storage of `cap` elements lists nothing outside it. -/
theorem Memory.write_within {cap a : Nat} {m : Memory} (hm : Memory.within cap m = true)
    (ha : a < cap) (v : Byte) : Memory.within cap (Memory.write m a v) = true := by
  induction m with
  | nil => unfold Memory.write; split <;> simp [Memory.within, ha]
  | cons c t ih =>
    obtain ⟨k, w⟩ := c
    have hk : k < cap := by simp_all [Memory.within]
    have ht : Memory.within cap t = true := by
      simp only [Memory.within, List.all_cons, Bool.and_eq_true] at hm ⊢
      exact hm.2
    have hcons : ∀ (c : Host.Cell) (l : Memory), c.1 < cap → Memory.within cap l = true →
        Memory.within cap (c :: l) = true := by
      intro c l hc hl
      simp only [Memory.within, List.all_cons, Bool.and_eq_true, decide_eq_true_eq] at hl ⊢
      exact ⟨hc, hl⟩
    unfold Memory.write
    split_ifs
    · exact hcons _ _ hk ht
    · exact hcons _ _ ha (hcons _ _ hk ht)
    · exact ht
    · exact hcons _ _ ha ht
    · exact hcons _ _ hk (ih ht)

/-- Reset memory is canonical. -/
theorem Memory.wf_nil : Memory.wf [] = true := rfl

end Sys2Proof.Machine
end

