-- ==== Sys2Proof/Laws/PerInstr.lean ====
section
/-! SUPPORT. Facts about every operation as syntax, one lemma for each constructor: the family InTable says that an operation's row stands in the opcode
table and that an operation selected by `ST` is a bus event (30_encoding.md R84, R85). -/

namespace Sys2Proof.Laws.InTable

/-- The row of the operation is in opcode_table.json, its pattern lies inside its mask, and only the environment's operations are selected by `ST`. -/
def Statement (i : Instr) : Prop :=
  rowOf i ∈ opcodeTable ∧ (rowOf i).pattern &&& (rowOf i).mask = (rowOf i).pattern ∧
    ((selectedIn i).isSome = true → i.agent = .environment)

theorem evStart : Statement .evStart := by unfold Statement; decide
theorem evOvfAwaitAddress (d : Byte) : Statement (.evOvfAwaitAddress d) := ⟨by simp only [rowOf]; decide, by simp only [rowOf]; decide, fun _ => rfl⟩
theorem evOvfSendDataByte (d : Byte) : Statement (.evOvfSendDataByte d) := ⟨by simp only [rowOf]; decide, by simp only [rowOf]; decide, fun _ => rfl⟩
theorem evOvfAwaitAckAfterSend (d : Byte) : Statement (.evOvfAwaitAckAfterSend d) := ⟨by simp only [rowOf]; decide, by simp only [rowOf]; decide, fun _ => rfl⟩
theorem evOvfCheckReceivedAck (d : Byte) : Statement (.evOvfCheckReceivedAck d) := ⟨by simp only [rowOf]; decide, by simp only [rowOf]; decide, fun _ => rfl⟩
theorem evOvfReceiveDataByte (d : Byte) : Statement (.evOvfReceiveDataByte d) := ⟨by simp only [rowOf]; decide, by simp only [rowOf]; decide, fun _ => rfl⟩
theorem evOvfStoreByteAndAck (d : Byte) : Statement (.evOvfStoreByteAndAck d) := ⟨by simp only [rowOf]; decide, by simp only [rowOf]; decide, fun _ => rfl⟩
theorem evOvfInvalidState (low : BitVec 1) (d : Byte) : Statement (.evOvfInvalidState low d) :=
  ⟨by simp only [rowOf]; decide, by simp only [rowOf]; decide, fun _ => rfl⟩
theorem evStop : Statement .evStop := by unfold Statement; decide
theorem appAvailable : Statement .appAvailable := by unfold Statement; decide
theorem appRead : Statement .appRead := by unfold Statement; decide
theorem appQueue (b : Byte) : Statement (.appQueue b) := ⟨by simp only [rowOf]; decide, by simp only [rowOf]; decide, fun h => by cases h⟩
theorem appTxCount : Statement .appTxCount := by unfold Statement; decide
theorem hostCmd1 (d : Descriptor) : Statement (.hostCmd1 d) := ⟨by simp only [rowOf]; decide, by simp only [rowOf]; decide, fun h => by cases h⟩
theorem hostCmdN (d : Descriptor) (r : ReplyRequest) : Statement (.hostCmdN d r) :=
  ⟨by simp only [rowOf]; decide, by simp only [rowOf]; decide, fun h => by cases h⟩

end Sys2Proof.Laws.InTable
end

