-- ==== Sys2Proof/Tests/Slice0.lean ====
section
/-! SUPPORT. The model's own tests: ill-formed operations, words of spec/30_encoding.md and 95_test_vectors.md, one step of each instruction from the vectors of
95_test_vectors.md (their names stand beside the theorems), and for each statement with hypotheses a case that meets them. -/

open Sys2Proof Sys2Proof.Machine Sys2Proof.Config

namespace Sys2Proof.Tests

/-! ## Small states -/

/-- Reset, with the device in front changed. -/
def onDev (f : Device → Device) : State := State.reset.withDev (f State.reset.dev)

/-- Reset, with the SPE standing in (`st`, `bm`). -/
def standing (st bm : BitVec 3) : State := onDev (Device.goTo st bm)

/-- Reset, with the receive ring `r`. -/
def withRxRing (r : Ring) (s : State) : State := s.withDev (s.dev.withRx r)

/-- Reset, with the transmit ring `r`. -/
def withTxRing (r : Ring) (s : State) : State := s.withDev (s.dev.withTx r)

/-- `0/0/4`, full. -/
def ringFull : Ring := { mem := [(0, 1#8), (1, 2#8), (2, 3#8), (3, 4#8)], head := 0, tail := 0, count := 4 }

/-- `3/0/3`: room for one more. -/
def ringNearlyFull : Ring := { mem := [(0, 1#8), (1, 2#8), (2, 3#8)], head := 3, tail := 0, count := 3 }

/-- `2/0/2 [33, 44]` of V40-14. -/
def ringTwo : Ring := { mem := [(0, 0x33#8), (1, 0x44#8)], head := 2, tail := 0, count := 2 }

/-- `1/3/2 [MEM3 = 0x10, MEM0 = 0x20]` of V41-4. -/
def ringWrapped : Ring := { mem := [(0, 0x20#8), (3, 0x10#8)], head := 1, tail := 3, count := 2 }

/-- The registers an SPE vector names. -/
def speView (s : State) : BitVec 3 × BitVec 3 × List Notification := (s.dev.st, s.dev.bm, s.dev.ntf)

/-- Reset, with the application faulted by a read of an empty ring (V41-2). -/
def faulted : State := onDev (Device.keepFault (.readEmpty 0x500#12))

/-- `ST` 6, with the SPE faulted by an overflow there (V40-29). -/
def faultedSpe : State := (standing 6 0).withDev ((standing 6 0).dev.keepFault (.stateInvalid 0x6200#15))

/-- The descriptor of V42-1. -/
def descInit : Descriptor := { addr := 10#8, cmds := [0x81#8], echo := 0x7E#8 }

/-- The descriptor of V42-7. -/
def descStatus : Descriptor := { addr := 10#8, cmds := [0x82#8], echo := 0x7D#8 }

/-- The reply request of V42-7. -/
def threeBytes : ReplyRequest := { n := 3, buf := [0xEE#8, 0xEE#8, 0xEE#8] }

/-- Reset, with HCS registers `h` and the schedule `l`. -/
def hostAt (h : Hcs) (l : List Move) : State := (State.reset.withHcs h).withSched l

/-- An HCS in `WRITE` with the commands `cs`, of which `i` are sent. -/
def writing (cs : List Byte) (i : Nat) : Hcs :=
  { Hcs.boot with phase := .write, addr := 10#7, cmds := cs, idx := i, echo := 0x7E#8 }

/-- An HCS in `READ` with the echo 0x7D, for `n` bytes into `b`. -/
def reading (n : Nat) (b : List Byte) : Hcs :=
  { Hcs.boot with phase := .read, addr := 10#7, cmds := [0x82#8], idx := 1, echo := 0x7D#8, n := n, buf := b }

/-- Reset of a bus with the devices 10 and 38, with HCS registers `h` and the schedule `l`. -/
def twoDevices (h : Hcs) (l : List Move) : State :=
  ((State.resetWith exampleDevice [{ exampleDevice with slaveAddr := 38#7 }] exampleHost).withHcs h).withSched l

/-- A transaction that carries the call `c`, with nothing left to deliver. -/
def carried (c : TransportCall) (bytes : List Byte) : Transaction :=
  { call := c, todo := [], acked := true, seq := bytes, broken := false }

/-- An HCS in `DONE` with the result `r`. -/
def finished (r : HsResult) : Hcs := { Hcs.boot with phase := .done, result := r }

/-- A client step offered with the program `j` under way and the HCS registers `h`. -/
def clientAt (j : Job) (h : Hcs) : State := (hostAt h [.clientStep]).withJob j

/-! ## Well-formedness -/

theorem test_wf_accepts :
    (Instr.hostCmd1 descInit).wf exampleHost = true ∧ (Instr.hostCmdN descStatus threeBytes).wf exampleHost = true := by decide
theorem test_wf_no_command : (Instr.hostCmd1 { descInit with cmds := [] }).wf exampleHost = false := by decide
theorem test_wf_too_many_commands :
    (Instr.hostCmd1 { descInit with cmds := List.replicate 17 0#8 }).wf exampleHost = false := by decide
theorem test_wf_address_over_127 : (Instr.hostCmd1 { descInit with addr := 128#8 }).wf exampleHost = false := by decide
theorem test_wf_no_reply : (Instr.hostCmdN descStatus { n := 0, buf := [] }).wf exampleHost = false := by decide
theorem test_wf_reply_too_long :
    (Instr.hostCmdN descStatus { n := 17, buf := List.replicate 17 0#8 }).wf exampleHost = false := by decide
theorem test_wf_buffer_size : (Instr.hostCmdN descStatus { n := 3, buf := [0#8] }).wf exampleHost = false := by decide

/-! ## Words (R83 to R86; 95_test_vectors.md 2.1) -/

theorem test_decode_start : decode 0b000_0001_00000000#15 .none = .ok .evStart := rfl
theorem test_decode_ovf_address : decode 0b000_0010_00010101#15 .none = .ok (.evOvfAwaitAddress 0x15#8) := rfl
theorem test_decode_ovf_send : decode 0b001_0010_00000000#15 .none = .ok (.evOvfSendDataByte 0x00#8) := rfl
theorem test_decode_ovf_sent : decode 0b010_0010_10101011#15 .none = .ok (.evOvfAwaitAckAfterSend 0xAB#8) := rfl
theorem test_decode_ovf_ack : decode 0b011_0010_00000001#15 .none = .ok (.evOvfCheckReceivedAck 0x01#8) := rfl
theorem test_decode_ovf_receive : decode 0b100_0010_00000000#15 .none = .ok (.evOvfReceiveDataByte 0x00#8) := rfl
theorem test_decode_ovf_store : decode 0b101_0010_01000001#15 .none = .ok (.evOvfStoreByteAndAck 0x41#8) := rfl
theorem test_decode_ovf_invalid :
    decode 0b110_0010_00000000#15 .none = .ok (.evOvfInvalidState 0#1 0x00#8) ∧
    decode 0b111_0010_11111111#15 .none = .ok (.evOvfInvalidState 1#1 0xFF#8) := ⟨rfl, rfl⟩
theorem test_decode_stop : decode 0b000_0011_00000000#15 .none = .ok .evStop := rfl
theorem test_decode_available : decode 0b000_0100_00000000#15 .none = .ok .appAvailable := rfl
theorem test_decode_read : decode 0b000_0101_00000000#15 .none = .ok .appRead := rfl
theorem test_decode_queue :
    decode 0b000_0110_00000000#15 .none = .ok (.appQueue 0x00#8) ∧ decode 0b101_0110_11111111#15 .none = .ok (.appQueue 0xFF#8) := ⟨rfl, rfl⟩
theorem test_decode_tx_count : decode 0b000_0111_00000000#15 .none = .ok .appTxCount := rfl
theorem test_decode_cmd1 : decode 0b000_1000_00000000#15 (.one descInit) = .ok (.hostCmd1 descInit) := rfl
theorem test_decode_cmdn :
    decode 0b000_1001_00000000#15 (.many descStatus threeBytes) = .ok (.hostCmdN descStatus threeBytes) := rfl
theorem test_decode_refusals :
    decode 0x101#15 .none = .error .nonzeroData ∧ decode 0x4FF#15 .none = .error .nonzeroData ∧
    decode 0x801#15 (.one descInit) = .error .nonzeroData ∧ decode 0x000#15 .none = .error .reservedOp ∧
    decode 0x0FF#15 .none = .error .reservedOp ∧ decode 0xA00#15 .none = .error .reservedOp ∧
    decode 0xF12#15 .none = .error .reservedOp ∧ decode 0x800#15 .none = .error .badDescriptor :=
  ⟨rfl, rfl, rfl, rfl, rfl, rfl, rfl, rfl⟩
theorem test_encode_words :
    encodeWord .evStart = 0x100#12 ∧ encodeWord (.evOvfStoreByteAndAck 0x41#8) = 0x241#12 ∧ encodeWord .evStop = 0x300#12 ∧
    encodeWord (.appQueue 0x7E#8) = 0x67E#12 ∧ encodeWord (.hostCmd1 descInit) = 0x800#12 ∧
    encodeKey 0#3 (.evOvfInvalidState 1#1 0xFF#8) = 0x72FF#15 := by decide
/-- R90, V42-1 -/
theorem test_trace_lines :
    Instr.evStart.traceLine = "start" ∧ (Instr.appQueue 0x7E#8).traceLine = "app.queue 0x7E" ∧
    (Instr.hostCmd1 descInit).traceLine = "host.cmd1 addr=10 cmds=[0x81] echo=0x7E" ∧
    wordText (encodeWord (.appQueue 0x7E#8)) = "W=0x67E" := by decide
/-- The tables' own example (95_test_vectors.md 2.1): 0x5241 is `STORE_BYTE_AND_ACK`, not the invalid-state row. -/
theorem test_table_word : decodeTableWord 16 0x5241 = some (.evOvfStoreByteAndAck 0x41#8) := rfl
theorem test_fetch_word_reads :
    (nextOf (step (State.reset.withFetchWord 16 0x0500))).map (fun t => t.dev.appFault) = some (some (.readEmpty 0x500#12)) := by decide
theorem test_fetch_word_stores :
    (nextOf (step (State.reset.withFetchWord 16 0x5241))).map (fun t => (t.dev.st, t.dev.rx.mem)) = some (4#3, [(0, 0x41#8)]) := by decide

/-! ## Bus events (95_test_vectors.md 2.3) -/

/-- V40-2 -/
theorem test_start_ends_write : (nextOf (exec .evStart (standing 5 1))).map speView = some (0#3, 1#3, [.rcv]) := by decide
/-- V40-30 -/
theorem test_start_from_invalid : (nextOf (exec .evStart (standing 7 0))).map speView = some (0#3, 1#3, []) := by decide
/-- V40-5, V40-6 -/
theorem test_address_selects :
    (nextOf (exec (.evOvfAwaitAddress 0x14#8) (standing 0 1))).map speView = some (4#3, 3#3, []) ∧
    (nextOf (exec (.evOvfAwaitAddress 0x15#8) (standing 0 1))).map speView = some (1#3, 3#3, [.req]) := by decide
/-- V40-7, V40-8 -/
theorem test_address_of_another :
    (nextOf (exec (.evOvfAwaitAddress 0x16#8) (standing 0 1))).map speView = some (0#3, 0#3, []) ∧
    (nextOf (exec (.evOvfAwaitAddress 0x00#8) (standing 0 1))).map speView = some (0#3, 0#3, []) := by decide
/-- V40-11 -/
theorem test_send_filler :
    (nextOf (exec (.evOvfSendDataByte 0x00#8) (standing 1 3))).map (fun t => (t.dev.st, t.dev.bm, t.dev.bmByte, t.dev.tx)) =
      some (2#3, 4#3, 0xFF#8, Ring.empty) := by decide
/-- V40-12 -/
theorem test_byte_sent : (nextOf (exec (.evOvfAwaitAckAfterSend 0x5A#8) (standing 2 4))).map speView = some (3#3, 2#3, []) := by decide
/-- V40-14, V40-15 -/
theorem test_ack_sends_next :
    (nextOf (exec (.evOvfCheckReceivedAck 0xFE#8) (withTxRing ringTwo (standing 3 2)))).map
      (fun t => (t.dev.st, t.dev.bmByte, t.dev.tx.tail, t.dev.tx.count)) = some (2#3, 0x33#8, 1, 1) := by decide
/-- V40-13 -/
theorem test_nack_ends_read :
    (nextOf (exec (.evOvfCheckReceivedAck 0x01#8) (withTxRing ringTwo (standing 3 2)))).map
      (fun t => (t.dev.st, t.dev.bm, t.dev.tx)) = some (0#3, 0#3, ringTwo) := by decide
/-- V40-18 -/
theorem test_ack_sent : (nextOf (exec (.evOvfReceiveDataByte 0x00#8) (standing 4 3))).map speView = some (5#3, 1#3, []) := by decide
/-- V40-20 -/
theorem test_full_ring_drops :
    (nextOf (exec (.evOvfStoreByteAndAck 0x41#8) (withRxRing ringFull (standing 5 1)))).map
      (fun t => (t.dev.st, t.dev.bm, t.dev.rx, t.dev.rxOvf)) = some (4#3, 3#3, ringFull, true) := by decide
/-- V40-21 -/
theorem test_store_wraps :
    (nextOf (exec (.evOvfStoreByteAndAck 0x99#8) (withRxRing { mem := [], head := 3, tail := 1, count := 2 } (standing 5 1)))).map
      (fun t => (t.dev.rx, t.dev.rxOvf)) = some ({ mem := [(3, 0x99#8)], head := 0, tail := 1, count := 3 }, false) := by decide
/-- V40-29 -/
theorem test_invalid_state_faults :
    (nextOf (exec (.evOvfInvalidState 0#1 0x00#8) (standing 6 0))).map (fun t => t.dev) =
      some { (standing 6 0).dev with speFault := some (.stateInvalid 0x6200#15) } := by decide
/-- V40-24 -/
theorem test_stop_ends_write : (nextOf (exec .evStop (standing 5 1))).map speView = some (0#3, 0#3, [.rcv]) := by decide
/-- V40-28 -/
theorem test_stop_cuts_read : (nextOf (exec .evStop (standing 3 2))).map speView = some (0#3, 0#3, []) := by decide

/-! ## Application operations (95_test_vectors.md 2.4) -/

/-- V41-1 -/
theorem test_available : (nextOf (exec .appAvailable State.reset)).map (fun t => t.dev.appRet) = some (.count 0) := by decide
/-- V41-2 -/
theorem test_read_empty_faults :
    (nextOf (exec .appRead State.reset)).map (fun t => t.dev) =
      some { State.reset.dev with appFault := some (.readEmpty 0x500#12) } := by decide
/-- V41-4 -/
theorem test_read_wraps :
    (nextOf (exec .appRead (withRxRing ringWrapped State.reset))).map (fun t => (t.dev.appRet, t.dev.rx)) =
      some (.byte 0x10#8, { ringWrapped with tail := 0, count := 1 }) := by decide
/-- V41-5 -/
theorem test_queue_full_faults :
    (nextOf (exec (.appQueue 0x7E#8) (withTxRing ringFull State.reset))).map (fun t => t.dev) =
      some { (withTxRing ringFull State.reset).dev with appFault := some (.queueFull 0x67E#12) } := by decide
/-- V41-8: the byte 0 is a byte like any other, and the cell it leaves reads 0. -/
theorem test_queue_wraps :
    (nextOf (exec (.appQueue 0x00#8) (withTxRing { mem := [], head := 3, tail := 3, count := 0 } State.reset))).map
      (fun t => t.dev.tx) = some { mem := [], head := 0, tail := 3, count := 1 } := by decide
/-- V41-9 -/
theorem test_tx_count :
    (nextOf (exec .appTxCount (withTxRing { mem := [], head := 0, tail := 3, count := 1 } State.reset))).map
      (fun t => t.dev.appRet) = some (.count 1) := by decide

/-! ## Faulted agents (R170) -/

/-- The SPE of a device goes on beside its faulted application. -/
theorem test_spe_outlives_application :
    (nextOf (step (faulted.withSched [.request { word := 0x100#12, payload := .none }]))).map speView = some (0#3, 1#3, []) := by decide
/-- The faulted application takes no step. -/
theorem test_faulted_application_has_no_move :
    faultOf (step (faulted.withSched [.request { word := 0x400#12, payload := .none }])) = some (.noMove .agentFaulted) := by decide
/-- A start passes a faulted SPE by. -/
theorem test_event_passes_faulted_spe :
    (nextOf (step (faultedSpe.withSched [.request { word := 0x100#12, payload := .none }]))).map (fun t => t.dev) =
      some faultedSpe.dev := by decide
/-- A device reset clears no fault record, and a run with one is never over (R203). -/
theorem test_fault_is_kept :
    (nextOf (step (faulted.withSched [.resetDevice]))).map (fun t => t.dev.appFault) = some (some (.readEmpty 0x500#12)) ∧
    faulted.runOver = false ∧ State.reset.runOver = true := by decide
/-- The bus goes on past the event that faults its SPE. -/
theorem test_bus_goes_on_past_fault :
    (nextOf (step (((standing 6 1).withBus (some { carried (.probe 10#7) [] with todo := [toOne 10#7 0x14#8 .acknowledge] })).withSched
      [.bus]))).map (fun t => (t.dev.speFault, t.bus.map fun x => (x.todo, x.broken))) =
      some (some (.stateInvalid 0x6214#15), some ([], true)) := by decide

/-! ## Host (95_test_vectors.md 2.5, 2.7) -/

/-- V42-1's issue. -/
theorem test_cmd1_issues :
    (nextOf (exec (.hostCmd1 descInit) State.reset)).map (fun t => (t.hcs.phase, t.hcs.addr, t.hcs.cmds, t.hcs.n, t.hcs.pendingCall)) =
      some (.write, 10#7, [0x81#8], 0, some (.writeByte 10#7 0x81#8)) := by decide
/-- V42-14, V42-16, V42-17 -/
theorem test_cmd1_refused :
    refusalIn (exec (.hostCmd1 { descInit with cmds := [] }) State.reset) = some .badDescriptor ∧
    refusalIn (exec (.hostCmd1 { descInit with addr := 128#8 }) State.reset) = some .badDescriptor ∧
    faultOf (exec (.hostCmd1 descInit) (hostAt (writing [0x81#8] 0) [])) = some (.noMove .hostBusy) := by decide
/-- V42-7's issue. -/
theorem test_cmdn_issues :
    (nextOf (exec (.hostCmdN descStatus threeBytes) State.reset)).map (fun t => (t.hcs.phase, t.hcs.n, t.hcs.buf)) =
      some (.write, 3, [0xEE#8, 0xEE#8, 0xEE#8]) := by decide
/-- V42-15 -/
theorem test_cmdn_refused :
    refusalIn (exec (.hostCmdN descStatus { n := 0, buf := [] }) State.reset) = some .badDescriptor := by decide
/-- V42-8 -/
theorem test_short_reply :
    (nextOf (step (hostAt (reading 3 [0xEE#8, 0xEE#8, 0xEE#8]) [.transport (.bytes [0x7D#8, 1#8])]))).map
      (fun t => (t.hcs.result, t.hcs.buf, t.hcs.k)) = some (.errMultiLength, [0x7D#8, 1#8, 0xEE#8], 2) := by decide
/-- V42-12 -/
theorem test_one_byte_content :
    (nextOf (step (hostAt (reading 1 [0xEE#8]) [.transport (.bytes [0x00#8])]))).map (fun t => t.hcs.result) =
      some .errMultiContent := by decide
/-- V42-5's second write. -/
theorem test_second_write_nack :
    (nextOf (step (hostAt (writing [0x85#8, 0x01#8] 1) [.transport (.ack false)]))).map
      (fun t => (t.hcs.phase, t.hcs.result, t.hcs.idx)) = some (.done, .errTransaction, 1) := by decide
/-- V42-23's events and its bytes so far: the script of a 2-byte read from address 10. -/
theorem test_read_script :
    (busScript [10#7] (.requestBytes 10#7 2)).map (fun d => d.event) =
      [.start, .ovf 0x15#8, .ovf 0#8, .ovf 0#8, .ovf 0x00#8, .ovf 0#8, .ovf 0x01#8, .stop] := by decide
/-- R145: the bus takes up no call while another master's transaction is open. -/
theorem test_open_foreign_transaction :
    refusalIn (step ((hostAt (writing [0x81#8] 0) [.bus]).withForeign [10#7])) = some .secondMaster := by decide
/-- R145: an offered start opens another master's transaction, and its stop ends it. -/
theorem test_foreign_record :
    (nextOf (step (hostAt Hcs.boot [.request { word := 0x100#12, payload := .none }]))).map (fun t => t.foreign) = some [10#7] ∧
    (nextOf (step ((hostAt Hcs.boot [.request { word := 0x300#12, payload := .none }]).withForeign [10#7]))).map
      (fun t => t.foreign) = some [] := by decide
/-- R143: a byte lost in a read that is already acknowledged leaves the read its length; a lost acknowledgement leaves the answer open. -/
theorem test_lost_events :
    ((carried (.requestBytes 10#7 2) [1#8]).missed (toOne 10#7 0#8 .byte) 9#8).broken = false ∧
    ((carried (.requestBytes 10#7 2) [1#8]).missed (toOne 10#7 0#8 .byte) 9#8).answer 0 = .bytes [1#8, 9#8] ∧
    ((carried (.requestBytes 10#7 2) []).missed (toOne 10#7 0#8 .acknowledge) 9#8).broken = true := by decide
/-- V42-20 -/
theorem test_probe_script_of_another :
    (busScript [10#7] (.probe 11#7)).map (fun d => d.event) = [.start, .ovf 0x16#8, .stop] := by decide
/-- V45-1, V45-4 -/
theorem test_pages :
    pageCount 4 0 = 0 ∧ pageCount 4 5 = 2 ∧ pageOf 4 [1#8, 2#8, 3#8, 4#8, 5#8] 1 = [5#8] := by decide
/-- E6 -/
theorem test_status_decode :
    decodeStatus .le [0x7D#8, 84#8, 1#8, 3#8, 0#8, 0#8, 0x1A#8, 0#8, 0#8, 0x1A#8, 0xFE#8] =
      { signature := 84#8, major := 1#8, minor := 3#8, features := 0#8, bootStart := 0x1A00#16, appStart := 0#16, trampoline := 0xFE1A#16 } := by decide
/-- V45-12's entry. -/
theorem test_scan_entry :
    queriedEntry exampleHost 12#7 .ok { DeviceStatus.unknown with signature := 83#8, major := 2#8 } =
      { addr := 12#7, tag := .unknown, major := 2#8, minor := 0#8 } := by decide
/-- V45-9's second half: an acknowledging bootloader address is found as such. -/
theorem test_find_first :
    (nextOf (step (clientAt (.find 35#7 (.settle true)) Hcs.boot))).map (fun t => t.client.findResult) =
      some (some (.found 35#7 false)) := by decide
/-- V45-13 -/
theorem test_open_twice :
    ((Client.boot.openConn 10#7 .noDedicatedLines none).openConn 10#7 .noDedicatedLines none).openResult = some .addressConflict := by decide

/-! ## Cases that meet the hypotheses of each statement -/

/-- The invariant holds of a machine with a byte in each ring, an operation in progress and a held address. -/
def lively : State :=
  { State.reset with
    dev := { Device.boot exampleDevice with st := 5#3, bm := 1#3, rx := ringFull, tx := ringWrapped }
    peers := [Device.boot { exampleDevice with slaveAddr := 38#7 }]
    hcs := writing [0x83#8, 1#8] 1
    client := { Client.boot with held := [10#7], conns := [{ addr := 10#7, ownsTransport := true, blockSize := some 4 }] } }

theorem ringFull_ok : ringFull.Ok 2 := ⟨by decide, by decide, by decide, by decide, by decide⟩
theorem ringNearlyFull_ok : ringNearlyFull.Ok 2 := ⟨by decide, by decide, by decide, by decide, by decide⟩
theorem ringTwo_ok : ringTwo.Ok 2 := ⟨by decide, by decide, by decide, by decide, by decide⟩
theorem ringWrapped_ok : ringWrapped.Ok 2 := ⟨by decide, by decide, by decide, by decide, by decide⟩
theorem ringEmpty_ok : Ring.empty.Ok 2 := ⟨by decide, by decide, by decide, by decide, by decide⟩

/-- An idle device in front with `tx` queued meets `Device.Ok`. -/
theorem idle_ok {tx : Ring} (h : tx.Ok 2) : (withTxRing tx State.reset).dev.Ok := ⟨.head _, ringEmpty_ok, h, rfl⟩

theorem lively_ok : lively.Ok := by
  refine ⟨?_, ⟨by decide, by decide, by decide, by decide, by decide, by decide⟩, ⟨by decide, by decide⟩, fun h => absurd rfl h⟩
  intro d hd
  simp only [State.devices, lively, List.mem_cons, List.not_mem_nil, or_false] at hd
  obtain rfl | rfl := hd
  · exact ⟨by decide, ringFull_ok, ringWrapped_ok, rfl⟩
  · exact ⟨by decide, ringEmpty_ok, ringEmpty_ok, rfl⟩

theorem witness_DecodeSelectsByState : (0x1#4 ≠ 0x2#4) ∧ (0xF#4 ≠ 0x2#4) := by decide
theorem witness_DecodedKeyHasOneRow :
    decode 0x5241#15 .none = .ok (.evOvfStoreByteAndAck 0x41#8) ∧ (⟨0x7F00#15, 0x5200#15⟩ : TableRow) ∈ opcodeTable ∧
    rowTakes ⟨0x7F00#15, 0x5200#15⟩ 0x5241#15 = true := ⟨rfl, by decide, by decide⟩
theorem witness_EveryTableKeyDecodes :
    (⟨0x6F00#15, 0x6200#15⟩ : TableRow) ∈ opcodeTable ∧ rowTakes ⟨0x6F00#15, 0x6200#15⟩ 0x7200#15 = true ∧
    rowTakes ⟨0x0FFF#15, 0x0900#15⟩ 0x7900#15 = true := by decide
theorem witness_RefusesReservedWords :
    let s := fun op => State.reset.withSched [.request { word := mkWord op 1#8, payload := .none }]
    refusalIn (step (s 0x0#4)) = some .reservedOp ∧ refusalIn (step (s 0xA#4)) = some .reservedOp ∧
    refusalIn (step (s 0xF#4)) = some .reservedOp ∧ refusalIn (step (s 0x1#4)) = some .nonzeroData ∧
    refusalIn (step (s 0x9#4)) = some .nonzeroData := by decide
theorem witness_StepRunsDecodedInstruction :
    (hostAt Hcs.boot [.request { word := 0x100#12, payload := .none }]).sched = [.request { word := 0x100#12, payload := .none }] ∧
    decodeRequest (hostAt Hcs.boot []).dev.st { word := 0x100#12, payload := .none } = .ok .evStart ∧
    ¬ (Instr.evStart.agent = .environment ∧ (hostAt Hcs.boot []).bus ≠ none) ∧
    ¬ (Instr.evStart.agent = .hostCaller ∧ (hostAt Hcs.boot []).client.job ≠ .idle) ∧
    ¬ (Instr.evStart.agent = .environment ∧ (hostAt Hcs.boot []).dev.speFault ≠ none) ∧
    ¬ (Instr.appRead.agent = .application ∧ (hostAt Hcs.boot []).dev.appFault ≠ none) ∧
    nextOf (exec .evStart (hostAt Hcs.boot [])) ≠ none ∧
    faultOf (exec (.evOvfAwaitAddress 0#8) (hostAt Hcs.boot [])) = some (.noMove .overflowNotArmed) ∧
    refusalIn (exec (.hostCmd1 { descInit with cmds := [] }) (hostAt Hcs.boot [])) = some .badDescriptor :=
  ⟨rfl, rfl, by decide, by decide, by decide, by decide, by decide, by decide, by decide⟩
theorem witness_BarredRequestsDoNotRun :
    refusalIn (step ((State.reset.withBus (some { call := .probe 10#7, todo := [], acked := true, seq := [], broken := false })).withSched
      [.request { word := 0x300#12, payload := .none }])) = some .secondMaster ∧
    faultOf (step ((State.reset.withJob (.find 8#7 .probe)).withSched
      [.request { word := 0x800#12, payload := .one descInit }])) = some (.noMove .clientBusy) ∧
    decodeRequest 0#3 { word := 0x300#12, payload := .none } = .ok .evStop ∧
    decodeRequest 0#3 { word := 0x800#12, payload := .one descInit } = .ok (.hostCmd1 descInit) ∧
    decodeRequest faultedSpe.dev.st { word := 0x300#12, payload := .none } = .ok .evStop ∧ Instr.evStop.agent = .environment ∧
    faultedSpe.bus = none ∧ faultedSpe.dev.speFault ≠ none ∧
    decodeRequest faulted.dev.st { word := 0x400#12, payload := .none } = .ok .appAvailable ∧
    Instr.appAvailable.agent = .application ∧ faulted.dev.appFault ≠ none :=
  ⟨by decide, by decide, rfl, rfl, rfl, rfl, rfl, by decide, rfl, rfl, by decide⟩
theorem witness_OvfAddressResult : (standing 0 1).dev.bm = 1#3 ∧ (standing 0 0).dev.bm ≠ 1#3 := by decide
theorem witness_OvfSendDataResult : (standing 1 3).dev.bm = 3#3 ∧ (standing 1 4).dev.bm ≠ 3#3 := by decide
theorem witness_OvfByteSentResult : (standing 2 4).dev.bm = 4#3 ∧ (standing 2 0).dev.bm ≠ 4#3 := by decide
theorem witness_OvfAckBitResult :
    (standing 3 2).dev.bm = 2#3 ∧ (0x01#8).getLsbD 0 = true ∧ (0xFE#8).getLsbD 0 = false ∧ (standing 3 0).dev.bm ≠ 2#3 := by decide
theorem witness_OvfAckSentResult : (standing 4 3).dev.bm = 3#3 ∧ (standing 4 0).dev.bm ≠ 3#3 := by decide
theorem witness_OvfByteReceivedResult :
    (standing 5 1).dev.bm = 1#3 ∧ (withRxRing ringNearlyFull (standing 5 1)).dev.rx.count < 2 ^ exampleDevice.rxLog2.val ∧
    2 ^ exampleDevice.rxLog2.val ≤ (withRxRing ringFull (standing 5 1)).dev.rx.count ∧ (standing 5 0).dev.bm ≠ 1#3 := by decide
theorem witness_ReleasedOverflowHasNoMove :
    (standing 0 0).dev.bm = 0#3 ∧ (standing 0 0).dev.st ≤ 5#3 ∧ (standing 5 0).dev.bm = 0#3 ∧ (standing 5 0).dev.st ≤ 5#3 ∧
    (standing 0 0).dev.speFault = none := by decide
theorem witness_EventsStayInDefinedStates :
    ((standing 0 0).dev.st, (standing 0 0).dev.bm) ∈ legalPairs ∧ BusEvent.start.isOvf ≠ true ∧
    ((standing 5 1).dev.st, (standing 5 1).dev.bm) ∈ legalPairs ∧ (standing 5 1).dev.bm ≠ 0#3 ∧
    (standing 0 0).dev.speFault = none ∧ (standing 5 1).dev.speFault = none := by decide
theorem witness_BusEventFrame :
    (Instr.evOvfStoreByteAndAck 9#8).agent = .environment ∧ nextOf (exec (.evOvfStoreByteAndAck 9#8) (standing 5 1)) ≠ none ∧
    (standing 5 1).dev.rx.count < 2 ^ exampleDevice.rxLog2.val ∧
    nextOf (exec (.evOvfStoreByteAndAck 9#8) (withRxRing ringFull (standing 5 1))) ≠ none ∧
    2 ^ exampleDevice.rxLog2.val ≤ (withRxRing ringFull (standing 5 1)).dev.rx.count ∧
    Instr.evStop.agent = .environment ∧ nextOf (exec .evStop (standing 4 3)) ≠ none ∧
    (Instr.evOvfInvalidState 0#1 9#8).agent = .environment ∧
    nextOf (exec (.evOvfInvalidState 0#1 9#8) (standing 6 0)) ≠ none := by decide
theorem witness_AppReadResult : ringWrapped.count ≠ 0 ∧ State.reset.dev.rx.count = 0 := by decide
theorem witness_AppQueueResult :
    ringNearlyFull.count ≠ 2 ^ exampleDevice.txLog2.val ∧ ringFull.count = 2 ^ exampleDevice.txLog2.val := by decide
theorem witness_AppOperationFrame :
    (Instr.appQueue 9#8).agent = .application ∧ nextOf (exec (.appQueue 9#8) State.reset) ≠ none ∧
    Instr.appRead.agent = .application ∧ nextOf (exec .appRead (withRxRing ringTwo State.reset)) ≠ none ∧
    ringTwo.count ≠ 0 ∧ State.reset.dev.rx.count = 0 ∧ State.reset.dev.tx.count ≠ 2 ^ exampleDevice.txLog2.val ∧
    ringFull.count = 2 ^ exampleDevice.txLog2.val := by decide
theorem witness_RingOwnership :
    nextOf (exec (.evOvfStoreByteAndAck 9#8) (standing 5 1)) ≠ none ∧ nextOf (exec (.appQueue 9#8) State.reset) ≠ none := by decide
theorem witness_CheckedUseDoesNotFault :
    (∀ i ∈ [Instr.evStop, Instr.evStart], i.agent = .environment) ∧
    (nextOf (exec .appAvailable (withRxRing ringFull State.reset))).map (fun t => t.dev.appRet) = some (.count 4) ∧
    (nextOf (exec .appTxCount (withTxRing ringNearlyFull State.reset))).map (fun t => t.dev.appRet) = some (.count 3) ∧
    3 < 2 ^ exampleDevice.txLog2.val ∧ nextOf (execAll [.evStop, .evStart] State.reset) ≠ none := by decide
theorem witness_RingPushEffect :
    Memory.wf ringNearlyFull.mem = true ∧ ringNearlyFull.count < 2 ^ 2 ∧ Ring.empty.count < 2 ^ 0 := by decide
theorem witness_RingInvariantKept : ringNearlyFull.Ok 2 ∧ ringNearlyFull.count < 2 ^ 2 ∧ 0 < ringFull.count ∧ ringFull.Ok 2 :=
  ⟨ringNearlyFull_ok, by decide, by decide, ringFull_ok⟩
theorem witness_RingIsFifo : ringWrapped.Ok 2 ∧ ringWrapped.count < 2 ^ 2 ∧ 0 < ringWrapped.count :=
  ⟨ringWrapped_ok, by decide, by decide⟩
theorem witness_OverflowFlagIsSticky :
    (nextOf (exec (.evOvfStoreByteAndAck 9#8) (withRxRing ringFull (standing 5 1)))).map (fun t => t.dev.rxOvf) = some true ∧
    (withRxRing ringFull (standing 5 1)).dev.rxOvf = false ∧ (Device.boot exampleDevice).flagOverflow.rxOvf = true := by decide
theorem witness_WriteTransactionEffect : (withTxRing ringTwo State.reset).dev.Ok ∧ (withTxRing ringTwo State.reset).dev.st = 0#3 :=
  ⟨idle_ok ringTwo_ok, rfl⟩
theorem witness_ReadTransactionEffect : (withTxRing ringTwo State.reset).dev.Ok ∧ (withTxRing ringTwo State.reset).dev.st = 0#3 :=
  ⟨idle_ok ringTwo_ok, rfl⟩
theorem witness_OtherAddressTransactionEffect :
    State.reset.dev.st = 0#3 ∧ State.reset.dev.speFault = none ∧ (0x16#8 : Byte) ≠ exampleDevice.slaveAddr ++ 0#1 ∧ (0x16#8 : Byte) ≠ exampleDevice.slaveAddr ++ 1#1 := by decide
theorem witness_HostCmd1Result :
    State.reset.hcs.phase = .idle ∧ (hostAt (finished .ok) []).hcs.phase = .done ∧ 1 ≤ descInit.cmds.length ∧
    (List.replicate 16 0#8).length ≤ exampleHost.maxCmdLen ∧ (127#8).toNat ≤ 127 := by decide
theorem witness_HostCmdNResult :
    State.reset.hcs.phase = .idle ∧ 1 ≤ descStatus.cmds.length ∧ descStatus.cmds.length ≤ exampleHost.maxCmdLen ∧
    descStatus.addr.toNat ≤ 127 ∧ 1 ≤ threeBytes.n ∧ threeBytes.n ≤ exampleHost.maxReplyLen ∧
    threeBytes.buf.length = threeBytes.n := by decide
theorem witness_HostIssueRefusals :
    (hostAt (writing [1#8] 0) []).hcs.phase = .write ∧ (hostAt (reading 0 []) []).hcs.phase = .read ∧
    State.reset.hcs.phase = .idle ∧ ([] : List Byte).length = 0 ∧ exampleHost.maxCmdLen < (List.replicate 17 0#8).length ∧
    127 < (128#8).toNat ∧ exampleHost.maxReplyLen < 17 := by decide
theorem witness_HostOperationFrame :
    (Instr.hostCmd1 descInit).agent = .hostCaller ∧ nextOf (exec (.hostCmd1 descInit) State.reset) ≠ none ∧
    (Instr.hostCmdN descStatus threeBytes).agent = .hostCaller ∧
    nextOf (exec (.hostCmdN descStatus threeBytes) State.reset) ≠ none := by decide
theorem witness_WriteMicroStepResult :
    (let s := hostAt (writing [1#8, 2#8] 0) [.transport (.ack false)]
     s.hcs.phase = .write ∧ s.hcs.idx < s.hcs.cmds.length ∧ s.bus = none ∧ s.sched = [.transport (.ack false)]) ∧
    (let s := hostAt (writing [1#8, 2#8] 0) [.transport (.ack true)]
     s.hcs.phase = .write ∧ s.bus = none ∧ s.sched = [.transport (.ack true)] ∧ s.hcs.idx + 1 < s.hcs.cmds.length) ∧
    (let s := hostAt (writing [1#8, 2#8] 1) [.transport (.ack true)]
     s.hcs.phase = .write ∧ s.bus = none ∧ s.sched = [.transport (.ack true)] ∧ s.hcs.idx + 1 = s.hcs.cmds.length) := by decide
theorem witness_ReadSingleResult :
    (let s := hostAt (reading 0 []) [.transport (.bytes [0x7D#8])]
     s.hcs.phase = .read ∧ s.hcs.n = 0 ∧ s.bus = none ∧ [0x7D#8].length ≤ 1 ∧ s.sched = [.transport (.bytes [0x7D#8])] ∧
     [0x7D#8] = [s.hcs.echo]) ∧
    (let s := hostAt (reading 0 []) [.transport (.bytes [])]
     s.hcs.phase = .read ∧ s.hcs.n = 0 ∧ s.bus = none ∧ s.sched = [.transport (.bytes [])] ∧ ([] : List Byte) ≠ [s.hcs.echo]) := by decide
theorem witness_ReadMultiResult :
    let s := fun seq => hostAt (reading 2 [0#8, 0#8]) [.transport (.bytes seq)]
    (s [0x7D#8]).hcs.phase = .read ∧ 1 ≤ (s [0x7D#8]).hcs.n ∧ (s [0x7D#8]).bus = none ∧ (s [0x7D#8]).sched = [.transport (.bytes [0x7D#8])] ∧
    (s [0x7D#8]).hcs.buf.length = (s [0x7D#8]).hcs.n ∧ [0x7D#8].length ≠ (s [0x7D#8]).hcs.n ∧
    [0x00#8, 1#8].length = (s [0x00#8, 1#8]).hcs.n ∧ [0x00#8, 1#8].head? ≠ some (s [0x00#8, 1#8]).hcs.echo ∧
    [0x7D#8, 1#8].length = (s [0x7D#8, 1#8]).hcs.n ∧ [0x7D#8, 1#8].head? = some (s [0x7D#8, 1#8]).hcs.echo := by decide
theorem witness_ResultOnlyAtDone :
    (nextOf (step (hostAt (reading 0 []) [.transport (.bytes [0x7D#8])]))).map (fun t => (t.hcs.result, t.hcs.phase)) = some (.ok, .done) ∧
    (reading 0 []).result ≠ .ok ∧
    (nextOf (step (hostAt (finished .ok) [.request (encode (.hostCmd1 descInit))]))).map (fun t => t.hcs.phase) = some .write ∧
    (nextOf (step (clientAt (.upload 10#7 [1#8] false (.init false)) (finished .ok)))).map (fun t => t.hcs.phase) = some .write := by
  decide
theorem witness_OperationForgetsPast :
    nextOf (exec (.hostCmd1 descInit) State.reset) ≠ none ∧ nextOf (exec (.hostCmd1 descInit) (hostAt (finished .ok) [])) ≠ none ∧
    nextOf (exec (.hostCmdN descStatus threeBytes) State.reset) ≠ none ∧
    nextOf (exec (.hostCmdN descStatus threeBytes) (hostAt (finished .ok) [])) ≠ none := by decide
theorem witness_ComposedWrite :
    (let s := twoDevices { writing [0x81#8] 0 with addr := 38#7 } (List.replicate 11 .bus)
     s.bus = none ∧ s.foreign = [] ∧ (s.devices.map fun d => d.cfg.slaveAddr).Nodup ∧ (∀ d ∈ s.devices, d.st = 0#3) ∧
     (∀ d ∈ s.devices, d.speFault = none) ∧ s.hcs.phase = .write ∧ s.hcs.cmds[s.hcs.idx]? = some 0x81#8 ∧ s.hcs.addr ∈ s.devices.map (fun d => d.cfg.slaveAddr) ∧
     s.sched = List.replicate (3 * s.devices.length + 5) .bus ++ [] ∧ s.dev.cfg.slaveAddr ≠ s.hcs.addr ∧
     ∀ d ∈ s.peers, d.rx.count < 2 ^ d.cfg.rxLog2.val) ∧
    2 ^ exampleDevice.rxLog2.val ≤ (withRxRing ringFull State.reset).dev.rx.count ∧
    (let s := twoDevices { writing [0x81#8] 0 with addr := 11#7 } (List.replicate 8 .bus)
     s.bus = none ∧ s.foreign = [] ∧ (∀ d ∈ s.devices, d.st = 0#3) ∧
     (∀ d ∈ s.devices, d.speFault = none) ∧ s.hcs.addr ∉ s.devices.map (fun d => d.cfg.slaveAddr) ∧ s.sched = List.replicate (3 * s.devices.length + 2) .bus ++ []) := by
  decide
theorem witness_ComposedRead :
    (let s := withTxRing ringTwo (twoDevices (reading 3 [0#8, 0#8, 0#8]) (List.replicate 15 .bus))
     s.dev.Ok ∧ s.bus = none ∧ s.foreign = [] ∧ (s.devices.map fun d => d.cfg.slaveAddr).Nodup ∧ (∀ d ∈ s.devices, d.st = 0#3) ∧
     (∀ d ∈ s.devices, d.speFault = none) ∧ s.hcs.phase = .read ∧ 3 = (if s.hcs.n = 0 then 1 else s.hcs.n) ∧ s.dev ∈ s.devices ∧ s.dev.cfg.slaveAddr = s.hcs.addr ∧
     s.sched = List.replicate (3 * s.devices.length + 2 * 3 + 3) .bus ++ []) ∧
    (let s := twoDevices { reading 0 [] with addr := 11#7 } (List.replicate 8 .bus)
     1 = (if s.hcs.n = 0 then 1 else s.hcs.n) ∧ s.hcs.addr ∉ s.devices.map (fun d => d.cfg.slaveAddr) ∧
     s.sched = List.replicate (3 * s.devices.length + 2) .bus ++ []) :=
  ⟨⟨idle_ok ringTwo_ok, by decide⟩, by decide⟩
theorem witness_TransactionEventOrder :
    (let s := twoDevices (writing [0x81#8] 0) [.bus]
     s.sched = [.bus] ∧ s.bus = none ∧ s.pendingCall = some (.writeByte 10#7 0x81#8) ∧ s.foreign = [] ∧
     (s.devices.map fun d => d.cfg.slaveAddr).Nodup ∧ (s.withForeign [38#7]).foreign ≠ []) ∧
    (twoDevices (reading 2 [0#8, 0#8]) [.bus]).pendingCall = some (.requestBytes 10#7 2) ∧
    ((twoDevices Hcs.boot [.bus]).withJob (.find 8#7 .probe)).pendingCall = some (.probe 8#7) ∧
    (let s := ((State.resetWith exampleDevice [exampleDevice] exampleHost).withHcs (writing [0x81#8] 0)).withSched [.bus]
     s.sched = [.bus] ∧ s.bus = none ∧ s.pendingCall = some (.writeByte 10#7 0x81#8) ∧
     ¬ (s.devices.map fun d => d.cfg.slaveAddr).Nodup) ∧
    (let s := (twoDevices (reading 2 [0#8, 0#8]) [.bus]).withBus (some (carried (.requestBytes 10#7 2) [1#8, 2#8]))
     s.pendingCall = some (.requestBytes 10#7 2) ∧ s.bus = some (carried (.requestBytes 10#7 2) [1#8, 2#8]) ∧
     (carried (.requestBytes 10#7 2) [1#8, 2#8]).todo = [] ∧ (carried (.requestBytes 10#7 2) [1#8, 2#8]).seq.length ≤ 2) ∧
    (let tx := { carried (.requestBytes 10#7 2) [1#8] with todo := [toOne 10#7 0#8 .byte, toOne 10#7 1#8 .nothing] }
     let s := (twoDevices (reading 2 [0#8, 0#8]) [.bus]).withBus (some tx)
     s.sched = [.bus] ∧ s.bus = some tx ∧ tx.todo = toOne 10#7 0#8 .byte :: [toOne 10#7 1#8 .nothing] ∧
     (toOne 10#7 0#8 .byte).event = .ovf 0#8 ∧ s.dev ∈ s.devices ∧ s.dev.cfg.slaveAddr = (toOne 10#7 0#8 .byte).target ∧
     s.dev.bm = 0#3) ∧
    (let tx := { carried (.probe 10#7) [] with todo := [toOne 10#7 0x14#8 .acknowledge] }
     let s := ((standing 6 1).withBus (some tx)).withSched [.bus]
     s.sched = [.bus] ∧ s.bus = some tx ∧ tx.todo = toOne 10#7 0x14#8 .acknowledge :: [] ∧
     (toOne 10#7 0x14#8 .acknowledge).event = .ovf 0x14#8 ∧ (s.devices.map fun d => d.cfg.slaveAddr).Nodup ∧ s.dev ∈ s.devices ∧
     s.dev.cfg.slaveAddr = (toOne 10#7 0x14#8 .acknowledge).target ∧ s.dev.bm ≠ 0#3 ∧ s.dev.speFault = none ∧ s.dev.st = 6#3) ∧
    faultedSpe.dev.speFault ≠ none ∧ faultedSpe.dev.cfg.slaveAddr = 10#7 := by decide
theorem witness_ResetValues : Device.boot exampleDevice ∈ State.reset.devices := by decide
theorem witness_DeviceResetEffect :
    (nextOf (step ((withRxRing ringFull (standing 5 1)).withSched [.resetDevice]))).map (fun t => (t.dev.st, t.dev.rx.count)) =
      some (0#3, 0) := by decide
theorem witness_HostResetEffect :
    (nextOf (step (lively.withSched [.resetHost]))).map (fun t => (t.hcs.phase, t.client.held)) = some (.idle, []) := by decide
theorem witness_ConfigurationAndFaultsStay :
    nextOf (step (lively.withSched [.focus 38#7])) ≠ none ∧ faulted.dev.appFault ≠ none ∧ faultedSpe.dev.speFault ≠ none ∧
    nextOf (step (faulted.withSched [.request { word := 0x100#12, payload := .none }])) ≠ none ∧
    nextOf (step (faultedSpe.withSched [.request { word := 0x400#12, payload := .none }])) ≠ none := by decide
theorem witness_StepKeepsInvariant : lively.Ok ∧ nextOf (step (lively.withSched [.transport (.ack true)])) ≠ none :=
  ⟨lively_ok, by decide⟩
theorem witness_RegistryRules :
    (10#7 : PeerAddr) ∈ lively.client.held ∧ (38#7 : PeerAddr) ∉ lively.client.held ∧ (38#7 : PeerAddr) ≠ 10#7 := by decide
theorem witness_AddressClasses :
    exampleHost.addrMin = 8#7 ∧ exampleHost.bootMax = 35#7 ∧ exampleHost.appMin = 36#7 ∧ exampleHost.addrMax = 63#7 ∧
    exampleHost.pairOffset = 28#7 ∧
    8 ≤ (8#7).toNat ∧ (8#7).toNat ≤ 35 ∧ (35#7).toNat ≤ 35 ∧ isBootAddr exampleHost 36#7 = false ∧ isAppAddr exampleHost 63#7 = true ∧
    isAppAddr exampleHost 64#7 = false ∧ pairAddr exampleHost 35#7 = some 63#7 := by decide
theorem witness_PagesMakeTheImage : 1 ≤ 4 ∧ 0 + 1 < pageCount 4 5 ∧ 1 + 1 = pageCount 4 5 ∧ 0 + 1 = pageCount 4 4 := by decide
theorem witness_UploadPhaseOrder :
    let s := fun (st : UploadStage) (h : Hcs) => clientAt (.upload 10#7 [1#8] true st) h
    ((s (.init false) Hcs.boot).sched = [.clientStep] ∧ (s (.init false) Hcs.boot).hcs.phase = .idle ∧
      (s (.secondInit false) (finished .ok)).sched = [.clientStep] ∧ (s (.secondInit false) (finished .ok)).hcs.phase = .done ∧
      (s (.init false) Hcs.boot).client.job = .upload 10#7 [1#8] true (if false then .secondInit false else .init false) ∧
      (s (.secondInit false) Hcs.boot).client.job = .upload 10#7 [1#8] true (if true then .secondInit false else .init false)) ∧
    (1 ≤ exampleHost.maxCmdLen ∧ 1 ≤ exampleHost.statusReplyLen ∧ exampleHost.statusReplyLen ≤ exampleHost.maxReplyLen ∧
      (s (.status false) (finished .ok)).client.job = .upload 10#7 [1#8] true (.status false)) ∧
    ((s (.page 0 false) (finished .ok)).client.job = .upload 10#7 [1#8] true (.page 0 false) ∧
      (pageOf exampleHost.pageSize [1#8] 0).length < exampleHost.maxCmdLen) ∧
    ((s .delay (finished .ok)).sched = [.clientStep] ∧ (s .delay (finished .ok)).hcs.phase = .done ∧
      (s .delay (finished .ok)).client.job = .upload 10#7 [1#8] true .delay) ∧
    ((s (.init true) (finished .ok)).hcs.result = .ok ∧ (s (.init true) (finished .ok)).client.job = .upload 10#7 [1#8] true (.init true) ∧
      (s (.init true) (finished .errTransaction)).hcs.phase = .done ∧ (s (.init true) (finished .errTransaction)).hcs.result ≠ .ok ∧
      (s (.secondInit true) (finished .ok)).client.job = .upload 10#7 [1#8] true (.secondInit true) ∧
      (s (.secondInit true) (finished .errSingleMismatch)).hcs.result ≠ .ok) ∧
    ((s (.status true) (finished .ok)).client.job = .upload 10#7 [1#8] true (.status true) ∧
      (s (.status true) (finished .ok)).hcs.result = .ok ∧ 0 < pageCount exampleHost.pageSize [1#8].length ∧
      pageCount exampleHost.pageSize ([] : List Byte).length = 0 ∧ (s (.status true) (finished .errMultiLength)).hcs.result ≠ .ok) := by
  decide
theorem witness_UploadIsFailFast :
    (let s := clientAt (.upload 10#7 [1#8, 2#8, 3#8, 4#8, 5#8] false (.page 0 true)) (finished .ok)
     s.sched = [.clientStep] ∧ s.hcs.phase = .done ∧ s.hcs.result = .ok ∧ 0 + 1 < pageCount s.host.pageSize 5) ∧
    (let s := clientAt (.upload 10#7 [1#8, 2#8, 3#8, 4#8, 5#8] false (.page 1 true)) (finished .ok)
     s.sched = [.clientStep] ∧ s.hcs.phase = .done ∧ s.hcs.result = .ok ∧ pageCount s.host.pageSize 5 ≤ 1 + 1) ∧
    (let s := clientAt (.upload 10#7 [1#8] false (.page 0 true)) (finished .errSingleMismatch)
     s.sched = [.clientStep] ∧ s.hcs.phase = .done ∧ s.hcs.result ≠ .ok) := by decide
theorem witness_FindFirstOrder :
    let s := fun (a : PeerAddr) (ack : Bool) => clientAt (.find a (.settle ack)) Hcs.boot
    (s 61#7 false).sched = [.clientStep] ∧ (s 61#7 false).client.job = .find 61#7 (.settle false) ∧ 61#7 < (s 61#7 false).host.findFirstMax ∧
    ¬ 62#7 < (s 62#7 false).host.findFirstMax ∧ (s 62#7 true).client.job = .find 62#7 (.settle true) := by decide
theorem witness_ScanOrder :
    let s := fun (a : PeerAddr) (st : ScanStage) (h : Hcs) => clientAt (.scan a st []) h
    ((s 36#7 (.probing (.settle true)) Hcs.boot).sched = [.clientStep] ∧
      (s 36#7 (.probing (.settle true)) Hcs.boot).client.job = .scan 36#7 (.probing (.settle true)) [] ∧
      (35#7 : PeerAddr) ≤ exampleHost.bootMax ∧ ¬ 36#7 ≤ exampleHost.bootMax ∧ exampleHost.appMin ≤ 36#7 ∧
      ¬ ({ exampleHost with bootMax := 34#7 } : HostConfig).appMin ≤ 35#7 ∧ 62#7 < exampleHost.addrMax ∧ ¬ 63#7 < exampleHost.addrMax) ∧
    ((s 12#7 .opening Hcs.boot).client.job = .scan 12#7 .opening [] ∧ 12#7 ∉ (s 12#7 .opening Hcs.boot).client.held ∧
      (10#7 : PeerAddr) ∈ lively.client.held) ∧
    ((s 12#7 (.query false) Hcs.boot).client.job = .scan 12#7 (.query false) [] ∧ (s 12#7 (.query false) Hcs.boot).hcs.phase = .idle ∧
      1 ≤ exampleHost.maxCmdLen ∧ 1 ≤ exampleHost.statusReplyLen ∧ exampleHost.statusReplyLen ≤ exampleHost.maxReplyLen) ∧
    ((s 12#7 (.query true) (finished .ok)).client.job = .scan 12#7 (.query true) [] ∧
      (s 12#7 (.query true) (finished .ok)).hcs.phase = .done ∧ (s 12#7 (.query true) (finished .ok)).hcs.result = .ok ∧
      (s 12#7 (.query true) (finished .errMultiLength)).hcs.result ≠ .ok) ∧
    (s 12#7 (.closing (unknownEntry 12#7)) Hcs.boot).client.job = .scan 12#7 (.closing (unknownEntry 12#7)) [] := by decide
theorem witness_StatusQueryResult :
    let s := fun r => clientAt (.query 10#7 true) { finished r with buf := List.replicate 11 0#8 }
    (s .ok).sched = [.clientStep] ∧ (s .ok).client.job = .query 10#7 true ∧ (s .ok).hcs.phase = .done ∧ (s .ok).hcs.result = .ok ∧
    (s .ok).hcs.buf = [0#8, 0#8, 0#8, 0#8, 0#8, 0#8, 0#8, 0#8, 0#8, 0#8, 0#8] ∧ (s .ok).host.wordOrder = .le ∧
    ({ exampleHost with wordOrder := .be } : HostConfig).wordOrder = .be ∧ (s .errMultiLength).hcs.result ≠ .ok := by decide

end Sys2Proof.Tests
end

