-- ==== Sys2Proof/Proofs/Rings.lean ====
section
/-! PROOFS. The ring invariant (10_state.md R30) under push and pop, and the invariants at reset (R37). -/

namespace Sys2Proof.Machine

open Config

/-- An empty ring over any storage of the ring is in order (R30). -/
theorem Ring.ok_of_empty {log2 : Nat} {m : Memory} (hw : Memory.wf m = true) (hi : Memory.within (2 ^ log2) m = true) :
    Ring.Ok log2 { Ring.empty with mem := m } :=
  { count_le := Nat.zero_le _
    tail_lt := Nat.two_pow_pos log2
    head_eq := (Nat.zero_mod _).symm
    mem_wf := hw
    mem_within := hi }

/-- The ring of R37 is in order. -/
theorem Ring.empty_ok (log2 : Nat) : Ring.empty.Ok log2 := Ring.ok_of_empty Memory.wf_nil rfl

/-- A ring's head is an index of its storage. -/
theorem Ring.Ok.head_lt {log2 : Nat} {r : Ring} (h : r.Ok log2) : r.head < 2 ^ log2 :=
  h.head_eq ▸ Nat.mod_lt _ (Nat.two_pow_pos log2)

/-- A push with room keeps the ring invariant (R51, R53). -/
theorem Ring.Ok.push {log2 : Nat} {r : Ring} (h : r.Ok log2) (b : Byte) (hroom : r.count < 2 ^ log2) : (r.push log2 b).Ok log2 where
  count_le := hroom
  tail_lt := h.tail_lt
  head_eq := by
    change nextIndex log2 r.head = (r.tail + (r.count + 1)) % 2 ^ log2
    rw [nextIndex_eq, h.head_eq, Nat.mod_add_mod, Nat.add_assoc]
  mem_wf := Memory.write_wf h.mem_wf _ b
  mem_within := Memory.write_within h.mem_within h.head_lt b

/-- A pop of a pending byte keeps the ring invariant (R52, R53). -/
theorem Ring.Ok.drop {log2 : Nat} {r : Ring} (h : r.Ok log2) (hpending : 0 < r.count) : (r.drop log2).Ok log2 where
  count_le := (Nat.sub_le _ _).trans h.count_le
  tail_lt := by
    change nextIndex log2 r.tail < 2 ^ log2
    rw [nextIndex_eq]
    exact Nat.mod_lt _ (Nat.two_pow_pos log2)
  head_eq := by
    change r.head = (nextIndex log2 r.tail + (r.count - 1)) % 2 ^ log2
    have hsum : r.tail + 1 + (r.count - 1) = r.tail + r.count := by omega
    rw [nextIndex_eq, Nat.mod_add_mod, hsum, h.head_eq]
  mem_wf := h.mem_wf
  mem_within := h.mem_within

/-- A device after its boot is in order, and none of its agents has faulted (R37). -/
theorem Device.boot_ok (c : DeviceConfig) : (Device.boot c).Ok where
  pair := by simp [Device.boot, legalPairs]
  rx := Ring.empty_ok _
  tx := Ring.empty_ok _
  spe_fault := rfl

/-- The HCS after reset is in order (R37, R191; log 2). -/
theorem Hcs.boot_ok (c : HostConfig) : Hcs.boot.Ok c where
  cmds_le := Nat.zero_le _
  idx_le := Nat.zero_le _
  write_idx := nofun
  read_idx := nofun
  n_le := Nat.zero_le _
  buf_len := fun h => absurd rfl h

/-- The client layer after reset is in order (R150, R191). -/
theorem Client.boot_ok : Client.boot.Ok where
  nodup := List.nodup_nil
  held_eq := rfl

/-- The devices after reset are those of the configurations, each after its boot. -/
theorem State.resetWith_devices (d : DeviceConfig) (ps : List DeviceConfig) (h : HostConfig) :
    (State.resetWith d ps h).devices = (d :: ps).map Device.boot := rfl

/-- The machine's invariant holds after reset. -/
theorem State.resetWith_ok (d : DeviceConfig) (ps : List DeviceConfig) (h : HostConfig) : (State.resetWith d ps h).Ok where
  devices := by
    rw [State.resetWith_devices]
    exact List.forall_mem_map.2 fun c _ => Device.boot_ok c
  hcs := Hcs.boot_ok h
  client := Client.boot_ok
  one_transaction := fun _ => rfl

/-- Settles O28, from the two operations' lemmas. -/
theorem ringInvariantKept : Obligations.RingInvariantKept :=
  fun log2 => ⟨Ring.empty_ok log2, fun _ hr => ⟨fun b => hr.push b, hr.drop⟩⟩

/-- Settles O52. -/
theorem resetMeetsInvariant : Obligations.ResetMeetsInvariant := by
  intro d ps h
  refine ⟨State.resetWith_ok d ps h, ?_⟩
  rw [State.resetWith_devices]
  exact List.forall_mem_map.2 fun _ _ => rfl

/-- Settles O47: the devices are booted ones, whose registers are R37's by definition. -/
theorem resetValues : Obligations.ResetValues := by
  intro d ps h
  refine ⟨?_, ?_, rfl, rfl, rfl⟩
  · rw [State.resetWith_devices, List.map_map]
    exact List.map_id _
  · rw [State.resetWith_devices]
    exact List.forall_mem_map.2 fun _ _ => ⟨rfl, rfl, rfl, rfl, rfl, rfl, rfl, rfl, rfl, rfl⟩

end Sys2Proof.Machine
end

