-- ==== Sys2Proof/Proofs/DeviceRules.lean ====
section
/-! PROOFS. What an operation leaves of the device in front, as one function of that device; what each rule of 40_slave_bus_events.md and 41_slave_app_ops.md
leaves alone; and the frames of the bus events and of the application operations. -/

namespace Sys2Proof.Machine

open Config

/-! ## The device an operation leaves -/

/-- The device after an application read (R121). -/
def Device.afterRead (d : Device) : Device :=
  if d.rx.count = 0 then d.keepFault (.readEmpty (mkWord 0x5#4 0#8))
  else (d.withRx (d.rx.drop d.cfg.rxLog2.val)).giveApp (.byte d.rx.front)

/-- The device after an application's queueing of a byte (R122). -/
def Device.afterQueue (b : Byte) (d : Device) : Device :=
  if d.tx.count = d.txCap then d.keepFault (.queueFull (mkWord 0x6#4 b))
  else (d.withTx (d.tx.push d.cfg.txLog2.val b)).giveApp .nothing

/-- The device in front after an operation that has a next state; `exec_dev` ties it to the model. -/
def Device.after (i : Instr) (d : Device) : Device :=
  match i with
  | .evStart => d.onStart
  | .evOvfAwaitAddress b => d.onAddress b
  | .evOvfSendDataByte _ => d.sendNext
  | .evOvfAwaitAckAfterSend _ => d.onByteSent
  | .evOvfCheckReceivedAck b => d.onAckBit b
  | .evOvfReceiveDataByte _ => d.onAckSent
  | .evOvfStoreByteAndAck b => d.onByteReceived b
  | .evOvfInvalidState low b => d.keepFault (.stateInvalid (mkKey (3#2 ++ low) (mkWord 0x2#4 b)))
  | .evStop => d.onStop
  | .appAvailable => d.giveApp (.count d.rx.count)
  | .appRead => d.afterRead
  | .appQueue b => d.afterQueue b
  | .appTxCount => d.giveApp (.count d.tx.count)
  | .hostCmd1 _ => d
  | .hostCmdN _ _ => d

/-- Everything an operation of a device's agent can do: it changes the device in front alone. -/
theorem exec_next_device {i : Instr} {s t : State} (ha : i.agent ≠ .hostCaller) (h : exec i s = .next t) :
    t = s.withDev (s.dev.after i) := by
  cases i with
  | evStart => exact takeEvent_next.1 h
  | evOvfAwaitAddress b => exact (takeArmed_next.1 h).2
  | evOvfSendDataByte b => exact (takeArmed_next.1 h).2
  | evOvfAwaitAckAfterSend b => exact (takeArmed_next.1 h).2
  | evOvfCheckReceivedAck b => exact (takeArmed_next.1 h).2
  | evOvfReceiveDataByte b => exact (takeArmed_next.1 h).2
  | evOvfStoreByteAndAck b => exact (takeArmed_next.1 h).2
  | evOvfInvalidState low b => exact raise_next.1 h
  | evStop => exact takeEvent_next.1 h
  | appAvailable => exact answerApp_next.1 h
  | appRead => exact execAppRead_next.1 h
  | appQueue b => exact execAppQueue_next.1 h
  | appTxCount => exact answerApp_next.1 h
  | hostCmd1 d => exact absurd rfl ha
  | hostCmdN d r => exact absurd rfl ha

/-- What any operation leaves of the device in front. -/
theorem exec_dev {i : Instr} {s t : State} (h : exec i s = .next t) : t.dev = s.dev.after i := by
  by_cases ha : i.agent = .hostCaller
  · cases i with
    | hostCmd1 d => obtain ⟨-, -, rfl⟩ := execHostCmd1_next.1 h; rfl
    | hostCmdN d r => obtain ⟨-, -, rfl⟩ := execHostCmdN_next.1 h; rfl
    | _ => cases ha
  · rw [exec_next_device ha h, State.withDev_dev]

/-! ## What each rule of an event leaves alone -/

/-- Ending a write notifies at most. -/
@[simp] theorem Device.endWrite_frame (d : Device) :
    d.endWrite.bmByte = d.bmByte ∧ d.endWrite.rx = d.rx ∧ d.endWrite.tx = d.tx ∧ d.endWrite.rxOvf = d.rxOvf ∧
      d.endWrite.appRet = d.appRet ∧ d.endWrite.appFault = d.appFault := by
  unfold Device.endWrite; split <;> exact ⟨rfl, rfl, rfl, rfl, rfl, rfl⟩

/-- Taking an address byte moves the SPE and notifies at most. -/
@[simp] theorem Device.onAddress_frame (b : Byte) (d : Device) :
    (d.onAddress b).bmByte = d.bmByte ∧ (d.onAddress b).rx = d.rx ∧ (d.onAddress b).tx = d.tx ∧
      (d.onAddress b).rxOvf = d.rxOvf ∧ (d.onAddress b).appRet = d.appRet ∧ (d.onAddress b).appFault = d.appFault := by
  unfold Device.onAddress; split
  · split <;> exact ⟨rfl, rfl, rfl, rfl, rfl, rfl⟩
  · exact ⟨rfl, rfl, rfl, rfl, rfl, rfl⟩

/-- Sending the next byte removes at most a byte from `TX`, whose storage it does not write. -/
@[simp] theorem Device.sendNext_frame (d : Device) :
    d.sendNext.rx = d.rx ∧ d.sendNext.rxOvf = d.rxOvf ∧ d.sendNext.ntf = d.ntf ∧ d.sendNext.appRet = d.appRet ∧
      d.sendNext.appFault = d.appFault ∧ d.sendNext.tx.head = d.tx.head ∧ d.sendNext.tx.mem = d.tx.mem := by
  unfold Device.sendNext; split <;> exact ⟨rfl, rfl, rfl, rfl, rfl, rfl, rfl⟩

/-- Taking an acknowledge bit sends the next byte at most. -/
@[simp] theorem Device.onAckBit_frame (b : Byte) (d : Device) :
    (d.onAckBit b).rx = d.rx ∧ (d.onAckBit b).rxOvf = d.rxOvf ∧ (d.onAckBit b).ntf = d.ntf ∧
      (d.onAckBit b).appRet = d.appRet ∧ (d.onAckBit b).appFault = d.appFault ∧ (d.onAckBit b).tx.head = d.tx.head ∧
      (d.onAckBit b).tx.mem = d.tx.mem := by
  unfold Device.onAckBit; split
  · exact ⟨rfl, rfl, rfl, rfl, rfl, rfl, rfl⟩
  · exact d.sendNext_frame

/-- Taking a data byte leaves the transmit side and the application alone. -/
@[simp] theorem Device.onByteReceived_frame (b : Byte) (d : Device) :
    (d.onByteReceived b).bmByte = d.bmByte ∧ (d.onByteReceived b).tx = d.tx ∧ (d.onByteReceived b).ntf = d.ntf ∧
      (d.onByteReceived b).appRet = d.appRet ∧ (d.onByteReceived b).appFault = d.appFault ∧
      (d.onByteReceived b).rx.tail = d.rx.tail := by
  unfold Device.onByteReceived; split <;> exact ⟨rfl, rfl, rfl, rfl, rfl, rfl⟩

/-- A data byte is pushed where there is room (R106). -/
theorem Device.onByteReceived_rx_of_room {b : Byte} {d : Device} (h : d.rx.count < 2 ^ d.cfg.rxLog2.val) :
    (d.onByteReceived b).rx = d.rx.push d.cfg.rxLog2.val b := by
  simp [Device.onByteReceived, Device.rxCap, h]

/-- A data byte that finds no room is dropped (R106). -/
theorem Device.onByteReceived_rx_of_full {b : Byte} {d : Device} (h : 2 ^ d.cfg.rxLog2.val ≤ d.rx.count) :
    (d.onByteReceived b).rx = d.rx := by
  simp [Device.onByteReceived, Device.rxCap, Nat.not_lt.2 h]

/-- The overflow flag after a data byte: set by a drop, and never cleared (R28, R106). -/
@[simp] theorem Device.onByteReceived_rxOvf (b : Byte) (d : Device) :
    (d.onByteReceived b).rxOvf = (d.rxOvf || decide (2 ^ d.cfg.rxLog2.val ≤ d.rx.count)) := by
  unfold Device.onByteReceived Device.rxCap
  split
  · next h => simp [h]
  · next h => simp [Nat.not_lt.1 h]

/-- A push writes the element at the head alone (R51). -/
theorem Ring.read_push_of_ne {a : Nat} {r : Ring} (log2 : Nat) (b : Byte) (h : a ≠ r.head) :
    Memory.read (r.push log2 b).mem a = Memory.read r.mem a := Memory.read_write_other h r.mem b

/-! ## What an event leaves alone -/

section Event

variable {i : Instr} (ha : i.agent = .environment) (d : Device)
include ha

/-- No event writes the configuration, what the application owns of the rings, or anything else of the application. -/
theorem Device.after_event_frame :
    (d.after i).cfg = d.cfg ∧ (d.after i).appRet = d.appRet ∧ (d.after i).appFault = d.appFault ∧
      (d.after i).rx.tail = d.rx.tail ∧ (d.after i).tx.head = d.tx.head ∧ (d.after i).tx.mem = d.tx.mem := by
  cases i <;> simp_all [Device.after, Instr.agent, Device.onStart, Device.onStop, Device.onByteSent, Device.onAckSent]

/-- Only the overflow in an undefined state faults the SPE (R108). -/
theorem Device.after_event_speFault (h : ∀ low b, i ≠ .evOvfInvalidState low b) : (d.after i).speFault = d.speFault := by
  cases i <;> simp_all [Device.after, Instr.agent, Device.onStart, Device.onStop, Device.onByteSent, Device.onAckSent]

/-- Only a data byte writes the receive side (R106). -/
theorem Device.after_event_rx (h : ∀ b, i ≠ .evOvfStoreByteAndAck b) :
    (d.after i).rx = d.rx ∧ (d.after i).rxOvf = d.rxOvf := by
  cases i <;> simp_all [Device.after, Instr.agent, Device.onStart, Device.onStop, Device.onByteSent, Device.onAckSent]

/-- Only the rules that send write the transmit side (R102, R104, R109). -/
theorem Device.after_event_tx (hs : ∀ b, i ≠ .evOvfSendDataByte b) (hc : ∀ b, i ≠ .evOvfCheckReceivedAck b) :
    (d.after i).tx = d.tx ∧ (d.after i).bmByte = d.bmByte := by
  cases i <;> simp_all [Device.after, Instr.agent, Device.onStart, Device.onStop, Device.onByteSent, Device.onAckSent]

/-- Only a start, an address byte and a stop notify (R100, R101, R107). -/
theorem Device.after_event_ntf (hs : i ≠ .evStart) (hp : i ≠ .evStop) (hb : ∀ b, i ≠ .evOvfAwaitAddress b) :
    (d.after i).ntf = d.ntf := by
  cases i <;> simp_all [Device.after, Instr.agent, Device.onByteSent, Device.onAckSent]

/-- An event with `RX` full writes nothing of it (R106). -/
theorem Device.after_event_rx_of_full (h : 2 ^ d.cfg.rxLog2.val ≤ d.rx.count) : (d.after i).rx = d.rx := by
  by_cases hs : ∃ b, i = .evOvfStoreByteAndAck b
  · obtain ⟨b, rfl⟩ := hs
    exact Device.onByteReceived_rx_of_full h
  · exact (d.after_event_rx ha fun b hb => hs ⟨b, hb⟩).1

/-- An event writes at most the element of `RX` at the head, and that one where a byte is stored (R51, R106). -/
theorem Device.read_after_event_rx {a : Nat}
    (h : (∃ b, i = .evOvfStoreByteAndAck b) → d.rx.count < 2 ^ d.cfg.rxLog2.val → a ≠ d.rx.head) :
    Memory.read (d.after i).rx.mem a = Memory.read d.rx.mem a := by
  by_cases hroom : d.rx.count < 2 ^ d.cfg.rxLog2.val
  · by_cases hs : ∃ b, i = .evOvfStoreByteAndAck b
    · have hne := h hs hroom
      obtain ⟨b, rfl⟩ := hs
      change Memory.read (d.onByteReceived b).rx.mem a = _
      rw [Device.onByteReceived_rx_of_room hroom, Ring.read_push_of_ne _ _ hne]
    · rw [(d.after_event_rx ha fun b hb => hs ⟨b, hb⟩).1]
  · rw [d.after_event_rx_of_full ha (Nat.not_lt.1 hroom)]

end Event

/-- Settles O20: the event changes the device in front alone, and of it what the lemmas above say. -/
theorem busEventFrame : Obligations.BusEventFrame := by
  intro i s t ha h
  obtain rfl := exec_next_device (by rw [ha]; decide) h
  obtain ⟨hcfg, hret, happ, htail, hhead, htx⟩ := s.dev.after_event_frame ha
  refine ⟨rfl, rfl, rfl, rfl, rfl, rfl, rfl, rfl, hcfg, hret, happ, s.dev.after_event_speFault ha, ?_, htail, hhead,
    fun a => congrArg (Memory.read · a) htx, fun a => s.dev.read_after_event_rx ha, s.dev.after_event_rx_of_full ha,
    s.dev.after_event_rx ha, s.dev.after_event_tx ha, s.dev.after_event_ntf ha⟩
  rintro ⟨low, b, rfl⟩
  rfl

/-! ## What an application operation leaves alone -/

/-- An application read writes the tail and the count of `RX` and the application's own fields. -/
@[simp] theorem Device.afterRead_frame (d : Device) :
    d.afterRead.cfg = d.cfg ∧ d.afterRead.st = d.st ∧ d.afterRead.bm = d.bm ∧ d.afterRead.bmByte = d.bmByte ∧
      d.afterRead.rxOvf = d.rxOvf ∧ d.afterRead.ntf = d.ntf ∧ d.afterRead.speFault = d.speFault ∧ d.afterRead.tx = d.tx ∧
      d.afterRead.rx.head = d.rx.head ∧ d.afterRead.rx.mem = d.rx.mem := by
  unfold Device.afterRead; split <;> exact ⟨rfl, rfl, rfl, rfl, rfl, rfl, rfl, rfl, rfl, rfl⟩

/-- An application's queueing of a byte writes the storage, the head and the count of `TX` and the application's own fields. -/
@[simp] theorem Device.afterQueue_frame (b : Byte) (d : Device) :
    (d.afterQueue b).cfg = d.cfg ∧ (d.afterQueue b).st = d.st ∧ (d.afterQueue b).bm = d.bm ∧
      (d.afterQueue b).bmByte = d.bmByte ∧ (d.afterQueue b).rxOvf = d.rxOvf ∧ (d.afterQueue b).ntf = d.ntf ∧
      (d.afterQueue b).speFault = d.speFault ∧ (d.afterQueue b).rx = d.rx ∧ (d.afterQueue b).tx.tail = d.tx.tail := by
  unfold Device.afterQueue; split <;> exact ⟨rfl, rfl, rfl, rfl, rfl, rfl, rfl, rfl, rfl⟩

/-- A read of an empty ring faults (R121). -/
theorem Device.afterRead_of_empty {d : Device} (h : d.rx.count = 0) :
    d.afterRead = d.keepFault (.readEmpty (mkWord 0x5#4 0#8)) := if_pos h

/-- A read of a ring that is not empty pops (R121). -/
theorem Device.afterRead_of_pending {d : Device} (h : d.rx.count ≠ 0) :
    d.afterRead = (d.withRx (d.rx.drop d.cfg.rxLog2.val)).giveApp (.byte d.rx.front) := if_neg h

/-- A byte queued in a full ring faults (R122). -/
theorem Device.afterQueue_of_full {b : Byte} {d : Device} (h : d.tx.count = 2 ^ d.cfg.txLog2.val) :
    d.afterQueue b = d.keepFault (.queueFull (mkWord 0x6#4 b)) := if_pos h

/-- A byte queued in a ring that is not full is pushed (R122). -/
theorem Device.afterQueue_of_room {b : Byte} {d : Device} (h : d.tx.count ≠ 2 ^ d.cfg.txLog2.val) :
    d.afterQueue b = (d.withTx (d.tx.push d.cfg.txLog2.val b)).giveApp .nothing := if_neg h

section Application

variable {i : Instr} (ha : i.agent = .application) (d : Device)
include ha

/-- No application operation writes the configuration or what the SPE alone writes. -/
theorem Device.after_app_frame :
    (d.after i).cfg = d.cfg ∧ (d.after i).st = d.st ∧ (d.after i).bm = d.bm ∧ (d.after i).bmByte = d.bmByte ∧
      (d.after i).rxOvf = d.rxOvf ∧ (d.after i).ntf = d.ntf ∧ (d.after i).speFault = d.speFault ∧
      (d.after i).rx.head = d.rx.head ∧ (d.after i).rx.mem = d.rx.mem ∧ (d.after i).tx.tail = d.tx.tail := by
  cases i <;> simp_all [Device.after, Instr.agent]

/-- Only an application read writes `RX` (R121). -/
theorem Device.after_app_rx (h : i ≠ .appRead) : (d.after i).rx = d.rx := by
  cases i <;> simp_all [Device.after, Instr.agent]

/-- Only an application's queueing of a byte writes `TX` (R122). -/
theorem Device.after_app_tx (h : ∀ b, i ≠ .appQueue b) : (d.after i).tx = d.tx := by
  cases i <;> simp_all [Device.after, Instr.agent]

/-- An application operation writes at most the element of `TX` at the head, and that one where it queues a byte. -/
theorem Device.read_after_app_tx {a : Nat} (h : (∃ b, i = .appQueue b) → a ≠ d.tx.head) :
    Memory.read (d.after i).tx.mem a = Memory.read d.tx.mem a := by
  by_cases hq : ∃ b, i = .appQueue b
  · have hne := h hq
    obtain ⟨b, rfl⟩ := hq
    change Memory.read (d.afterQueue b).tx.mem a = _
    by_cases hfull : d.tx.count = 2 ^ d.cfg.txLog2.val
    · rw [Device.afterQueue_of_full hfull, Device.keepFault_tx]
    · rw [Device.afterQueue_of_room hfull]
      exact Ring.read_push_of_ne _ _ hne
  · rw [d.after_app_tx ha fun b hb => hq ⟨b, hb⟩]

/-- An application operation that finds what it needs does not fault (R121, R122). -/
theorem Device.after_app_appFault (hr : i = .appRead → d.rx.count ≠ 0)
    (hq : (∃ b, i = .appQueue b) → d.tx.count ≠ 2 ^ d.cfg.txLog2.val) : (d.after i).appFault = d.appFault := by
  cases i with
  | appAvailable => rfl
  | appTxCount => rfl
  | appRead => simp [Device.after, Device.afterRead_of_pending (hr rfl)]
  | appQueue b => simp [Device.after, Device.afterQueue_of_room (hq ⟨b, rfl⟩)]
  | _ => cases ha

omit ha in
/-- An application operation that faults writes its record alone (R170). -/
theorem Device.after_app_of_fault
    (h : i = .appRead ∧ d.rx.count = 0 ∨ (∃ b, i = .appQueue b) ∧ d.tx.count = 2 ^ d.cfg.txLog2.val) :
    (d.after i).rx = d.rx ∧ (d.after i).tx = d.tx ∧ (d.after i).appRet = d.appRet := by
  obtain ⟨rfl, hempty⟩ | ⟨⟨b, rfl⟩, hfull⟩ := h
  · simp [Device.after, Device.afterRead_of_empty hempty]
  · simp [Device.after, Device.afterQueue_of_full hfull]

end Application

/-- Settles O24: the operation changes the device in front alone, and of it what the lemmas above say. -/
theorem appOperationFrame : Obligations.AppOperationFrame := by
  intro i s t ha h
  obtain rfl := exec_next_device (by rw [ha]; decide) h
  obtain ⟨hcfg, hst, hbm, hbyte, hovf, hntf, hspe, hhead, hmem, htail⟩ := s.dev.after_app_frame ha
  exact ⟨rfl, rfl, rfl, rfl, rfl, rfl, rfl, rfl, hcfg, hst, hbm, hbyte, hovf, hntf, hhead, htail,
    fun a => congrArg (Memory.read · a) hmem, fun a => s.dev.read_after_app_tx ha, s.dev.after_app_rx ha,
    s.dev.after_app_tx ha, hspe, s.dev.after_app_appFault ha, s.dev.after_app_of_fault⟩

/-! ## What any operation leaves alone -/

/-- An operation of the host's caller changes no device. -/
theorem Device.after_host {i : Instr} (ha : i.agent = .hostCaller) (d : Device) : d.after i = d := by
  cases i with
  | hostCmd1 _ => rfl
  | hostCmdN _ _ => rfl
  | _ => cases ha

/-- No operation writes the configuration (R7, R29). -/
@[simp] theorem Device.after_cfg (i : Instr) (d : Device) : (d.after i).cfg = d.cfg := by
  cases ha : i.agent with
  | environment => exact (d.after_event_frame ha).1
  | application => exact (d.after_app_frame ha).1
  | hostCaller => rw [d.after_host ha]

/-- The operation leaves `RX` alone unless it stores a received byte or reads one. -/
theorem Device.after_rx {i : Instr} (hs : ∀ b, i ≠ .evOvfStoreByteAndAck b) (hr : i ≠ .appRead) (d : Device) :
    (d.after i).rx = d.rx := by
  cases ha : i.agent with
  | environment => exact (d.after_event_rx ha hs).1
  | application => exact d.after_app_rx ha hr
  | hostCaller => rw [d.after_host ha]

/-- The operation leaves `TX` alone unless it sends a byte or queues one. -/
theorem Device.after_tx {i : Instr} (hs : ∀ b, i ≠ .evOvfSendDataByte b) (hc : ∀ b, i ≠ .evOvfCheckReceivedAck b)
    (hq : ∀ b, i ≠ .appQueue b) (d : Device) : (d.after i).tx = d.tx := by
  cases ha : i.agent with
  | environment => exact (d.after_event_tx ha hs hc).1
  | application => exact d.after_app_tx ha hq
  | hostCaller => rw [d.after_host ha]

/-! ## The overflow flag -/

/-- Every operation but a data byte keeps the overflow flag. -/
theorem Device.after_rxOvf {i : Instr} (h : ∀ b, i ≠ .evOvfStoreByteAndAck b) (d : Device) : (d.after i).rxOvf = d.rxOvf := by
  cases ha : i.agent with
  | environment => exact (d.after_event_rx ha h).2
  | application =>
    obtain ⟨-, -, -, -, hovf, -⟩ := d.after_app_frame ha
    exact hovf
  | hostCaller => rw [d.after_host ha]

/-- Settles O30: a data byte's lemma, and every other operation keeps the flag. -/
theorem overflowFlagIsSticky : Obligations.OverflowFlagIsSticky := by
  refine ⟨fun i s t h => ?_, fun d => rfl⟩
  rw [exec_dev h]
  by_cases hs : ∃ b, i = .evOvfStoreByteAndAck b
  · obtain ⟨b, rfl⟩ := hs
    change ((_ → (s.dev.onByteReceived b).rxOvf = true) ∧ (_ → (s.dev.onByteReceived b).rxOvf = true → _))
    simp +contextual [Device.onByteReceived_rxOvf]
  · rw [Device.after_rxOvf (fun b hb => hs ⟨b, hb⟩)]
    exact ⟨id, fun hclear hset => absurd hset (by rw [hclear]; decide)⟩

end Sys2Proof.Machine
end

