-- ==== Sys2Proof/Proofs/HostSide.lean ====
section
/-! PROOFS. What the host's side can do in one step: the writes of an issue and of a transport answer on the HCS's registers (42_host_sequencer.md R134 to R140),
and the calls and steps of the client layer (45_host_clients.md). -/

namespace Sys2Proof.Machine

open Config

/-! ## The HCS -/

/-- The writes of an accepted issue (R134 to R136). -/
inductive Hcs.Issued (c : HostConfig) (h : Hcs) : Hcs → Prop
  | single (d : Descriptor) (hd : descriptorOk c d = true) : Hcs.Issued c h (h.begin d 0)
  | multi (d : Descriptor) (r : ReplyRequest) (hd : descriptorOk c d = true) (hr : replyOk c r = true) :
      Hcs.Issued c h { h.begin d r.n with buf := r.buf }

/-- The writes of a micro-step with the answer to the pending call (R137 to R139). -/
inductive Hcs.AnswerTaken (h : Hcs) : Hcs → Prop
  | write (ok : Bool) (hphase : h.phase = .write) (hidx : h.idx < h.cmds.length) : Hcs.AnswerTaken h (h.writeStep ok)
  | read (seq : List Byte) (hphase : h.phase = .read) (hlen : seq.length ≤ if h.n = 0 then 1 else h.n) :
      Hcs.AnswerTaken h (h.readStep seq)

/-- An operation of the host's caller is one of the two issues (R85). -/
theorem hostCaller_cases {i : Instr} (ha : i.agent = .hostCaller) : (∃ d, i = .hostCmd1 d) ∨ ∃ d r, i = .hostCmdN d r := by
  cases i with
  | hostCmd1 d => exact .inl ⟨d, rfl⟩
  | hostCmdN d r => exact .inr ⟨d, r, rfl⟩
  | _ => cases ha

/-- Everything an operation of the host's caller can do: an issue, which writes the HCS's registers alone. -/
theorem exec_next_host {i : Instr} {s t : State} (ha : i.agent = .hostCaller) (h : exec i s = .next t) :
    ∃ x, s.hcs.Issued s.host x ∧ t = s.withHcs x := by
  obtain ⟨d, rfl⟩ | ⟨d, r, rfl⟩ := hostCaller_cases ha
  · obtain ⟨-, hd, rfl⟩ := execHostCmd1_next.1 h
    exact ⟨_, .single d hd, rfl⟩
  · obtain ⟨-, hd, rfl⟩ := execHostCmdN_next.1 h
    obtain ⟨hd, hr⟩ := (Bool.and_eq_true _ _).mp hd
    exact ⟨_, .multi d r hd hr, rfl⟩

/-- R134's bounds on a descriptor. -/
theorem descriptorOk_iff {c : HostConfig} {d : Descriptor} :
    descriptorOk c d = true ↔ 1 ≤ d.cmds.length ∧ d.cmds.length ≤ c.maxCmdLen ∧ d.addr.toNat ≤ 127 := by
  simp only [descriptorOk, Bool.and_eq_true, decide_eq_true_eq, and_assoc]

/-- R134's bounds on a reply size, and the length of the caller's buffer. -/
theorem replyOk_iff {c : HostConfig} {r : ReplyRequest} :
    replyOk c r = true ↔ 1 ≤ r.n ∧ r.n ≤ c.maxReplyLen ∧ r.buf.length = r.n := by
  simp only [replyOk, Bool.and_eq_true, decide_eq_true_eq, and_assoc]

/-- An issue enters `WRITE` at the first command byte and keeps `HS_RESULT` (R135, R136). -/
theorem Hcs.Issued.frame {c : HostConfig} {h x : Hcs} (hx : h.Issued c x) :
    x.phase = .write ∧ x.idx = 0 ∧ x.result = h.result := by
  cases hx <;> exact ⟨rfl, rfl, rfl⟩

/-- An issue leaves the HCS's registers in order (R33, R34, R36). -/
theorem Hcs.Issued.ok {c : HostConfig} {h x : Hcs} (hx : h.Issued c x) : x.Ok c := by
  cases hx with
  | single d hd =>
    obtain ⟨hpos, hmax, -⟩ := descriptorOk_iff.1 hd
    exact ⟨hmax, Nat.zero_le _, fun _ => hpos, nofun, Nat.zero_le _, fun hn => absurd rfl hn⟩
  | multi d r hd hr =>
    obtain ⟨hpos, hmax, -⟩ := descriptorOk_iff.1 hd
    obtain ⟨-, hn, hlen⟩ := replyOk_iff.1 hr
    exact ⟨hmax, Nat.zero_le _, fun _ => hpos, nofun, hn, fun _ => hlen⟩

/-- A write micro-step keeps the HCS's registers in order (R137). -/
theorem Hcs.Ok.writeStep {c : HostConfig} {h : Hcs} (hok : h.Ok c) (hidx : h.idx < h.cmds.length) (ok : Bool) :
    (h.writeStep ok).Ok c := by
  cases ok with
  | false => exact ⟨hok.cmds_le, hok.idx_le, nofun, nofun, hok.n_le, hok.buf_len⟩
  | true =>
    refine ⟨hok.cmds_le, hidx, fun hw => ?_, fun hr => ?_, hok.n_le, hok.buf_len⟩
    · by_cases hlast : h.idx + 1 = h.cmds.length
      · simp [Hcs.writeStep, hlast] at hw
      · exact lt_of_le_of_ne hidx hlast
    · by_cases hlast : h.idx + 1 = h.cmds.length
      · exact hlast
      · simp [Hcs.writeStep, hlast] at hr

/-- A read micro-step keeps the HCS's registers in order (R138, R139). -/
theorem Hcs.Ok.readStep {c : HostConfig} {h : Hcs} (hok : h.Ok c) {seq : List Byte}
    (hlen : seq.length ≤ if h.n = 0 then 1 else h.n) : (h.readStep seq).Ok c := by
  unfold Hcs.readStep
  split
  · exact ⟨hok.cmds_le, hok.idx_le, nofun, nofun, hok.n_le, hok.buf_len⟩
  · next hn =>
    refine ⟨hok.cmds_le, hok.idx_le, nofun, nofun, hok.n_le, fun _ => ?_⟩
    have hbuf := hok.buf_len hn
    rw [if_neg hn] at hlen
    change (seq ++ h.buf.drop seq.length).length = h.n
    rw [List.length_append, List.length_drop, hbuf]
    omega

/-- A micro-step keeps the HCS's registers in order. -/
theorem Hcs.AnswerTaken.ok {c : HostConfig} {h x : Hcs} (hx : h.AnswerTaken x) (hok : h.Ok c) : x.Ok c := by
  cases hx with
  | write ok _ hidx => exact hok.writeStep hidx ok
  | read seq _ hlen => exact hok.readStep hlen

/-- A micro-step is taken while an operation is under way, and it writes `HS_RESULT` only where it enters `DONE` (R140). -/
theorem Hcs.AnswerTaken.result {h x : Hcs} (hx : h.AnswerTaken x) :
    h.phase ≠ .done ∧ (x.result ≠ h.result → x.phase = .done) := by
  cases hx with
  | write ok hphase _ =>
    refine ⟨by rw [hphase]; decide, fun hne => ?_⟩
    cases ok with
    | false => rfl
    | true => exact absurd rfl hne
  | read seq hphase _ =>
    refine ⟨by rw [hphase]; decide, fun _ => ?_⟩
    unfold Hcs.readStep
    split <;> rfl

/-- The HCS's pending call is the next command byte or the one read (R137 to R139). -/
theorem Hcs.pendingCall_some {h : Hcs} {c : TransportCall} (hc : h.pendingCall = some c) :
    (∃ b, h.phase = .write ∧ h.cmds[h.idx]? = some b ∧ c = .writeByte h.addr b) ∨
      (h.phase = .read ∧ c = .requestBytes h.addr (if h.n = 0 then 1 else h.n)) := by
  unfold Hcs.pendingCall at hc
  split at hc
  · cases hc
  · cases hc
  · next hphase =>
    split at hc
    · next b hb => cases hc; exact .inl ⟨b, hphase, hb, rfl⟩
    · cases hc
  · next hphase => cases hc; exact .inr ⟨hphase, rfl⟩

/-- The call that waits is the HCS's or a probe of the client program (R144). -/
theorem State.pendingCall_some {s : State} {c : TransportCall} (hc : s.pendingCall = some c) :
    s.hcs.pendingCall = some c ∨ ∃ a, c = .probe a := by
  unfold State.pendingCall at hc
  split at hc
  · next hp => exact .inl (hp.trans hc)
  · obtain ⟨a, -, rfl⟩ := Option.map_eq_some_iff.1 hc
    exact .inr ⟨a, rfl⟩

/-- Everything the answer to the pending call can do: a micro-step of the HCS, or a probe answered. -/
theorem completeCall_next {c : TransportCall} {a : Answer} {s t : State} (hc : s.pendingCall = some c)
    (h : completeCall c a s = .next t) :
    (∃ x, s.hcs.AnswerTaken x ∧ t = s.withHcs x) ∨ ∃ ok, t = s.withClient (s.client.probeAnswered ok) := by
  unfold completeCall at h
  split at h
  · next ok =>
    cases h
    obtain hc | ⟨a, ha⟩ := State.pendingCall_some hc
    · obtain ⟨b, hphase, hb, -⟩ | ⟨-, hcall⟩ := Hcs.pendingCall_some hc
      · exact .inl ⟨_, .write ok hphase (List.getElem?_eq_some_iff.1 hb).1, rfl⟩
      · cases hcall
    · cases ha
  · next n seq =>
    split at h
    · next hlen =>
      cases h
      obtain hc | ⟨a, ha⟩ := State.pendingCall_some hc
      · obtain ⟨b, -, -, hcall⟩ | ⟨hphase, hcall⟩ := Hcs.pendingCall_some hc
        · cases hcall
        · cases hcall
          exact .inl ⟨_, .read seq hphase hlen, rfl⟩
      · cases ha
    · cases h
  · next ok => cases h; exact .inr ⟨ok, rfl⟩
  all_goals cases h

/-! ## The registry -/

/-- The registry's invariant speaks of `HELD` and the Connections alone (R150 to R152). -/
theorem Client.Ok.of_registry {c x : Client} (h : c.Ok) (hheld : x.held = c.held) (hconns : x.conns = c.conns) : x.Ok where
  nodup := hheld ▸ h.nodup
  held_eq := by rw [hheld, hconns]; exact h.held_eq

/-- An open keeps the registry's invariant (R151). -/
theorem Client.Ok.openConn {c : Client} (h : c.Ok) (a : PeerAddr) (hint : PinHint) (blockSize : Option Nat) :
    (c.openConn a hint blockSize).Ok := by
  by_cases ha : a ∈ c.held
  · simp only [Client.openConn, acquire, if_pos ha]
    exact h.of_registry rfl rfl
  · simp only [Client.openConn, acquire, if_neg ha]
    exact ⟨h.nodup.append (List.nodup_singleton a) (List.disjoint_singleton.2 ha),
      by rw [List.map_append, ← h.held_eq]; rfl⟩

/-- A close keeps the registry's invariant (R152). -/
theorem Client.Ok.closeConn {c : Client} (h : c.Ok) (a : PeerAddr) : (c.closeConn a).Ok where
  nodup := h.nodup.filter _
  held_eq := by
    change release a c.held = (c.conns.filter _).map Connection.addr
    rw [release, h.held_eq, List.filter_map]
    rfl

/-- An answered probe moves the program alone. -/
theorem Client.Ok.probeAnswered {c : Client} (h : c.Ok) (ok : Bool) : (c.probeAnswered ok).Ok := by
  unfold Client.probeAnswered
  split
  · exact h.of_registry rfl rfl
  · exact h.of_registry rfl rfl
  · exact h

/-! ## Writes of the client layer -/

/-- The step writes the client layer alone, and keeps the registry's invariant. -/
structure State.ClientWrites (s t : State) : Prop where
  eq_withClient : t = s.withClient t.client
  client_ok : s.client.Ok → t.client.Ok

/-- Writes that leave `HELD` and the Connections alone. -/
theorem State.ClientWrites.of_registry {s : State} {c : Client} (hheld : c.held = s.client.held)
    (hconns : c.conns = s.client.conns) : s.ClientWrites (s.withClient c) :=
  ⟨rfl, fun h => h.of_registry hheld hconns⟩

theorem State.ClientWrites.refl (s : State) : s.ClientWrites s := ⟨rfl, id⟩

theorem State.ClientWrites.trans {s t u : State} (hst : s.ClientWrites t) (htu : t.ClientWrites u) : s.ClientWrites u where
  eq_withClient := by rw [htu.eq_withClient, hst.eq_withClient]; rfl
  client_ok := htu.client_ok ∘ hst.client_ok

/-- The program goes on: the client layer alone is written. -/
theorem State.withJob_writes (j : Job) (s : State) : s.ClientWrites (s.withJob j) := .of_registry rfl rfl

theorem State.endUpload_writes (r : UploadResult) (s : State) : s.ClientWrites (s.endUpload r) := .of_registry rfl rfl

theorem State.endFind_writes (r : FindResult) (s : State) : s.ClientWrites (s.endFind r) := .of_registry rfl rfl

theorem State.takeStatus_writes (r : HsResult) (s : State) : s.ClientWrites (s.takeStatus r) := by
  unfold State.takeStatus
  split
  · exact .of_registry rfl rfl
  · exact .refl s

theorem State.scanNext_writes (a : PeerAddr) (es : List InfoRecord) (s : State) : s.ClientWrites (s.scanNext a es) := by
  unfold State.scanNext
  split
  · exact s.withJob_writes _
  · exact .of_registry rfl rfl

theorem State.openConn_writes (a : PeerAddr) (hint : PinHint) (blockSize : Option Nat) (s : State) :
    s.ClientWrites (s.withClient (s.client.openConn a hint blockSize)) := ⟨rfl, fun h => h.openConn a hint blockSize⟩

theorem State.closeConn_writes (a : PeerAddr) (s : State) : s.ClientWrites (s.withClient (s.client.closeConn a)) :=
  ⟨rfl, fun h => h.closeConn a⟩

/-- Everything a call on the client layer can do: it writes the client layer alone (R151 to R161). -/
theorem clientCall_writes {c : ClientCall} {s t : State} (h : clientCall c s = .next t) : s.ClientWrites t := by
  unfold clientCall at h
  split at h
  · cases h
  split at h
  · cases h
  cases c with
  | openConn a hint blockSize => cases h; exact s.openConn_writes a hint blockSize
  | closeConn a =>
    dsimp only at h
    split at h
    · cases h; exact s.closeConn_writes a
    · cases h
  | upload a image twoStep => cases h; exact .of_registry rfl rfl
  | queryStatus a => cases h; exact .of_registry rfl rfl
  | findFirst =>
    dsimp only at h
    split at h
    · cases h; exact .of_registry rfl rfl
    · cases h; exact s.endFind_writes _
  | fullScan =>
    dsimp only at h
    split at h
    · cases h; exact .of_registry rfl rfl
    · cases h; exact .of_registry rfl rfl

/-! ## Steps of a client program -/

/-- Everything a step of a client program can do: it leaves the devices, the parameters and the bus alone, keeps the registry's invariant, and writes the HCS's
registers only by an issue, where `issues` says that its stage has one. -/
structure State.ProgramStep (issues : Prop) (s t : State) : Prop where
  dev : t.dev = s.dev
  peers : t.peers = s.peers
  host : t.host = s.host
  bus : t.bus = s.bus
  foreign : t.foreign = s.foreign
  hcs : t.hcs = s.hcs ∨ issues ∧ s.hcs.Issued s.host t.hcs
  client_ok : s.client.Ok → t.client.Ok

/-- A step that writes the client layer alone issues nothing. -/
theorem State.ClientWrites.programStep {issues : Prop} {s t : State} (h : s.ClientWrites t) : s.ProgramStep issues t := by
  obtain ⟨heq, hok⟩ := h
  rw [heq]
  exact ⟨rfl, rfl, rfl, rfl, rfl, .inl rfl, hok⟩

/-- An issue for the stage that has one. -/
theorem issueThen_programStep {issues : Prop} (hissues : issues) {i : Instr} {j : Job} {s t : State}
    (ha : i.agent = .hostCaller) (h : issueThen i j s = .next t) : s.ProgramStep issues t := by
  unfold issueThen at h
  split at h
  · next u hu =>
    cases h
    obtain ⟨x, hx, rfl⟩ := exec_next_host ha hu
    exact ⟨rfl, rfl, rfl, rfl, rfl, .inr ⟨hissues, hx⟩, fun hc => hc.of_registry rfl rfl⟩
  all_goals cases h

/-- The issue of a status query sets the record to its default and draws the buffer first (R155; log 20). -/
theorem issueStatus_programStep {issues : Prop} (hissues : issues) {a : PeerAddr} {j : Job} {s t : State}
    (h : issueStatus a j s = .next t) : s.ProgramStep issues t := by
  obtain ⟨hdev, hpeers, hhost, hbus, hforeign, hhcs, hok⟩ := issueThen_programStep hissues rfl h
  exact ⟨hdev, hpeers, hhost, hbus, hforeign, hhcs, fun hc => hok (hc.of_registry rfl rfl)⟩

/-- Where the call has returned, the program goes on with its result (R140). -/
theorem onDone_next {k : HsResult → State → State} {s t : State} (h : onDone k s = .next t) :
    s.hcs.phase = .done ∧ t = k s.hcs.result s := by
  unfold onDone at h
  split at h
  · next hdone => cases h; exact ⟨hdone, rfl⟩
  · cases h

/-- The stages of an upload that issue an operation (R153 to R158). -/
def UploadStage.Issuing (st : UploadStage) : Prop :=
  st = .init false ∨ st = .secondInit false ∨ st = .status false ∨ ∃ i, st = .page i false

/-- The programs whose next step issues an operation. -/
def Job.Issuing (j : Job) : Prop :=
  (∃ a image two st, j = .upload a image two st ∧ UploadStage.Issuing st) ∨ (∃ a, j = .query a false) ∨
    ∃ a es, j = .scan a (.query false) es

/-- Everything a step of an upload can do (R153 to R159). -/
theorem uploadStep_programStep {a : PeerAddr} {image : List Byte} {two : Bool} {st : UploadStage} {s t : State}
    (h : uploadStep a image two st s = .next t) : s.ProgramStep st.Issuing t := by
  unfold uploadStep at h
  split at h
  · exact issueThen_programStep (.inl rfl) rfl h
  · obtain ⟨-, rfl⟩ := onDone_next h
    split
    · exact (s.withJob_writes _).programStep
    · exact (s.endUpload_writes _).programStep
  · cases h; exact (s.withJob_writes _).programStep
  · exact issueThen_programStep (.inr (.inl rfl)) rfl h
  · obtain ⟨-, rfl⟩ := onDone_next h
    split
    · exact (s.withJob_writes _).programStep
    · exact (s.endUpload_writes _).programStep
  · exact issueStatus_programStep (.inr (.inr (.inl rfl))) h
  · obtain ⟨-, rfl⟩ := onDone_next h
    split
    · split
      · exact ((s.takeStatus_writes _).trans (State.endUpload_writes _ _)).programStep
      · exact ((s.takeStatus_writes _).trans (State.withJob_writes _ _)).programStep
    · exact (s.endUpload_writes _).programStep
  · next i => exact issueThen_programStep (.inr (.inr (.inr ⟨i, rfl⟩))) rfl h
  · obtain ⟨-, rfl⟩ := onDone_next h
    split
    · split
      · exact (s.withJob_writes _).programStep
      · exact (s.endUpload_writes _).programStep
    · exact (s.endUpload_writes _).programStep

/-- Everything a step of a status query can do (R155). -/
theorem queryStep_programStep {a : PeerAddr} {issued : Bool} {s t : State} (h : queryStep a issued s = .next t) :
    s.ProgramStep (issued = false) t := by
  cases issued with
  | false => exact issueStatus_programStep rfl h
  | true =>
    unfold queryStep at h
    obtain ⟨-, rfl⟩ := onDone_next h
    refine ((s.takeStatus_writes s.hcs.result).trans (.of_registry ?_ ?_)).programStep <;> rfl

/-- Everything a step of find-first can do (R160). -/
theorem findStep_writes {a : PeerAddr} {stage : ProbeStage} {s t : State} (h : findStep a stage s = .next t) :
    s.ClientWrites t := by
  unfold findStep at h
  split at h
  · cases h
  · cases h; exact s.endFind_writes _
  · split at h
    · cases h; exact s.withJob_writes _
    · cases h; exact s.endFind_writes _

/-- Everything a step of a full scan can do (R161). -/
theorem scanStep_programStep {a : PeerAddr} {stage : ScanStage} {es : List InfoRecord} {s t : State}
    (h : scanStep a stage es s = .next t) : s.ProgramStep (stage = .query false) t := by
  unfold scanStep at h
  split at h
  · cases h
  · cases h; exact (s.scanNext_writes _ _).programStep
  · split at h
    · cases h; exact (s.withJob_writes _).programStep
    · split at h
      · cases h; exact (s.scanNext_writes _ _).programStep
      · cases h; exact (s.scanNext_writes _ _).programStep
  · split at h
    · cases h; exact ((s.openConn_writes _ _ _).trans (State.scanNext_writes _ _ _)).programStep
    · cases h; exact ((s.openConn_writes _ _ _).trans (State.withJob_writes _ _)).programStep
  · exact issueStatus_programStep rfl h
  · obtain ⟨-, rfl⟩ := onDone_next h
    exact ((s.takeStatus_writes _).trans (State.withJob_writes _ _)).programStep
  · cases h; exact ((s.closeConn_writes _).trans (State.scanNext_writes _ _ _)).programStep

/-- A step whose stage has an issue under the condition `p` has one under any condition that `p` gives. -/
theorem State.ProgramStep.imp {p q : Prop} {s t : State} (hpq : p → q) (h : s.ProgramStep p t) : s.ProgramStep q t :=
  { h with hcs := h.hcs.imp_right fun ⟨hp, hx⟩ => ⟨hpq hp, hx⟩ }

/-- Everything the next step of the client program can do. -/
theorem clientStep_programStep {s t : State} (h : clientStep s = .next t) : s.ProgramStep s.client.job.Issuing t := by
  unfold clientStep at h
  split at h
  · cases h
  · next a image two st hj =>
    exact (uploadStep_programStep h).imp fun hst => hj ▸ .inl ⟨a, image, two, st, rfl, hst⟩
  · next a issued hj =>
    exact (queryStep_programStep h).imp fun hi => hj ▸ .inr (.inl ⟨a, by rw [hi]⟩)
  · exact (findStep_writes h).programStep
  · next a stage es hj =>
    exact (scanStep_programStep h).imp fun hst => hj ▸ .inr (.inr ⟨a, es, by rw [hst]⟩)

end Sys2Proof.Machine
end

