-- ==== Sys2Proof/Proofs/Moves.lean ====
section
/-! PROOFS. Everything one move of the schedule can do to the devices, the HCS, the registry and the bus, said once for all moves; the statements over every
step follow from it. -/

namespace Sys2Proof.Machine

open Config

/-! ## What a move can do -/

/-- What a move can do to one device: nothing, a reset, or an operation that the device decodes and whose agent there has not faulted (R84, R170, R190). -/
inductive Device.MoveEffect (m : Move) (d : Device) : Device → Prop
  | stays : Device.MoveEffect m d d
  | reset (hm : m = .resetDevice) : Device.MoveEffect m d d.resetSpe
  | operation (i : Instr) (r : Request) (hdec : decodeRequest d.st r = .ok i)
      (hspe : i.agent = .environment → d.speFault = none) (happ : i.agent = .application → d.appFault = none) :
      Device.MoveEffect m d (d.after i)

/-- What a move can do to the devices on the bus, up to their order (log 12): one of them changes at most. -/
def DevicesMoveEffect (m : Move) (ds es : List Device) : Prop :=
  ∃ d e rest, ds.Perm (d :: rest) ∧ es.Perm (e :: rest) ∧ d.MoveEffect m e

/-- The moves that issue a host operation: a request that decodes to one, and the step of a client program at a stage that has one. -/
def Move.Issuing (m : Move) (s : State) : Prop :=
  (∃ r i, m = .request r ∧ decodeRequest s.dev.st r = .ok i ∧ ((∃ d, i = .hostCmd1 d) ∨ ∃ d q, i = .hostCmdN d q)) ∨
    (m = .clientStep ∧ s.client.job.Issuing)

/-- What a move can do to the HCS's registers. -/
inductive Hcs.MoveEffect (m : Move) (s : State) : Hcs → Prop
  | stays : Hcs.MoveEffect m s s.hcs
  | reset (hm : m = .resetHost) : Hcs.MoveEffect m s Hcs.boot
  | issued {x : Hcs} (hm : m.Issuing s) (hx : s.hcs.Issued s.host x) : Hcs.MoveEffect m s x
  | answered {x : Hcs} (hx : s.hcs.AnswerTaken x) : Hcs.MoveEffect m s x

/-- Everything a move can do, as far as the invariants of 10_state.md speak of it; `one_transaction` is R145. -/
structure Move.Effect (m : Move) (s t : State) : Prop where
  host : t.host = s.host
  devices : DevicesMoveEffect m s.devices t.devices
  hcs : Hcs.MoveEffect m s t.hcs
  client_ok : s.client.Ok → t.client.Ok
  one_transaction : (s.bus ≠ none → s.foreign = []) → t.bus ≠ none → t.foreign = []

/-- The devices are the same ones, whatever their order. -/
theorem DevicesMoveEffect.of_perm {m : Move} {s t : State} (h : t.devices.Perm s.devices) :
    DevicesMoveEffect m s.devices t.devices :=
  ⟨s.dev, s.dev, s.peers, .refl _, h, .stays⟩

/-- The device in front changes. -/
theorem DevicesMoveEffect.front {m : Move} {s : State} {e : Device} (h : s.dev.MoveEffect m e) :
    DevicesMoveEffect m s.devices (s.withDev e).devices :=
  ⟨s.dev, e, s.peers, .refl _, .refl _, h⟩

/-! ## Requests -/

/-- An agent that may take a step has not faulted (R170). -/
theorem State.not_faulted_of_agentFaulted {i : Instr} {s : State} (h : s.agentFaulted i = false) :
    (i.agent = .environment → s.dev.speFault = none) ∧ (i.agent = .application → s.dev.appFault = none) := by
  unfold State.agentFaulted at h
  constructor
  · intro ha
    rw [ha] at h
    exact Option.isNone_iff_eq_none.1 (Option.isSome_eq_false_iff.1 h)
  · intro ha
    rw [ha] at h
    exact Option.isNone_iff_eq_none.1 (Option.isSome_eq_false_iff.1 h)

/-- A request runs when it decodes and its agent has not faulted. -/
theorem runRequest_next {r : Request} {s t : State} (h : runRequest r s = .next t) :
    ∃ i, decodeRequest s.dev.st r = .ok i ∧ s.agentFaulted i = false ∧ exec i s = .next t := by
  unfold runRequest at h
  split at h
  · cases h
  · next i hi =>
    split at h
    · cases h
    · next hf => exact ⟨i, hi, Bool.eq_false_iff.2 hf, h⟩

/-- An overflow's operation is the environment's (R85). -/
@[simp] theorem decodeOvf_agent (st : BitVec 3) (b : Byte) : (decodeOvf st b).agent = .environment := by
  unfold decodeOvf; split <;> rfl

/-- A bus event decodes to an operation of the environment (R85). -/
theorem decodeRequest_event (st : BitVec 3) (e : BusEvent) :
    ∃ i, decodeRequest st { word := e.word, payload := .none } = .ok i ∧ i.agent = .environment := by
  cases e with
  | start => exact ⟨.evStart, by simp [decodeRequest, decode, BusEvent.word, dataMustBeZero], rfl⟩
  | ovf b => exact ⟨decodeOvf st b, by simp [decodeRequest, decode, BusEvent.word], decodeOvf_agent st b⟩
  | stop => exact ⟨.evStop, by simp [decodeRequest, decode, BusEvent.word, dataMustBeZero], rfl⟩

/-- The overflow of an undefined state is selected by `ST` 6 and 7 alone (R85). -/
theorem st_of_decodeOvf {st : BitVec 3} {b c : Byte} {low : BitVec 1} (h : decodeOvf st b = .evOvfInvalidState low c) :
    st = 6#3 ∨ st = 7#3 := by
  have hrange : ∀ x : BitVec 3, x ≠ 0#3 → x ≠ 1#3 → x ≠ 2#3 → x ≠ 3#3 → x ≠ 4#3 → x ≠ 5#3 → x = 6#3 ∨ x = 7#3 := by decide
  unfold decodeOvf at h
  split at h
  case h_7 h0 h1 h2 h3 h4 h5 => exact hrange st h0 h1 h2 h3 h4 h5
  all_goals cases h

/-- An operation whose `DATA` must be 0 decodes to itself. -/
theorem dataMustBeZero_ok {b : Byte} {i j : Instr} (h : dataMustBeZero b i = .ok j) : j = i := by
  unfold dataMustBeZero at h
  split at h
  · cases h; rfl
  · cases h

/-- A request of the host decodes to an operation of its caller. -/
theorem decodeHostCmd1_ok {b : Byte} {p : Payload} {i : Instr} (h : decodeHostCmd1 b p = .ok i) : i.agent = .hostCaller := by
  unfold decodeHostCmd1 at h
  split at h
  · split at h
    · cases h; rfl
    all_goals cases h
  · cases h

/-- The same for the multi-byte operation. -/
theorem decodeHostCmdN_ok {b : Byte} {p : Payload} {i : Instr} (h : decodeHostCmdN b p = .ok i) : i.agent = .hostCaller := by
  unfold decodeHostCmdN at h
  split at h
  · split at h
    · cases h; rfl
    all_goals cases h
  · cases h

/-- A request decodes to the overflow of an undefined state only in `ST` 6 and 7 (R84, R85). -/
theorem st_of_decodeRequest {st : BitVec 3} {r : Request} {low : BitVec 1} {b : Byte}
    (h : decodeRequest st r = .ok (.evOvfInvalidState low b)) : st = 6#3 ∨ st = 7#3 := by
  unfold decodeRequest decode at h
  split at h
  case h_2 => exact st_of_decodeOvf (by rw [keySt_mkKey] at h; exact Except.ok.inj h)
  case h_6 => cases h
  case h_8 => cases decodeHostCmd1_ok h
  case h_9 => cases decodeHostCmdN_ok h
  case h_10 => cases h
  all_goals cases dataMustBeZero_ok h

/-- Everything a bus event's request can do to the device in front. -/
theorem runRequest_event_effect {m : Move} {e : BusEvent} {s t : State}
    (h : runRequest { word := e.word, payload := .none } s = .next t) :
    t = s.withDev t.dev ∧ s.dev.MoveEffect m t.dev := by
  obtain ⟨i, hdec, hf, hexec⟩ := runRequest_next h
  obtain ⟨hspe, happ⟩ := State.not_faulted_of_agentFaulted hf
  obtain ⟨-, ht, -, -⟩ := runRequest_event h
  exact ⟨ht, exec_dev hexec ▸ .operation i _ hdec hspe happ⟩

/-- Only a bus event can change the record of another master's transaction. -/
theorem foreignAfter_of_ne {i : Instr} (ha : i.agent ≠ .environment) (a : PeerAddr) (l : List PeerAddr) :
    foreignAfter i a l = l := by
  unfold foreignAfter
  rw [if_neg (by rintro rfl; exact ha rfl), if_neg (by rintro rfl; exact ha rfl)]

/-- Everything an offered request can do: its operation runs, or its event passes a faulted SPE by; an event is taken only while the bus is free (R145). -/
theorem offer_next {r : Request} {s t : State} (h : offer r s = .next t) :
    ∃ i, decodeRequest s.dev.st r = .ok i ∧ (i.agent = .environment → s.bus = none) ∧
      ∃ u, t = u.withForeign (foreignAfter i s.dev.addr s.foreign) ∧
        (u = s ∨ (s.agentFaulted i = false ∧ exec i s = .next u)) := by
  unfold offer at h
  split at h
  · cases h
  next i hi =>
  split at h
  · cases h
  next hbus =>
  have hfree : i.agent = .environment → s.bus = none := by
    intro ha
    simpa [State.busTaken, ha] using hbus
  split at h
  · cases h
  split at h
  · unfold offerFaulted at h
    split at h
    · cases h; exact ⟨i, hi, hfree, s, rfl, .inl rfl⟩
    · cases h
  · next hf =>
    unfold runOffered at h
    split at h
    · next u hu => cases h; exact ⟨i, hi, hfree, u, rfl, .inr ⟨Bool.eq_false_iff.2 hf, hu⟩⟩
    all_goals cases h

/-- An operation leaves the parameters, the transaction, the record of another master's and the client layer alone. -/
theorem exec_frame {i : Instr} {s t : State} (h : exec i s = .next t) :
    t.host = s.host ∧ t.bus = s.bus ∧ t.foreign = s.foreign ∧ t.client = s.client ∧ t.peers = s.peers := by
  by_cases ha : i.agent = .hostCaller
  · obtain ⟨x, -, rfl⟩ := exec_next_host ha h
    exact ⟨rfl, rfl, rfl, rfl, rfl⟩
  · rw [exec_next_device ha h]
    exact ⟨rfl, rfl, rfl, rfl, rfl⟩

/-- The record of another master's transaction after a request keeps R145: an event of another master finds the bus free. -/
theorem foreignAfter_one_transaction {i : Instr} {s : State} (hfree : i.agent = .environment → s.bus = none)
    (h : s.bus ≠ none → s.foreign = []) (hbus : s.bus ≠ none) : foreignAfter i s.dev.addr s.foreign = [] := by
  rw [foreignAfter_of_ne fun ha => hbus (hfree ha)]
  exact h hbus

/-- Everything an offered request can do. -/
theorem offer_effect {r : Request} {s t : State} (h : offer r s = .next t) : Move.Effect (.request r) s t := by
  obtain ⟨i, hdec, hfree, u, rfl, rfl | ⟨hf, hu⟩⟩ := offer_next h
  · exact ⟨rfl, .of_perm (.refl _), .stays, id, foreignAfter_one_transaction hfree⟩
  · obtain ⟨hspe, happ⟩ := State.not_faulted_of_agentFaulted hf
    obtain ⟨hhost, hbus, -, hclient, -⟩ := exec_frame hu
    have hone : (s.bus ≠ none → s.foreign = []) → u.bus ≠ none → foreignAfter i s.dev.addr s.foreign = [] :=
      hbus ▸ foreignAfter_one_transaction hfree
    by_cases ha : i.agent = .hostCaller
    · obtain ⟨x, hx, rfl⟩ := exec_next_host ha hu
      exact ⟨rfl, .of_perm (.refl _), .issued (.inl ⟨r, i, rfl, hdec, hostCaller_cases ha⟩) hx, id, hone⟩
    · obtain rfl := exec_next_device ha hu
      exact ⟨rfl, .front (.operation i r hdec hspe happ), .stays, id, hone⟩

/-! ## The device in front -/

/-- The state with its devices in another order (log 12). -/
structure State.Reordered (s t : State) : Prop where
  devices : t.devices.Perm s.devices
  host : t.host = s.host
  hcs : t.hcs = s.hcs
  bus : t.bus = s.bus
  foreign : t.foreign = s.foreign
  client : t.client = s.client

/-- Bringing a device to the front keeps the record of another master's transaction. -/
theorem State.focus_foreign {a : PeerAddr} {s t : State} (h : s.focus a = some t) : t.foreign = s.foreign := by
  unfold State.focus at h
  split at h
  · cases h; rfl
  · split at h
    · cases h
    · cases h; rfl

/-- Bringing a device to the front reorders the devices. -/
theorem State.focus_reordered {a : PeerAddr} {s t : State} (h : s.focus a = some t) : s.Reordered t := by
  obtain ⟨-, hdevices, hhost, hhcs, hbus, hclient, -, -⟩ := State.focus_some h
  exact ⟨hdevices, hhost, hhcs, hbus, State.focus_foreign h, hclient⟩

/-- The same where the device may be missing. -/
theorem State.focus_getD_reordered (a : PeerAddr) (s : State) : s.Reordered ((s.focus a).getD s) := by
  cases h : s.focus a with
  | none => exact ⟨.refl _, rfl, rfl, rfl, rfl, rfl⟩
  | some t => exact State.focus_reordered h

/-- Everything a change of the device in front can do. -/
theorem runFocus_effect {a : PeerAddr} {s t : State} (h : runFocus a s = .next t) : Move.Effect (.focus a) s t := by
  unfold runFocus at h
  split at h
  · next u hu =>
    cases h
    obtain ⟨hdevices, hhost, hhcs, hbus, hforeign, hclient⟩ := State.focus_reordered hu
    exact ⟨hhost, .of_perm hdevices, hhcs ▸ .stays, fun hc => hclient ▸ hc, fun hs => by rwa [hbus, hforeign]⟩
  · cases h

/-! ## The bus -/

/-- Everything a delivery can do: its event at one device at most, the transaction going on. -/
theorem deliver_effect {x : Delivery} {tx : Transaction} {s t : State} (hbus : s.bus ≠ none)
    (h : deliver x tx s = .next t) : Move.Effect .bus s t := by
  unfold deliver at h
  split at h
  · cases h
  next u hu =>
  obtain ⟨hdevices, hhost, hhcs, -, hforeign, hclient⟩ := State.focus_reordered hu
  split at h
  · cases h
    exact ⟨rfl, .of_perm (.refl _), .stays, id, fun hs _ => hs hbus⟩
  split at h
  · next v hv =>
    obtain ⟨hvu, heff⟩ := runRequest_event_effect (m := .bus) hv
    have hback := State.focus_getD_reordered s.dev.addr v
    generalize (v.focus s.dev.addr).getD v = w at h hback
    obtain ⟨hdevices', hhost', hhcs', -, hforeign', hclient'⟩ := hback
    have hw : w.host = s.host ∧ w.hcs = s.hcs ∧ w.client = s.client ∧ w.foreign = s.foreign := by
      rw [hhost', hhcs', hclient', hforeign', hvu]
      exact ⟨hhost, hhcs, hclient, hforeign⟩
    have hdev : DevicesMoveEffect .bus s.devices w.devices :=
      ⟨u.dev, v.dev, u.peers, hdevices.symm, hdevices'.trans (by rw [hvu]; exact .refl _), heff⟩
    obtain ⟨hhost, hhcs, hclient, hforeign⟩ := hw
    split at h
    all_goals
      cases h
      exact ⟨hhost, hdev, hhcs ▸ .stays, fun hc => hclient ▸ hc, fun hs _ => hforeign.trans (hs hbus)⟩
  all_goals cases h

/-- Everything the answer to the pending call can do, `s` being the state before the answer's transaction has ended. -/
theorem completeCall_effect {m : Move} {c : TransportCall} {a : Answer} {s t : State} (hbus : s.bus = none)
    (hc : s.pendingCall = some c) (h : completeCall c a s = .next t) : Move.Effect m s t := by
  obtain ⟨x, hx, rfl⟩ | ⟨ok, rfl⟩ := completeCall_next hc h
  · exact ⟨rfl, .of_perm (.refl _), .answered hx, id, fun _ hb => absurd hbus hb⟩
  · exact ⟨rfl, .of_perm (.refl _), .stays, fun hk => hk.probeAnswered ok, fun _ hb => absurd hbus hb⟩

/-- Everything a drawn answer can do. -/
theorem drawnAnswer_effect {a : Answer} {s t : State} (h : drawnAnswer a s = .next t) : Move.Effect (.transport a) s t := by
  unfold drawnAnswer at h
  split at h
  · cases h
  next hbus =>
  split at h
  · cases h
  · next c hc => exact completeCall_effect hbus hc h

/-- Everything the end of a transaction can do: its answer, the bus being free again. -/
theorem finishTransaction_effect {tx : Transaction} {s t : State} (h : finishTransaction tx s = .next t) :
    Move.Effect .bus s t := by
  unfold finishTransaction at h
  split at h
  · next hc =>
    obtain ⟨hhost, hdevices, hhcs, hclient, hone⟩ :=
      completeCall_effect (m := .bus) (s := (s.withBus none).draw 1) rfl hc h
    refine ⟨hhost, hdevices, ?_, hclient, fun _ => hone fun hb => absurd rfl hb⟩
    generalize t.hcs = x at hhcs ⊢
    cases hhcs with
    | stays => exact .stays
    | reset hm => cases hm
    | issued hm hx => exact .issued hm hx
    | answered hx => exact .answered hx
  · cases h

/-- Everything the bus can do in one step. -/
theorem busStep_effect {s t : State} (h : busStep s = .next t) : Move.Effect .bus s t := by
  unfold busStep at h
  split at h
  · next tx hbus =>
    split at h
    · exact deliver_effect (by rw [hbus]; nofun) h
    · exact finishTransaction_effect h
  · split at h
    · cases h
    · unfold beginTransaction at h
      split at h
      · split at h
        · next hforeign =>
          cases h
          exact ⟨rfl, .of_perm (.refl _), .stays, id, fun _ _ => hforeign⟩
        · cases h
      · cases h

/-! ## All moves -/

/-- A program's step, as a move. -/
theorem State.ProgramStep.effect {m : Move} {p : Prop} {s t : State} (hm : p → m.Issuing s) (h : s.ProgramStep p t) :
    Move.Effect m s t := by
  obtain ⟨hdev, hpeers, hhost, hbus, hforeign, hhcs, hok⟩ := h
  refine ⟨hhost, .of_perm ?_, ?_, hok, fun hs => by rwa [hbus, hforeign]⟩
  · rw [State.devices, hdev, hpeers]
    exact .refl _
  · obtain heq | ⟨hp, hx⟩ := hhcs
    · rw [heq]; exact .stays
    · exact .issued (hm hp) hx

/-- Everything a move can do. -/
theorem runMove_effect {m : Move} {s t : State} (h : runMove m s = .next t) : m.Effect s t := by
  cases m with
  | request r => exact offer_effect h
  | focus a => exact runFocus_effect h
  | resetDevice => cases h; exact ⟨rfl, .front (.reset rfl), .stays, id, id⟩
  | resetHost =>
    cases h
    exact ⟨rfl, .of_perm (.refl _), .reset rfl, fun _ => Client.boot_ok, fun _ hb => absurd rfl hb⟩
  | transport a => exact drawnAnswer_effect h
  | bus => exact busStep_effect h
  | client c => exact ((clientCall_writes h).programStep (issues := False)).effect False.elim
  | clientStep => exact (clientStep_programStep h).effect fun hj => .inr ⟨rfl, hj⟩

/-- A step takes the first move of the schedule (R58, R60). -/
theorem step_next {s t : State} (h : step s = .next t) :
    ∃ m rest, s.sched = m :: rest ∧ runMove m (s.withSched rest) = .next t := by
  unfold step takeMove at h
  cases hs : s.sched with
  | nil => rw [hs] at h; cases h
  | cons m rest => rw [hs] at h; exact ⟨m, rest, rfl, h⟩

/-- Everything a step can do: its move's effect, in the state whose schedule is what follows. -/
theorem step_effect {s t : State} (h : step s = .next t) :
    ∃ m rest, s.sched = m :: rest ∧ m.Effect (s.withSched rest) t := by
  obtain ⟨m, rest, hs, hm⟩ := step_next h
  exact ⟨m, rest, hs, runMove_effect hm⟩

end Sys2Proof.Machine
end

