-- ==== Sys2Proof/Proofs/EveryStep.lean ====
section
/-! PROOFS. The statements over every step: the machine's invariant, configurations and fault records, and `HS_RESULT`. Each reads one field of `step_effect`. -/

namespace Sys2Proof.Machine

open Config

/-! ## The invariant of a device -/

/-- No state code of R24 is one of those that R108 faults. -/
theorem st_of_legalPairs : ∀ st bm : BitVec 3, (st, bm) ∈ legalPairs → st ≠ 6#3 ∧ st ≠ 7#3 := by decide

/-- Every event but the overflow of an undefined state ends in a pair of R24. -/
theorem Device.after_event_pair {i : Instr} (ha : i.agent = .environment) (hi : ∀ low b, i ≠ .evOvfInvalidState low b)
    (d : Device) : ((d.after i).st, (d.after i).bm) ∈ legalPairs := by
  have hsend : (d.sendNext.st, d.sendNext.bm) ∈ legalPairs := by
    unfold Device.sendNext; split <;> simp [legalPairs]
  cases i with
  | evStart => simp [Device.after, Device.onStart, legalPairs]
  | evOvfAwaitAddress b =>
    change ((d.onAddress b).st, (d.onAddress b).bm) ∈ legalPairs
    unfold Device.onAddress
    split_ifs <;> simp [legalPairs]
  | evOvfSendDataByte b => exact hsend
  | evOvfAwaitAckAfterSend b => simp [Device.after, Device.onByteSent, legalPairs]
  | evOvfCheckReceivedAck b =>
    change ((d.onAckBit b).st, (d.onAckBit b).bm) ∈ legalPairs
    unfold Device.onAckBit
    split
    · simp [legalPairs]
    · exact hsend
  | evOvfReceiveDataByte b => simp [Device.after, Device.onAckSent, legalPairs]
  | evOvfStoreByteAndAck b => simp [Device.after, Device.onByteReceived, legalPairs]
  | evOvfInvalidState low b => exact absurd rfl (hi low b)
  | evStop => simp [Device.after, Device.onStop, legalPairs]
  | _ => cases ha

/-- Every operation keeps the invariant of `RX` (R30). -/
theorem Device.Ok.after_rx {d : Device} (h : d.Ok) (i : Instr) : (d.after i).rx.Ok d.cfg.rxLog2.val := by
  cases i with
  | evOvfStoreByteAndAck b =>
    change (d.onByteReceived b).rx.Ok _
    by_cases hroom : d.rx.count < 2 ^ d.cfg.rxLog2.val
    · exact Device.onByteReceived_rx_of_room hroom ▸ h.rx.push b hroom
    · exact Device.onByteReceived_rx_of_full (Nat.not_lt.1 hroom) ▸ h.rx
  | appRead =>
    change d.afterRead.rx.Ok _
    by_cases hempty : d.rx.count = 0
    · rw [Device.afterRead_of_empty hempty, Device.keepFault_rx]
      exact h.rx
    · rw [Device.afterRead_of_pending hempty]
      exact h.rx.drop (Nat.pos_of_ne_zero hempty)
  | _ => rw [Device.after_rx] <;> simp [h.rx]

/-- Sending the next byte keeps the invariant of `TX` (R109). -/
theorem Device.Ok.sendNext_tx {d : Device} (h : d.Ok) : d.sendNext.tx.Ok d.cfg.txLog2.val := by
  unfold Device.sendNext
  split
  · next hpending => exact h.tx.drop hpending
  · exact h.tx

/-- Every operation keeps the invariant of `TX` (R30). -/
theorem Device.Ok.after_tx {d : Device} (h : d.Ok) (i : Instr) : (d.after i).tx.Ok d.cfg.txLog2.val := by
  cases i with
  | evOvfSendDataByte b => exact h.sendNext_tx
  | evOvfCheckReceivedAck b =>
    change (d.onAckBit b).tx.Ok _
    unfold Device.onAckBit
    split
    · exact h.tx
    · exact h.sendNext_tx
  | appQueue b =>
    change (d.afterQueue b).tx.Ok _
    by_cases hfull : d.tx.count = 2 ^ d.cfg.txLog2.val
    · rw [Device.afterQueue_of_full hfull, Device.keepFault_tx]
      exact h.tx
    · rw [Device.afterQueue_of_room hfull]
      exact h.tx.push b (lt_of_le_of_ne h.tx.count_le hfull)
  | _ => rw [Device.after_tx] <;> simp [h.tx]

/-- Every operation but the overflow of an undefined state keeps a device's invariant. -/
theorem Device.Ok.after {d : Device} (h : d.Ok) {i : Instr} (hi : ∀ low b, i ≠ .evOvfInvalidState low b) : (d.after i).Ok := by
  have hrest : ((d.after i).st, (d.after i).bm) ∈ legalPairs ∧ (d.after i).speFault = none := by
    cases ha : i.agent with
    | environment => exact ⟨d.after_event_pair ha hi, (d.after_event_speFault ha hi).trans h.spe_fault⟩
    | application =>
      obtain ⟨-, hst, hbm, -, -, -, hspe, -⟩ := d.after_app_frame ha
      rw [hst, hbm, hspe]
      exact ⟨h.pair, h.spe_fault⟩
    | hostCaller => rw [d.after_host ha]; exact ⟨h.pair, h.spe_fault⟩
  exact ⟨hrest.1, (d.after_cfg i).symm ▸ h.after_rx i, (d.after_cfg i).symm ▸ h.after_tx i, hrest.2⟩

/-- A device reset keeps a device's invariant (R190). -/
theorem Device.Ok.resetSpe {d : Device} (h : d.Ok) : d.resetSpe.Ok where
  pair := (Device.boot_ok d.cfg).pair
  rx := Ring.ok_of_empty h.rx.mem_wf h.rx.mem_within
  tx := Ring.ok_of_empty h.tx.mem_wf h.tx.mem_within
  spe_fault := h.spe_fault

/-- No move takes a device out of its invariant: a device in a pair of R24 never decodes the overflow of an undefined state. -/
theorem Device.MoveEffect.ok {m : Move} {d e : Device} (he : d.MoveEffect m e) (h : d.Ok) : e.Ok := by
  cases he with
  | stays => exact h
  | reset _ => exact h.resetSpe
  | operation i r hdec _ _ =>
    refine h.after fun low b hi => ?_
    obtain ⟨hsix, hseven⟩ := st_of_legalPairs _ _ h.pair
    exact (st_of_decodeRequest (hi ▸ hdec)).elim hsix hseven

/-- No move takes the devices out of their invariant. -/
theorem DevicesMoveEffect.ok {m : Move} {ds es : List Device} (h : DevicesMoveEffect m ds es) (hok : ∀ d ∈ ds, d.Ok) :
    ∀ e ∈ es, e.Ok := by
  obtain ⟨d, e, rest, hds, hes, heff⟩ := h
  have hcons : d.Ok ∧ ∀ x ∈ rest, x.Ok := List.forall_mem_cons.1 fun x hx => hok x (hds.mem_iff.2 hx)
  exact fun x hx => List.forall_mem_cons.2 ⟨heff.ok hcons.1, hcons.2⟩ x (hes.mem_iff.1 hx)

/-- No move takes the HCS's registers out of their ranges. -/
theorem Hcs.MoveEffect.ok {m : Move} {s : State} {x : Hcs} (h : Hcs.MoveEffect m s x) (hok : s.hcs.Ok s.host) : x.Ok s.host := by
  cases h with
  | stays => exact hok
  | reset _ => exact Hcs.boot_ok _
  | issued _ hx => exact hx.ok
  | answered hx => exact hx.ok hok

/-- Settles O51: each clause of the invariant from the part of the move's effect that speaks of it. -/
theorem stepKeepsInvariant : Obligations.StepKeepsInvariant := by
  intro s t hs h
  obtain ⟨m, rest, -, heff⟩ := step_effect h
  exact
    { devices := heff.devices.ok hs.devices
      hcs := heff.host ▸ heff.hcs.ok hs.hcs
      client := heff.client_ok hs.client
      one_transaction := heff.one_transaction hs.one_transaction }

/-! ## Configurations and fault records -/

/-- What every move keeps of one device: its configuration, its fault records, and unless the move resets a device what a faulted agent alone writes. -/
def Device.Kept (m : Move) (d e : Device) : Prop :=
  e.cfg = d.cfg ∧
    (d.speFault ≠ none → e.speFault = d.speFault ∧
      (m ≠ .resetDevice →
        e.st = d.st ∧ e.bm = d.bm ∧ e.bmByte = d.bmByte ∧ e.rxOvf = d.rxOvf ∧ e.ntf = d.ntf ∧ e.rx.head = d.rx.head ∧
          e.tx.tail = d.tx.tail)) ∧
    (d.appFault ≠ none → e.appFault = d.appFault ∧
      (m ≠ .resetDevice → e.appRet = d.appRet ∧ e.rx.tail = d.rx.tail ∧ e.tx.head = d.tx.head))

theorem Device.Kept.refl (m : Move) (d : Device) : d.Kept m d :=
  ⟨rfl, fun _ => ⟨rfl, fun _ => ⟨rfl, rfl, rfl, rfl, rfl, rfl, rfl⟩⟩, fun _ => ⟨rfl, fun _ => ⟨rfl, rfl, rfl⟩⟩⟩

/-- Every move keeps that much of a device: the operation of one agent writes nothing of the other, and a faulted agent has none. -/
theorem Device.MoveEffect.kept {m : Move} {d e : Device} (he : d.MoveEffect m e) : d.Kept m e := by
  cases he with
  | stays => exact .refl m d
  | reset hm => exact ⟨rfl, fun _ => ⟨rfl, fun hne => absurd hm hne⟩, fun _ => ⟨rfl, fun hne => absurd hm hne⟩⟩
  | operation i r hdec hspe happ =>
    cases ha : i.agent with
    | environment =>
      obtain ⟨hcfg, hret, hfault, htail, hhead, -⟩ := d.after_event_frame ha
      exact ⟨hcfg, fun hne => absurd (hspe ha) hne, fun _ => ⟨hfault, fun _ => ⟨hret, htail, hhead⟩⟩⟩
    | application =>
      obtain ⟨hcfg, hst, hbm, hbyte, hovf, hntf, hfault, hhead, -, htail⟩ := d.after_app_frame ha
      exact ⟨hcfg, fun _ => ⟨hfault, fun _ => ⟨hst, hbm, hbyte, hovf, hntf, hhead, htail⟩⟩, fun hne => absurd (happ ha) hne⟩
    | hostCaller =>
      rw [d.after_host ha]
      exact .refl m d

/-- Every device before the move beside the same one after it. -/
theorem DevicesMoveEffect.pairs {m : Move} {ds es : List Device} (h : DevicesMoveEffect m ds es) :
    ∃ l : List (Device × Device), l.map Prod.fst = ds ∧ (l.map Prod.snd).Perm es ∧ ∀ p ∈ l, p.1.Kept m p.2 := by
  obtain ⟨d, e, rest, hds, hes, heff⟩ := h
  have hkept : List.Forall₂ (Device.Kept m) (d :: rest) (e :: rest) :=
    .cons heff.kept (List.forall₂_same.2 fun x _ => .refl m x)
  obtain ⟨es', hforall, hperm⟩ := List.perm_comp_forall₂ hds hkept
  obtain ⟨hlen, hzip⟩ := List.forall₂_iff_zip.1 hforall
  exact ⟨ds.zip es', List.map_fst_zip hlen.le, by rw [List.map_snd_zip hlen.ge]; exact hperm.trans hes.symm,
    fun p hp => hzip hp⟩

/-- Settles O50: the devices are paired up by the move's effect, and each pair keeps what `Device.Kept` says. -/
theorem configurationAndFaultsStay : Obligations.ConfigurationAndFaultsStay := by
  intro s t h
  obtain ⟨m, rest, hs, heff⟩ := step_effect h
  obtain ⟨l, hfst, hsnd, hkept⟩ := heff.devices.pairs
  refine ⟨heff.host, l, hfst, hsnd, fun p hp => ?_⟩
  have hne : s.sched.head? ≠ some .resetDevice ↔ m ≠ .resetDevice := by simp [hs]
  rw [hne]
  exact hkept p hp

/-! ## The result of a host operation -/

/-- Settles O41: among the effects on the HCS only a micro-step writes `HS_RESULT`, and only an issue leaves `DONE`. -/
theorem resultOnlyAtDone : Obligations.ResultOnlyAtDone := by
  intro s t h hne
  obtain ⟨m, rest, hs, heff⟩ := step_effect h
  have hhead : ∀ k, m = k → s.sched.head? = some k := fun k hk => by rw [hs, hk]; rfl
  have hhcs := heff.hcs
  generalize t.hcs = x at hhcs ⊢
  cases hhcs with
  | stays => exact ⟨fun hr => absurd rfl hr, fun hdone hleft => absurd hdone hleft⟩
  | reset hm => exact absurd (hhead _ hm) hne
  | answered hx =>
    obtain ⟨hbusy, hdone⟩ := hx.result
    exact ⟨fun hr => ⟨hbusy, hdone hr⟩, fun hdone => absurd hdone hbusy⟩
  | issued hm hx =>
    obtain ⟨hphase, hidx, hresult⟩ := hx.frame
    refine ⟨fun hr => absurd hresult hr, fun _ _ => ⟨hphase, hidx, hresult, ?_⟩⟩
    obtain ⟨r, i, hr, hdec, hi⟩ | ⟨hstep, hjob⟩ := hm
    · exact .inl ⟨r, i, hhead _ hr, hdec, hi⟩
    · exact .inr ⟨hhead _ hstep, hjob⟩

end Sys2Proof.Machine
end

