-- ==== Sys2Proof/Proofs/RingContents.lean ====
section
/-! PROOFS. What a push and a pop make of a ring's storage and of its pending bytes (20_memory.md R51, R52, R54), and which way each agent's operations move the
two counts (R65). -/

namespace Sys2Proof.Machine

open Config

/-! ## Push and pop -/

/-- A push writes its byte at the head (R51). -/
theorem Ring.read_push_head {r : Ring} (log2 : Nat) (b : Byte) (h : Memory.wf r.mem = true) :
    Memory.read (r.push log2 b).mem r.head = b := Memory.read_write_same h r.head b

/-- In a ring of one element a push leaves the head at 0 (R51). -/
theorem Ring.push_head_of_one_element (b : Byte) (r : Ring) : (r.push 0 b).head = 0 := by
  change nextIndex 0 r.head = 0
  rw [nextIndex_eq, pow_zero, Nat.mod_one]

/-- Settles O27: the storage by the lemmas of a write, the registers by the definition of the push. -/
theorem ringPushEffect : Obligations.RingPushEffect := by
  intro log2 b r hwf _
  refine ⟨r.read_push_head log2 b hwf, fun a ha => Ring.read_push_of_ne log2 b ha, rfl, rfl, rfl, ?_, Memory.write_wf hwf r.head b⟩
  rintro rfl
  exact r.push_head_of_one_element b

/-- With room, no pending byte stands at the head: that index is the first after theirs, and they are fewer than the elements. -/
theorem Ring.Ok.pendingIndex_ne_head {log2 i : Nat} {r : Ring} (h : r.Ok log2) (hi : i < r.count)
    (hroom : r.count < 2 ^ log2) : (r.tail + i) % 2 ^ log2 ≠ r.head := by
  rw [h.head_eq]
  intro heq
  have hmod : i ≡ r.count [MOD 2 ^ log2] := Nat.ModEq.add_left_cancel' r.tail heq
  exact hi.ne (hmod.eq_of_lt_of_lt (hi.trans hroom) hroom)

/-- A push with room appends its byte to the pending bytes (R51, R54). -/
theorem Ring.Ok.pending_push {log2 : Nat} {r : Ring} (h : r.Ok log2) (b : Byte) (hroom : r.count < 2 ^ log2) :
    (r.push log2 b).pending log2 = r.pending log2 ++ [b] := by
  have hold : ∀ i ∈ List.range r.count,
      Memory.read (r.push log2 b).mem ((r.tail + i) % 2 ^ log2) = Memory.read r.mem ((r.tail + i) % 2 ^ log2) :=
    fun i hi => Ring.read_push_of_ne log2 b (h.pendingIndex_ne_head (List.mem_range.1 hi) hroom)
  have hnew : Memory.read (r.push log2 b).mem ((r.tail + r.count) % 2 ^ log2) = b := by
    rw [← h.head_eq, r.read_push_head log2 b h.mem_wf]
  change (List.range (r.count + 1)).map (fun i => Memory.read (r.push log2 b).mem ((r.tail + i) % 2 ^ log2)) = _
  rw [List.range_succ, List.map_append, List.map_congr_left hold, List.map_singleton, hnew]
  rfl

/-- The indices of the pending bytes, counted from the element after the tail, are those counted from the tail one further. -/
theorem nextIndex_add_mod (log2 tail i : Nat) : (nextIndex log2 tail + i) % 2 ^ log2 = (tail + (i + 1)) % 2 ^ log2 := by
  rw [nextIndex_eq, Nat.mod_add_mod, Nat.add_assoc, Nat.add_comm 1 i]

/-- The pending bytes of a ring that has one are the byte a pop returns and those it leaves (R52, R54). -/
theorem Ring.Ok.pending_eq_front_cons {log2 : Nat} {r : Ring} (h : r.Ok log2) (hpending : 0 < r.count) :
    r.pending log2 = r.front :: (r.drop log2).pending log2 := by
  have hcount : r.count = (r.drop log2).count + 1 := (Nat.sub_add_cancel hpending).symm
  have hfront : Memory.read r.mem ((r.tail + 0) % 2 ^ log2) = r.front := by
    rw [Nat.add_zero, Nat.mod_eq_of_lt h.tail_lt, Ring.front]
  rw [Ring.pending, hcount, List.range_succ_eq_map, List.map_cons, hfront, List.map_map]
  congr 1
  exact List.map_congr_left fun i _ => congrArg (Memory.read r.mem) (nextIndex_add_mod log2 r.tail i).symm

/-- Settles O29, from the two operations' lemmas. -/
theorem ringIsFifo : Obligations.RingIsFifo :=
  fun _ _ h => ⟨h.pending_push, h.pending_eq_front_cons⟩

/-! ## Which way the counts move -/

/-- A data byte takes none from `RX` (R106). -/
theorem Device.rx_count_le_onByteReceived (b : Byte) (d : Device) : d.rx.count ≤ (d.onByteReceived b).rx.count := by
  by_cases hroom : d.rx.count < 2 ^ d.cfg.rxLog2.val
  · rw [Device.onByteReceived_rx_of_room hroom]
    exact Nat.le_succ d.rx.count
  · rw [Device.onByteReceived_rx_of_full (Nat.not_lt.1 hroom)]

/-- Sending the next byte adds none to `TX` (R109). -/
theorem Device.sendNext_tx_count_le (d : Device) : d.sendNext.tx.count ≤ d.tx.count := by
  unfold Device.sendNext
  split
  · exact Nat.sub_le d.tx.count 1
  · exact le_rfl

/-- Taking an acknowledge bit adds none to `TX` (R104). -/
theorem Device.onAckBit_tx_count_le (b : Byte) (d : Device) : (d.onAckBit b).tx.count ≤ d.tx.count := by
  unfold Device.onAckBit
  split
  · exact le_rfl
  · exact d.sendNext_tx_count_le

/-- An application read adds none to `RX` (R121). -/
theorem Device.afterRead_rx_count_le (d : Device) : d.afterRead.rx.count ≤ d.rx.count := by
  by_cases hempty : d.rx.count = 0
  · rw [Device.afterRead_of_empty hempty, Device.keepFault_rx]
  · rw [Device.afterRead_of_pending hempty]
    exact Nat.sub_le d.rx.count 1

/-- An application's queueing of a byte takes none from `TX` (R122). -/
theorem Device.tx_count_le_afterQueue (b : Byte) (d : Device) : d.tx.count ≤ (d.afterQueue b).tx.count := by
  by_cases hfull : d.tx.count = 2 ^ d.cfg.txLog2.val
  · rw [Device.afterQueue_of_full hfull, Device.keepFault_tx]
  · rw [Device.afterQueue_of_room hfull]
    exact Nat.le_succ d.tx.count

/-- An event takes no byte from `RX` and adds none to `TX`: one rule writes `RX`, and two write `TX` (R65). -/
theorem Device.after_event_counts {i : Instr} (ha : i.agent = .environment) (d : Device) :
    d.rx.count ≤ (d.after i).rx.count ∧ (d.after i).tx.count ≤ d.tx.count := by
  cases i with
  | evOvfStoreByteAndAck b => exact ⟨d.rx_count_le_onByteReceived b, by rw [(d.after_event_tx ha nofun nofun).1]⟩
  | evOvfSendDataByte b => exact ⟨by rw [(d.after_event_rx ha nofun).1], d.sendNext_tx_count_le⟩
  | evOvfCheckReceivedAck b => exact ⟨by rw [(d.after_event_rx ha nofun).1], d.onAckBit_tx_count_le b⟩
  | _ => rw [(d.after_event_rx ha nofun).1, (d.after_event_tx ha nofun nofun).1]; exact ⟨le_rfl, le_rfl⟩

/-- An application operation adds no byte to `RX` and takes none from `TX`: the read alone writes `RX`, and the queueing alone `TX` (R65). -/
theorem Device.after_app_counts {i : Instr} (ha : i.agent = .application) (d : Device) :
    (d.after i).rx.count ≤ d.rx.count ∧ d.tx.count ≤ (d.after i).tx.count := by
  cases i with
  | appRead => exact ⟨d.afterRead_rx_count_le, by rw [d.after_app_tx ha nofun]⟩
  | appQueue b => exact ⟨by rw [d.after_app_rx ha nofun], d.tx_count_le_afterQueue b⟩
  | _ => rw [d.after_app_rx ha nofun, d.after_app_tx ha nofun]; exact ⟨le_rfl, le_rfl⟩

/-- Settles O25: the operation leaves of the device in front what the two lemmas above say. -/
theorem ringOwnership : Obligations.RingOwnership := by
  intro i s t h
  rw [exec_dev h]
  exact ⟨fun ha => s.dev.after_event_counts ha, fun ha => s.dev.after_app_counts ha⟩

end Sys2Proof.Machine
end

