-- ==== Sys2Proof/Proofs/StepOfRequest.lean ====
section
/-! PROOFS. The step whose move is a request: what is offered, and when its operation runs (20_memory.md R58, 30_encoding.md R84). -/

namespace Sys2Proof.Machine

/-- A step whose move is a request offers it, in the state whose schedule is what follows. -/
theorem step_of_request {s : State} {r : Request} {rest : List Move} (hs : s.sched = .request r :: rest) :
    step s = offer r (s.withSched rest) := by
  unfold step takeMove
  rw [hs]
  rfl

/-- An agent whose run no fault has ended may take a step (R170). -/
theorem State.agentFaulted_eq_false {i : Instr} {s : State} (hspe : i.agent = .environment → s.dev.speFault = none)
    (happ : i.agent = .application → s.dev.appFault = none) : s.agentFaulted i = false := by
  unfold State.agentFaulted
  cases ha : i.agent with
  | environment => rw [hspe ha]; rfl
  | application => rw [happ ha]; rfl
  | hostCaller => rfl

/-- A request that decodes runs from outside when the bus is free of the host for an event, no client program stands in the way of a host operation,
and its agent has not faulted. -/
theorem offer_of_decode {s : State} {r : Request} {i : Instr} (hdec : decodeRequest s.dev.st r = .ok i)
    (hbus : i.agent = .environment → s.bus = none) (hjob : i.agent = .hostCaller → s.client.job = .idle)
    (hspe : i.agent = .environment → s.dev.speFault = none) (happ : i.agent = .application → s.dev.appFault = none) :
    offer r s = runOffered i s := by
  have hb : s.busTaken i = false := by simpa [State.busTaken] using hbus
  have hj : s.hostTaken i = false := by simpa [State.hostTaken] using hjob
  simp [offer, hdec, hb, hj, State.agentFaulted_eq_false hspe happ]

/-- Settles O7: the step offers the request, which runs, and the outcome of its operation is the step's. -/
theorem stepRunsDecodedInstruction : Obligations.StepRunsDecodedInstruction := by
  intro s r rest i hs hdec hbus hjob hspe happ
  have hstep : step s = runOffered i (s.withSched rest) :=
    (step_of_request hs).trans (offer_of_decode hdec (by simpa using hbus) (by simpa using hjob) (by simpa using hspe)
      (by simpa using happ))
  rw [hstep, runOffered]
  refine ⟨fun t ht => ?_, fun f hf => ?_, fun x hx => ?_⟩
  · rw [ht]; rfl
  · rw [hf]
  · rw [hx]

end Sys2Proof.Machine
end

