-- ==== Sys2Proof/Proofs/Encoding.lean ====
section
/-! PROOFS. The request interface (30_encoding.md R83 to R87): what the decoder makes of a key put together from its fields, that decoding and encoding are
inverse to each other, and how the rows of opcode_table.json divide the keys. -/

namespace Sys2Proof

/-! ## The decoder on a key put together from its fields -/

section Fields

variable (st : BitVec 3) (d : Byte) (p : Payload)

@[simp] theorem decode_evStart : decode (mkKey st (mkWord 0x1#4 d)) p = dataMustBeZero d .evStart := by simp [decode]
@[simp] theorem decode_evOvf : decode (mkKey st (mkWord 0x2#4 d)) p = .ok (decodeOvf st d) := by simp [decode]
@[simp] theorem decode_evStop : decode (mkKey st (mkWord 0x3#4 d)) p = dataMustBeZero d .evStop := by simp [decode]
@[simp] theorem decode_appAvailable : decode (mkKey st (mkWord 0x4#4 d)) p = dataMustBeZero d .appAvailable := by simp [decode]
@[simp] theorem decode_appRead : decode (mkKey st (mkWord 0x5#4 d)) p = dataMustBeZero d .appRead := by simp [decode]
@[simp] theorem decode_appQueue : decode (mkKey st (mkWord 0x6#4 d)) p = .ok (.appQueue d) := by simp [decode]
@[simp] theorem decode_appTxCount : decode (mkKey st (mkWord 0x7#4 d)) p = dataMustBeZero d .appTxCount := by simp [decode]
@[simp] theorem decode_hostCmd1 : decode (mkKey st (mkWord 0x8#4 d)) p = decodeHostCmd1 d p := by simp [decode]
@[simp] theorem decode_hostCmdN : decode (mkKey st (mkWord 0x9#4 d)) p = decodeHostCmdN d p := by simp [decode]

/-- The operation codes 0 and 0xA to 0xF are reserved (R86). -/
theorem decode_of_reserved {op : BitVec 4} (hop : op = 0x0#4 ∨ 0xA#4 ≤ op) :
    decode (mkKey st (mkWord op d)) p = .error .reservedOp := by
  unfold decode
  rw [keyOp_mkKey]
  split
  case h_10 => rfl
  all_goals exact absurd hop (by decide)

/-- `DATA` must be 0 beside every operation code in use but those of `EV_OVF` and `APP_QUEUE` (R85, R86). -/
theorem decode_of_nonzeroData {op : BitVec 4} {d : Byte}
    (hop : op ∈ [0x1#4, 0x3#4, 0x4#4, 0x5#4, 0x7#4, 0x8#4, 0x9#4]) (hd : d ≠ 0#8) :
    decode (mkKey st (mkWord op d)) p = .error .nonzeroData := by
  simp only [List.mem_cons, List.not_mem_nil, or_false] at hop
  obtain rfl | rfl | rfl | rfl | rfl | rfl | rfl := hop <;>
    simp [dataMustBeZero, decodeHostCmd1, decodeHostCmdN, hd]

/-- Only the overflow's code reads `ST` (R84). -/
theorem decode_ignores_st (st' : BitVec 3) {op : BitVec 4} (hop : op ≠ 0x2#4) :
    decode (mkKey st (mkWord op d)) p = decode (mkKey st' (mkWord op d)) p := by
  simp only [decode, keyOp_mkKey, keyData_mkKey]
  split
  case h_2 => exact absurd rfl hop
  all_goals rfl

end Fields

/-- Every `ST` of 6 or 7 selects the invalid-state rule, with its low bit (R85). -/
theorem decodeOvf_invalidState (low : BitVec 1) (d : Byte) : decodeOvf (3#2 ++ low) d = .evOvfInvalidState low d := by
  have hlow : low = 0#1 ∨ low = 1#1 := by revert low; decide
  obtain rfl | rfl := hlow <;> rfl

/-! ## Decoding and encoding are inverse -/

/-- The decoder reads the key and the descriptor of an operation back as that operation. -/
theorem decode_encodeKey (st : BitVec 3) (i : Instr) : decode (encodeKey st i) (encodePayload i) = .ok i := by
  cases i with
  | evStart => exact decode_evStart st 0#8 _
  | evOvfAwaitAddress d => exact decode_evOvf 0#3 d _
  | evOvfSendDataByte d => exact decode_evOvf 1#3 d _
  | evOvfAwaitAckAfterSend d => exact decode_evOvf 2#3 d _
  | evOvfCheckReceivedAck d => exact decode_evOvf 3#3 d _
  | evOvfReceiveDataByte d => exact decode_evOvf 4#3 d _
  | evOvfStoreByteAndAck d => exact decode_evOvf 5#3 d _
  | evOvfInvalidState low d =>
    exact (decode_evOvf (3#2 ++ low) d _).trans (congrArg Except.ok (decodeOvf_invalidState low d))
  | evStop => exact decode_evStop st 0#8 _
  | appAvailable => exact decode_appAvailable st 0#8 _
  | appRead => exact decode_appRead st 0#8 _
  | appQueue b => exact decode_appQueue st b _
  | appTxCount => exact decode_appTxCount st 0#8 _
  | hostCmd1 d => exact decode_hostCmd1 st 0#8 _
  | hostCmdN d r => exact decode_hostCmdN st 0#8 _

/-- An operation whose `DATA` must be 0 is read only beside `DATA` 0. -/
theorem dataMustBeZero_eq_ok {d : Byte} {i j : Instr} : dataMustBeZero d i = .ok j ↔ d = 0#8 ∧ i = j := by
  unfold dataMustBeZero
  split
  · next hd => simp [hd]
  · next hd => simp [hd]

/-- `HOST_CMD1` is read only beside `DATA` 0 and its own descriptor (R87). -/
theorem decodeHostCmd1_eq_ok {d : Byte} {p : Payload} {i : Instr} :
    decodeHostCmd1 d p = .ok i ↔ d = 0#8 ∧ ∃ x, p = .one x ∧ i = .hostCmd1 x := by
  unfold decodeHostCmd1
  split
  · next hd => cases p <;> simp [hd, eq_comm]
  · next hd => simp [hd]

/-- `HOST_CMDN` is read only beside `DATA` 0 and its own descriptor (R87). -/
theorem decodeHostCmdN_eq_ok {d : Byte} {p : Payload} {i : Instr} :
    decodeHostCmdN d p = .ok i ↔ d = 0#8 ∧ ∃ x r, p = .many x r ∧ i = .hostCmdN x r := by
  unfold decodeHostCmdN
  split
  · next hd => cases p <;> simp [hd, eq_comm]
  · next hd => simp [hd]

/-- The overflow's operation for an `ST` is encoded with that `ST`. -/
theorem encodeKey_decodeOvf (st st' : BitVec 3) (d : Byte) : encodeKey st' (decodeOvf st d) = mkKey st (mkWord 0x2#4 d) := by
  have hst : ∀ x : BitVec 3, x = 0#3 ∨ x = 1#3 ∨ x = 2#3 ∨ x = 3#3 ∨ x = 4#3 ∨ x = 5#3 ∨ x = 6#3 ∨ x = 7#3 := by decide
  obtain rfl | rfl | rfl | rfl | rfl | rfl | rfl | rfl := hst st <;> rfl

/-- A key that decodes is the key of the operation it decodes to, in the `ST` of the key. -/
theorem encodeKey_of_decode {k : Key} {p : Payload} {i : Instr} (h : decode k p = .ok i) : encodeKey (keySt k) i = k := by
  rw [key_eta k] at h ⊢
  generalize keySt k = st, keyOp k = op, keyData k = d at h ⊢
  rw [keySt_mkKey]
  unfold decode at h
  rw [keyOp_mkKey, keyData_mkKey, keySt_mkKey] at h
  split at h
  case h_2 => cases h; exact encodeKey_decodeOvf st st d
  case h_6 => cases h; rfl
  case h_8 => obtain ⟨rfl, x, -, rfl⟩ := decodeHostCmd1_eq_ok.1 h; rfl
  case h_9 => obtain ⟨rfl, x, r, -, rfl⟩ := decodeHostCmdN_eq_ok.1 h; rfl
  case h_10 => cases h
  all_goals obtain ⟨rfl, rfl⟩ := dataMustBeZero_eq_ok.1 h; rfl

/-- Settles O1: the round trip above, one equation of the decoder for each operation. -/
theorem decodeOfEncode : Obligations.DecodeOfEncode := decode_encodeKey

/-- Settles O2: each word is read by evaluating the decoder. -/
theorem decodesSampleWords : Obligations.DecodesSampleWords :=
  ⟨rfl, rfl, rfl, rfl, rfl, rfl, rfl, rfl, rfl, rfl, rfl⟩

/-- Settles O3: the overflow's equation at each `ST`, and that no other operation reads it. -/
theorem decodeSelectsByState : Obligations.DecodeSelectsByState :=
  ⟨decode_evOvf 0#3, decode_evOvf 1#3, decode_evOvf 2#3, decode_evOvf 3#3, decode_evOvf 4#3, decode_evOvf 5#3,
    decode_evOvf 6#3, decode_evOvf 7#3, fun st st' _ d p hop => decode_ignores_st st d p st' hop⟩

/-! ## The rows of opcode_table.json -/

/-- A mask acts on each field of a key by itself. -/
theorem mkKey_and (st st' : BitVec 3) (op op' : BitVec 4) (d d' : Byte) :
    mkKey st (mkWord op d) &&& mkKey st' (mkWord op' d') = mkKey (st &&& st') (mkWord (op &&& op') (d &&& d')) := by
  apply BitVec.eq_of_getLsbD_eq
  intro i _
  simp only [BitVec.getLsbD_and, getLsbD_mkKey, getLsbD_mkWord]
  split
  · split <;> rfl
  · rfl

/-- Every row of the table reads all of `OP`; a key belongs to it when that agrees and the parts of `ST` and `DATA` that the row reads do. -/
theorem rowTakes_iff {ms ps : BitVec 3} {op : BitVec 4} {md pd : Byte} {k : Key} :
    rowTakes ⟨mkKey ms (mkWord 0xF#4 md), mkKey ps (mkWord op pd)⟩ k = true ↔
      keySt k &&& ms = ps ∧ keyOp k = op ∧ keyData k &&& md = pd := by
  have hop : keyOp k &&& 0xF#4 = keyOp k := BitVec.and_allOnes
  have hmasked : k &&& mkKey ms (mkWord 0xF#4 md) = mkKey (keySt k &&& ms) (mkWord (keyOp k) (keyData k &&& md)) := by
    conv_lhs => rw [key_eta k, mkKey_and, hop]
  rw [rowTakes, beq_iff_eq, hmasked]
  constructor
  · intro h
    exact ⟨by simpa using congrArg keySt h, by simpa using congrArg keyOp h, by simpa using congrArg keyData h⟩
  · rintro ⟨rfl, rfl, rfl⟩
    rfl

/-- A row that reads all of the word takes the keys of that word. -/
theorem rowTakes_word (op : BitVec 4) {k : Key} :
    rowTakes ⟨mkKey 0#3 (mkWord 0xF#4 0xFF#8), mkKey 0#3 (mkWord op 0#8)⟩ k = true ↔
      ∃ st, mkKey st (mkWord op 0#8) = k := by
  have hdata : keyData k &&& 0xFF#8 = keyData k := BitVec.and_allOnes
  rw [rowTakes_iff, hdata]
  constructor
  · rintro ⟨-, rfl, hd⟩
    exact ⟨keySt k, hd ▸ (key_eta k).symm⟩
  · rintro ⟨st, rfl⟩
    simp

/-- A row that reads `OP` alone takes the keys of that code. -/
theorem rowTakes_op (op : BitVec 4) {k : Key} :
    rowTakes ⟨mkKey 0#3 (mkWord 0xF#4 0#8), mkKey 0#3 (mkWord op 0#8)⟩ k = true ↔
      ∃ st d, mkKey st (mkWord op d) = k := by
  rw [rowTakes_iff]
  constructor
  · rintro ⟨-, rfl, -⟩
    exact ⟨keySt k, keyData k, (key_eta k).symm⟩
  · rintro ⟨st, d, rfl⟩
    simp

/-- A row that reads `ST` and `OP` takes the keys of that code in that state. -/
theorem rowTakes_state (st : BitVec 3) (op : BitVec 4) {k : Key} :
    rowTakes ⟨mkKey 7#3 (mkWord 0xF#4 0#8), mkKey st (mkWord op 0#8)⟩ k = true ↔ ∃ d, mkKey st (mkWord op d) = k := by
  have hst : keySt k &&& 7#3 = keySt k := BitVec.and_allOnes
  rw [rowTakes_iff, hst]
  constructor
  · rintro ⟨rfl, rfl, -⟩
    exact ⟨keyData k, (key_eta k).symm⟩
  · rintro ⟨d, rfl⟩
    simp

/-- A row that reads `OP` and the two upper bits of `ST` takes the keys of that code in the two states these bits leave. -/
theorem rowTakes_statePair (hi : BitVec 2) (op : BitVec 4) {k : Key} :
    rowTakes ⟨mkKey 6#3 (mkWord 0xF#4 0#8), mkKey (hi ++ 0#1) (mkWord op 0#8)⟩ k = true ↔
      ∃ (low : BitVec 1) (d : Byte), mkKey (hi ++ low) (mkWord op d) = k := by
  have hst : ∀ st : BitVec 3, ∀ hi : BitVec 2, st &&& 6#3 = hi ++ 0#1 ↔ ∃ low : BitVec 1, hi ++ low = st := by decide
  rw [rowTakes_iff, hst]
  constructor
  · rintro ⟨⟨low, hlow⟩, rfl, -⟩
    exact ⟨low, keyData k, hlow ▸ (key_eta k).symm⟩
  · rintro ⟨low, d, rfl⟩
    simp

/-- The row of an operation takes every key of that operation. -/
theorem rowTakes_encodeKey (st : BitVec 3) (i : Instr) : rowTakes (rowOf i) (encodeKey st i) = true := by
  cases i with
  | evStart => exact (rowTakes_word 0x1#4).2 ⟨st, rfl⟩
  | evOvfAwaitAddress d => exact (rowTakes_state 0#3 0x2#4).2 ⟨d, rfl⟩
  | evOvfSendDataByte d => exact (rowTakes_state 1#3 0x2#4).2 ⟨d, rfl⟩
  | evOvfAwaitAckAfterSend d => exact (rowTakes_state 2#3 0x2#4).2 ⟨d, rfl⟩
  | evOvfCheckReceivedAck d => exact (rowTakes_state 3#3 0x2#4).2 ⟨d, rfl⟩
  | evOvfReceiveDataByte d => exact (rowTakes_state 4#3 0x2#4).2 ⟨d, rfl⟩
  | evOvfStoreByteAndAck d => exact (rowTakes_state 5#3 0x2#4).2 ⟨d, rfl⟩
  | evOvfInvalidState low d => exact (rowTakes_statePair 3#2 0x2#4).2 ⟨low, d, rfl⟩
  | evStop => exact (rowTakes_word 0x3#4).2 ⟨st, rfl⟩
  | appAvailable => exact (rowTakes_word 0x4#4).2 ⟨st, rfl⟩
  | appRead => exact (rowTakes_word 0x5#4).2 ⟨st, rfl⟩
  | appQueue b => exact (rowTakes_op 0x6#4).2 ⟨st, b, rfl⟩
  | appTxCount => exact (rowTakes_word 0x7#4).2 ⟨st, rfl⟩
  | hostCmd1 d => exact (rowTakes_word 0x8#4).2 ⟨st, rfl⟩
  | hostCmdN d r => exact (rowTakes_word 0x9#4).2 ⟨st, rfl⟩

/-- Every key that a row of the table takes is a key of an operation of that row. -/
theorem exists_encodeKey_of_rowTakes {k : Key} :
    ∀ r ∈ opcodeTable, rowTakes r k = true → ∃ st i, rowOf i = r ∧ encodeKey st i = k := by
  simp only [opcodeTable, List.cons_append, List.nil_append, List.forall_mem_cons]
  refine ⟨?_, ?_, ?_, ?_, ?_, ?_, ?_, ?_, ?_, ?_, ?_, ?_, ?_, ?_, ?_, nofun⟩ <;> intro h
  · obtain ⟨st, hk⟩ := (rowTakes_word 0x1#4).1 h; exact ⟨st, .evStart, rfl, hk⟩
  · obtain ⟨d, hk⟩ := (rowTakes_state 0#3 0x2#4).1 h; exact ⟨0#3, .evOvfAwaitAddress d, rfl, hk⟩
  · obtain ⟨d, hk⟩ := (rowTakes_state 1#3 0x2#4).1 h; exact ⟨1#3, .evOvfSendDataByte d, rfl, hk⟩
  · obtain ⟨d, hk⟩ := (rowTakes_state 2#3 0x2#4).1 h; exact ⟨2#3, .evOvfAwaitAckAfterSend d, rfl, hk⟩
  · obtain ⟨d, hk⟩ := (rowTakes_state 3#3 0x2#4).1 h; exact ⟨3#3, .evOvfCheckReceivedAck d, rfl, hk⟩
  · obtain ⟨d, hk⟩ := (rowTakes_state 4#3 0x2#4).1 h; exact ⟨4#3, .evOvfReceiveDataByte d, rfl, hk⟩
  · obtain ⟨d, hk⟩ := (rowTakes_state 5#3 0x2#4).1 h; exact ⟨5#3, .evOvfStoreByteAndAck d, rfl, hk⟩
  · obtain ⟨low, d, hk⟩ := (rowTakes_statePair 3#2 0x2#4).1 h; exact ⟨6#3, .evOvfInvalidState low d, rfl, hk⟩
  · obtain ⟨st, hk⟩ := (rowTakes_word 0x3#4).1 h; exact ⟨st, .evStop, rfl, hk⟩
  · obtain ⟨st, hk⟩ := (rowTakes_word 0x4#4).1 h; exact ⟨st, .appAvailable, rfl, hk⟩
  · obtain ⟨st, hk⟩ := (rowTakes_word 0x5#4).1 h; exact ⟨st, .appRead, rfl, hk⟩
  · obtain ⟨st, d, hk⟩ := (rowTakes_op 0x6#4).1 h; exact ⟨st, .appQueue d, rfl, hk⟩
  · obtain ⟨st, hk⟩ := (rowTakes_word 0x7#4).1 h; exact ⟨st, .appTxCount, rfl, hk⟩
  · obtain ⟨st, hk⟩ := (rowTakes_word 0x8#4).1 h; exact ⟨st, .hostCmd1 ⟨0#8, [], 0#8⟩, rfl, hk⟩
  · obtain ⟨st, hk⟩ := (rowTakes_word 0x9#4).1 h; exact ⟨st, .hostCmdN ⟨0#8, [], 0#8⟩ ⟨0, []⟩, rfl, hk⟩

/-- Every operation has its row in the table. -/
theorem rowOf_mem_opcodeTable (i : Instr) : rowOf i ∈ opcodeTable := by
  cases i with
  | evStart => exact Laws.InTable.evStart.1
  | evOvfAwaitAddress d => exact (Laws.InTable.evOvfAwaitAddress d).1
  | evOvfSendDataByte d => exact (Laws.InTable.evOvfSendDataByte d).1
  | evOvfAwaitAckAfterSend d => exact (Laws.InTable.evOvfAwaitAckAfterSend d).1
  | evOvfCheckReceivedAck d => exact (Laws.InTable.evOvfCheckReceivedAck d).1
  | evOvfReceiveDataByte d => exact (Laws.InTable.evOvfReceiveDataByte d).1
  | evOvfStoreByteAndAck d => exact (Laws.InTable.evOvfStoreByteAndAck d).1
  | evOvfInvalidState low d => exact (Laws.InTable.evOvfInvalidState low d).1
  | evStop => exact Laws.InTable.evStop.1
  | appAvailable => exact Laws.InTable.appAvailable.1
  | appRead => exact Laws.InTable.appRead.1
  | appQueue b => exact (Laws.InTable.appQueue b).1
  | appTxCount => exact Laws.InTable.appTxCount.1
  | hostCmd1 d => exact (Laws.InTable.hostCmd1 d).1
  | hostCmdN d r => exact (Laws.InTable.hostCmdN d r).1

/-- Two rows of the table differ in a bit that both of them read. -/
theorem opcodeTable_disjoint :
    ∀ r ∈ opcodeTable, ∀ r' ∈ opcodeTable, r.pattern &&& r'.mask = r'.pattern &&& r.mask → r = r' := by
  decide

/-- A key belongs to one row of the table at most. -/
theorem row_unique {k : Key} {r r' : TableRow} (hr : r ∈ opcodeTable) (hr' : r' ∈ opcodeTable)
    (hk : rowTakes r k = true) (hk' : rowTakes r' k = true) : r = r' := by
  rw [rowTakes, beq_iff_eq] at hk hk'
  refine opcodeTable_disjoint r hr r' hr' ?_
  rw [← hk, ← hk', BitVec.and_assoc, BitVec.and_assoc, BitVec.and_comm r.mask]

/-- Settles O4: the key is its operation's, and only one row takes it. -/
theorem decodedKeyHasOneRow : Obligations.DecodedKeyHasOneRow := by
  intro k p i h
  have htakes : rowTakes (rowOf i) k = true := encodeKey_of_decode h ▸ rowTakes_encodeKey (keySt k) i
  exact ⟨htakes, fun r hr hk => row_unique hr (rowOf_mem_opcodeTable i) hk htakes⟩

/-- Settles O5: the key is a key of an operation of the row, which decodes beside its own descriptor. -/
theorem everyTableKeyDecodes : Obligations.EveryTableKeyDecodes := by
  intro k r hr hk
  obtain ⟨st, i, hrow, rfl⟩ := exists_encodeKey_of_rowTakes r hr hk
  exact ⟨encodePayload i, i, decode_encodeKey st i, hrow⟩

end Sys2Proof
end

