-- ==== Sys2Proof/Proofs/RefusedWords.lean ====
section
/-! PROOFS. The step whose move is a request that does not decode (30_encoding.md R86, 60_exceptions.md R183), and the result codes (R89). -/

namespace Sys2Proof.Machine

/-- A request that does not decode is refused with the decoder's reason. -/
theorem offer_of_decode_error {s : State} {r : Request} {e : DecodeError} (h : decodeRequest s.dev.st r = .error e) :
    offer r s = .refused (refusalOf e) := by
  simp [offer, h]

/-- Settles O6: the step offers the word, which the decoder refuses. -/
theorem refusesReservedWords : Obligations.RefusesReservedWords := by
  intro s op d p rest hs
  rw [step_of_request hs]
  exact ⟨fun hop => offer_of_decode_error (e := .reservedOp) (decode_of_reserved _ d p hop),
    fun hop hd => offer_of_decode_error (e := .nonzeroData) (decode_of_nonzeroData _ p hop hd)⟩

/-- Settles O43: each code is the one the definition gives. -/
theorem resultCodesDistinct : Obligations.ResultCodesDistinct := ⟨rfl, rfl, rfl, rfl, rfl⟩

end Sys2Proof.Machine
end

