-- ==== Sys2Proof/Proofs/OverflowOperands.lean ====
section
/-! PROOFS. The overflows whose operand decides (40_slave_bus_events.md R101, R104): the address byte put together from its two fields, what each of its forms
and what each acknowledge bit leads to, and R109 in its own terms. -/

namespace Sys2Proof.Machine

/-- An overflow whose bus mode is not armed has no move (R178). -/
theorem takeArmed_of_ne {mode : BitVec 3} {s : State} (h : s.dev.bm ≠ mode) (rule : Device → Device) :
    takeArmed mode rule s = .fault (.noMove .overflowNotArmed) := if_neg h

/-! ## The address byte -/

/-- A bit of a byte made of an address and a direction. -/
theorem getLsbD_addrByte (a : PeerAddr) (x : BitVec 1) (i : Nat) :
    (a ++ x : Byte).getLsbD i = if i < 1 then x.getLsbD i else a.getLsbD (i - 1) :=
  BitVec.getLsbD_append

/-- A byte is put together from the address in its upper bits and the direction in bit 0 (R70). -/
theorem byte_eq_append_iff {b : Byte} {a : PeerAddr} {x : BitVec 1} :
    b = a ++ x ↔ byteAddr b = a ∧ byteIsRead b = x.getLsbD 0 := by
  unfold byteAddr byteIsRead
  constructor
  · rintro rfl
    refine ⟨BitVec.eq_of_getLsbD_eq fun i hi => ?_, getLsbD_addrByte a x 0⟩
    have hupper : ¬ 1 + i < 1 := by omega
    rw [BitVec.getLsbD_extractLsb', getLsbD_addrByte, if_neg hupper, Nat.add_sub_cancel_left]
    simp [hi]
  · rintro ⟨rfl, hx⟩
    refine BitVec.eq_of_getLsbD_eq fun i hi => ?_
    rw [getLsbD_addrByte]
    cases i with
    | zero => exact hx
    | succ i =>
      have hbit : i < 7 := by omega
      simp [hbit, Nat.add_comm 1 i]

/-- The own address with direction 1 selects the SPE for a read, with direction 0 for a write, and no other byte selects it (R71, R101). -/
theorem Device.onAddress_eq (b : Byte) (d : Device) :
    d.onAddress b =
      if b = d.cfg.slaveAddr ++ 1#1 then { d with st := 1#3, bm := 3#3, ntf := d.ntf ++ [.req] }
      else if b = d.cfg.slaveAddr ++ 0#1 then { d with st := 4#3, bm := 3#3 }
      else { d with st := 0#3, bm := 0#3 } := by
  simp only [byte_eq_append_iff]
  unfold Device.onAddress Device.addr
  by_cases haddr : byteAddr b = d.cfg.slaveAddr
  · cases hdir : byteIsRead b <;> simp [haddr, Device.goTo, Device.emit]
  · simp [haddr, Device.goTo]

/-- Settles O11: the armed overflow is the taking of the address byte. -/
theorem ovfAddressResult : Obligations.OvfAddressResult := fun s b =>
  ⟨fun hbm => takeArmed_next.2 ⟨hbm, congrArg s.withDev (s.dev.onAddress_eq b).symm⟩, fun hbm => takeArmed_of_ne hbm _⟩

/-! ## The acknowledge bit -/

/-- `SendNext()` in R109's own terms. -/
theorem Device.sendNext_eq_afterSendNext (d : Device) : d.sendNext = d.afterSendNext := by
  unfold Device.sendNext Device.afterSendNext
  split
  · rw [← nextIndex_eq]; rfl
  · rfl

/-- An acknowledge bit of 1 ends the read (R104). -/
theorem Device.onAckBit_of_nack {b : Byte} (h : b.getLsbD 0 = true) (d : Device) :
    d.onAckBit b = { d with st := 0#3, bm := 0#3 } := if_pos h

/-- An acknowledge bit of 0 arms the next byte (R104, R109). -/
theorem Device.onAckBit_of_ack {b : Byte} (h : b.getLsbD 0 = false) (d : Device) : d.onAckBit b = d.afterSendNext :=
  (if_neg (ne_true_of_eq_false h)).trans d.sendNext_eq_afterSendNext

/-- Settles O14: the armed overflow is the taking of the acknowledge bit. -/
theorem ovfAckBitResult : Obligations.OvfAckBitResult := fun s _ =>
  ⟨fun hbm hnack => takeArmed_next.2 ⟨hbm, congrArg s.withDev (s.dev.onAckBit_of_nack hnack).symm⟩,
    fun hbm hack => takeArmed_next.2 ⟨hbm, congrArg s.withDev (s.dev.onAckBit_of_ack hack).symm⟩,
    fun hbm => takeArmed_of_ne hbm _⟩

end Sys2Proof.Machine
end

