-- ==== Sys2Proof/Proofs/BusEventResults.lean ====
section
/-! PROOFS. The bus events whose operand does not decide, and the data byte (40_slave_bus_events.md R100, R102, R103, R105 to R108), each with its request word
where the statement gives one; and that every enabled event of a defined state has a next state, again a defined one (R110). -/

namespace Sys2Proof.Machine

/-! ## Start and stop -/

/-- Ending a write notifies in the receive path alone (R100, R107). -/
theorem Device.endWrite_eq (d : Device) :
    d.endWrite = { d with ntf := if d.st = 4#3 ∨ d.st = 5#3 then d.ntf ++ [.rcv] else d.ntf } := by
  unfold Device.endWrite
  split <;> rfl

/-- A start notifies in the receive path and opens the address phase (R100). -/
theorem Device.onStart_eq (d : Device) :
    d.onStart =
      { d with st := 0#3, bm := 1#3, ntf := if d.st = 4#3 ∨ d.st = 5#3 then d.ntf ++ [.rcv] else d.ntf } := by
  rw [Device.onStart, Device.endWrite_eq]
  rfl

/-- A stop notifies in the receive path and releases the SPE (R107). -/
theorem Device.onStop_eq (d : Device) :
    d.onStop =
      { d with st := 0#3, bm := 0#3, ntf := if d.st = 4#3 ∨ d.st = 5#3 then d.ntf ++ [.rcv] else d.ntf } := by
  rw [Device.onStop, Device.endWrite_eq]
  rfl

/-- Settles O9: a start is taken in every state, and `BM_BYTE` keeps its byte (log 32). -/
theorem evStartResult : Obligations.EvStartResult :=
  ⟨rfl, rfl, fun s => ⟨s.dev.bmByte, takeEvent_next.2 (congrArg s.withDev s.dev.onStart_eq.symm)⟩⟩

/-- Settles O10: a stop is taken in every state, and `BM_BYTE` keeps its byte (log 32). -/
theorem evStopResult : Obligations.EvStopResult :=
  ⟨rfl, rfl, fun s => ⟨s.dev.bmByte, takeEvent_next.2 (congrArg s.withDev s.dev.onStop_eq.symm)⟩⟩

/-! ## Overflows whose operand is ignored -/

/-- The request word of an overflow: its code above its operand (R83, R85). -/
theorem mkWord_ovf (b : Byte) : mkWord 0x2#4 b = 0x200#12 ||| b.setWidth 12 := by
  rw [mkWord, BitVec.append_def]
  rfl

/-- Settles O12: the armed overflow is `SendNext()` in R109's own terms. -/
theorem ovfSendDataResult : Obligations.OvfSendDataResult := fun s _ =>
  ⟨fun hbm => takeArmed_next.2 ⟨hbm, congrArg s.withDev s.dev.sendNext_eq_afterSendNext.symm⟩, fun hbm => takeArmed_of_ne hbm _⟩

/-- Settles O13: the armed overflow is R103's rule. -/
theorem ovfByteSentResult : Obligations.OvfByteSentResult := fun _ b =>
  ⟨mkWord_ovf b, rfl, fun hbm => takeArmed_next.2 ⟨hbm, rfl⟩, fun hbm => takeArmed_of_ne hbm _⟩

/-- Settles O15: the armed overflow is R105's rule. -/
theorem ovfAckSentResult : Obligations.OvfAckSentResult := fun _ b =>
  ⟨mkWord_ovf b, rfl, fun hbm => takeArmed_next.2 ⟨hbm, rfl⟩, fun hbm => takeArmed_of_ne hbm _⟩

/-! ## The data byte -/

/-- A data byte that finds room is pushed and acknowledged (R106). -/
theorem Device.onByteReceived_of_room {d : Device} (h : d.rx.count < 2 ^ d.cfg.rxLog2.val) (b : Byte) :
    d.onByteReceived b = (d.withRx (d.rx.push d.cfg.rxLog2.val b)).goTo 4#3 3#3 :=
  congrArg (Device.goTo 4#3 3#3) (if_pos h)

/-- A data byte that finds no room sets the flag and is acknowledged (R106, R174). -/
theorem Device.onByteReceived_of_full {d : Device} (h : 2 ^ d.cfg.rxLog2.val ≤ d.rx.count) (b : Byte) :
    d.onByteReceived b = d.flagOverflow.goTo 4#3 3#3 :=
  congrArg (Device.goTo 4#3 3#3) (if_neg (Nat.not_lt.2 h))

/-- Settles O16: the armed overflow is R106's rule, with room or without. -/
theorem ovfByteReceivedResult : Obligations.OvfByteReceivedResult := by
  intro s b
  refine ⟨fun hbm hroom => takeArmed_next.2 ⟨hbm, congrArg s.withDev ?_⟩,
    fun hbm hfull => takeArmed_next.2 ⟨hbm, congrArg s.withDev (Device.onByteReceived_of_full hfull b).symm⟩,
    fun hbm => takeArmed_of_ne hbm _⟩
  rw [Device.onByteReceived_of_room hroom b, ← nextIndex_eq]
  rfl

/-! ## The overflow of an undefined state -/

/-- Settles O17: the rule raises the fault, and the SPE keeps its record alone. -/
theorem ovfInvalidStateFaults : Obligations.OvfInvalidStateFaults := fun _ _ _ => ⟨raise_next.2 rfl, rfl⟩

/-! ## Enabled events -/

/-- The SPE stands in the defined state `st`, its bus mode the one that an overflow needs there (R24), and has not faulted. -/
structure Device.Armed (st : BitVec 3) (d : Device) : Prop where
  defined : st ≤ 5#3
  st_eq : d.st = st
  bm_eq : d.bm = pairedMode st
  spe_fault : d.speFault = none

/-- An armed SPE takes the overflow that its state selects (R84, R101 to R106). -/
theorem Device.Armed.runRequest_ovf {st : BitVec 3} {s : State} (h : s.dev.Armed st) (b : Byte) :
    runRequest { word := (BusEvent.ovf b).word, payload := .none } s = .next (s.withDev (s.dev.after (decodeOvf st b))) := by
  have hst : ∀ x : BitVec 3, x ≤ 5#3 → x = 0#3 ∨ x = 1#3 ∨ x = 2#3 ∨ x = 3#3 ∨ x = 4#3 ∨ x = 5#3 := by decide
  obtain ⟨hdef, hsel, hbm, hf⟩ := h
  rw [Machine.runRequest_ovf b hf, hsel]
  obtain rfl | rfl | rfl | rfl | rfl | rfl := hst st hdef
  all_goals exact takeArmed_next.2 ⟨hbm, rfl⟩

/-- Off the released mode, the pairs of R24 pair each defined state with one bus mode. -/
theorem pairedMode_of_legalPairs : ∀ st bm : BitVec 3, (st, bm) ∈ legalPairs → bm ≠ 0#3 → st ≤ 5#3 ∧ bm = pairedMode st := by
  decide

/-- An SPE in a pair of R24 whose bus mode is not the released one is armed. -/
theorem Device.armed_of_pair {d : Device} (hpair : (d.st, d.bm) ∈ legalPairs) (hbm : d.bm ≠ 0#3) (hf : d.speFault = none) :
    d.Armed d.st := by
  obtain ⟨hdef, hmode⟩ := pairedMode_of_legalPairs _ _ hpair hbm
  exact ⟨hdef, rfl, hmode, hf⟩

/-- An event that its enabling allows is taken from every pair of R24, by an operation that does not fault (R110). -/
theorem runRequest_of_enabled {s : State} {e : BusEvent} (hpair : (s.dev.st, s.dev.bm) ∈ legalPairs)
    (hbm : e.isOvf = true → s.dev.bm ≠ 0#3) (hf : s.dev.speFault = none) :
    ∃ i : Instr, i.agent = .environment ∧ (∀ low b, i ≠ .evOvfInvalidState low b) ∧
      runRequest { word := e.word, payload := .none } s = .next (s.withDev (s.dev.after i)) := by
  cases e with
  | start => exact ⟨.evStart, rfl, nofun, runRequest_start hf⟩
  | stop => exact ⟨.evStop, rfl, nofun, runRequest_stop hf⟩
  | ovf b =>
    obtain ⟨hsix, hseven⟩ := st_of_legalPairs _ _ hpair
    exact ⟨decodeOvf s.dev.st b, decodeOvf_agent _ b, fun _ _ h => (st_of_decodeOvf h).elim hsix hseven,
      (Device.armed_of_pair hpair (hbm rfl) hf).runRequest_ovf b⟩

/-- Settles O19: the operation the event selects is taken, ends in a pair of R24 and faults nothing. -/
theorem eventsStayInDefinedStates : Obligations.EventsStayInDefinedStates := by
  intro s e hpair hbm hf
  obtain ⟨i, ha, hi, hrun⟩ := runRequest_of_enabled hpair hbm hf
  exact ⟨_, hrun, s.dev.after_event_pair ha hi, (s.dev.after_event_speFault ha hi).trans hf⟩

end Sys2Proof.Machine
end

