-- ==== Sys2Proof/Proofs/WholeTransactions.lean ====
section
/-! PROOFS. Whole transactions at one SPE (40_slave_bus_events.md R111): each series of events as one change of the device, and what that change makes of its
rings. -/

namespace Sys2Proof.Machine

/-! ## Series of events -/

/-- A series whose first event is taken goes on from the state it leaves. -/
theorem feed_cons_of_next {e : BusEvent} {s t : State} (h : runRequest { word := e.word, payload := .none } s = .next t)
    (l : List BusEvent) : feed (e :: l) s = feed l t := by
  rw [feed, h]

section Series

variable (s : State) {d : Device} (l : List BusEvent)

/-- A start in a series. -/
theorem feed_start (hf : d.speFault = none) : feed (.start :: l) (s.withDev d) = feed l (s.withDev d.onStart) :=
  feed_cons_of_next (runRequest_start hf) l

/-- A stop that ends a series. -/
theorem feed_stop (hf : d.speFault = none) : feed [.stop] (s.withDev d) = .next (s.withDev d.onStop) :=
  feed_cons_of_next (runRequest_stop hf) []

/-- An overflow in a series, taken by an armed SPE. -/
theorem Device.Armed.feed_ovf {st : BitVec 3} (h : d.Armed st) (b : Byte) :
    feed (.ovf b :: l) (s.withDev d) = feed l (s.withDev (d.after (decodeOvf st b))) :=
  feed_cons_of_next (Device.Armed.runRequest_ovf (s := s.withDev d) h b) l

end Series

/-! ## The address phase -/

/-- A start leaves `AWAIT_ADDRESS` armed, and notifies nothing there (R100). -/
theorem Device.onStart_of_awaitAddress {d : Device} (h : d.st = 0#3) : d.onStart = d.goTo 0#3 1#3 := by
  rw [Device.onStart_eq, h]
  rfl

/-- The own address with direction 0 selects the SPE for a write (R71, R101). -/
theorem Device.onAddress_write (d : Device) : d.onAddress (writeAddrByte d.cfg.slaveAddr) = d.goTo 4#3 3#3 := by
  obtain ⟨haddr, hdir⟩ := byte_eq_append_iff.1 (rfl : writeAddrByte d.cfg.slaveAddr = d.cfg.slaveAddr ++ 0#1)
  unfold Device.onAddress Device.addr
  rw [if_pos haddr, hdir]
  rfl

/-- The own address with direction 1 selects the SPE for a read, which notifies `REQ` (R71, R101). -/
theorem Device.onAddress_read (d : Device) : d.onAddress (readAddrByte d.cfg.slaveAddr) = (d.emit .req).goTo 1#3 3#3 :=
  (d.onAddress_eq _).trans (if_pos rfl)

/-- Any other address byte releases the SPE (R71, R101). -/
theorem Device.onAddress_other {d : Device} {b : Byte} (hw : b ≠ d.cfg.slaveAddr ++ 0#1) (hr : b ≠ d.cfg.slaveAddr ++ 1#1) :
    d.onAddress b = d.goTo 0#3 0#3 :=
  (d.onAddress_eq b).trans ((if_neg hr).trans (if_neg hw))

/-- From `AWAIT_ADDRESS`, a start and an address byte leave what the address byte alone makes of the device (R100, R101). -/
theorem feed_address {s : State} (hst : s.dev.st = 0#3) (hf : s.dev.speFault = none) (b : Byte) (l : List BusEvent) :
    feed (.start :: .ovf b :: l) s = feed l (s.withDev (s.dev.onAddress b)) := by
  have harmed : (s.dev.goTo 0#3 1#3).Armed 0#3 := ⟨by decide, rfl, rfl, hf⟩
  calc feed (.start :: .ovf b :: l) (s.withDev s.dev)
      = feed (.ovf b :: l) (s.withDev (s.dev.goTo 0#3 1#3)) := by rw [feed_start _ _ hf, Device.onStart_of_awaitAddress hst]
    _ = feed l (s.withDev (s.dev.onAddress b)) := harmed.feed_ovf s l b

/-- Settles O33: the start and the address byte release the SPE, and the stop leaves it there. -/
theorem otherAddressTransactionEffect : Obligations.OtherAddressTransactionEffect := by
  intro s b hst hf hw hr
  rw [feed_address hst hf, Device.onAddress_other hw hr]
  exact feed_stop s hf

/-! ## The data of a write -/

/-- The device after the data bytes of a write, as far as R106 goes; `feed_writeData` ties it to the model. -/
def Device.storeBytes (l : List Byte) (d : Device) : Device := l.foldl (fun d b => d.onByteReceived b) d

/-- Storing bytes writes the receive side alone, and `ST` and `BM`. -/
theorem Device.storeBytes_frame (l : List Byte) (d : Device) :
    (d.storeBytes l).ntf = d.ntf ∧ (d.storeBytes l).tx = d.tx ∧ (d.storeBytes l).speFault = d.speFault := by
  induction l generalizing d with
  | nil => exact ⟨rfl, rfl, rfl⟩
  | cons b l ih =>
    obtain ⟨hntf, htx, hf⟩ := ih (d.onByteReceived b)
    obtain ⟨-, htx', hntf', -⟩ := d.onByteReceived_frame b
    exact ⟨hntf.trans hntf', htx.trans htx', hf.trans (d.onByteReceived_speFault b)⟩

/-- A data byte keeps a device's invariant (R30, R106). -/
theorem Device.Ok.onByteReceived {d : Device} (h : d.Ok) (b : Byte) : (d.onByteReceived b).Ok :=
  h.after (i := .evOvfStoreByteAndAck b) nofun

/-- Stored bytes join the pending bytes as far as there is room (R54, R106). -/
theorem Device.Ok.pending_storeBytes {d : Device} (h : d.Ok) (l : List Byte) :
    (d.storeBytes l).rx.pending d.cfg.rxLog2.val =
      d.rx.pending d.cfg.rxLog2.val ++ l.take (2 ^ d.cfg.rxLog2.val - d.rx.count) := by
  induction l generalizing d with
  | nil => rw [List.take_nil, List.append_nil]; rfl
  | cons b l ih =>
    have hrest := ih (h.onByteReceived b)
    rw [Device.onByteReceived_cfg] at hrest
    refine hrest.trans ?_
    by_cases hroom : d.rx.count < 2 ^ d.cfg.rxLog2.val
    · have hcap : 2 ^ d.cfg.rxLog2.val - d.rx.count = 2 ^ d.cfg.rxLog2.val - (d.rx.count + 1) + 1 := by omega
      rw [Device.onByteReceived_rx_of_room hroom, h.rx.pending_push b hroom, hcap, List.take_succ_cons, List.append_assoc]
      rfl
    · have hfull : 2 ^ d.cfg.rxLog2.val ≤ d.rx.count := Nat.not_lt.1 hroom
      rw [Device.onByteReceived_rx_of_full hfull, Nat.sub_eq_zero_of_le hfull, List.take_zero, List.take_zero]

/-- Stored bytes set the overflow flag when there is no room for all of them (R28, R106). -/
theorem Device.rxOvf_storeBytes (l : List Byte) (d : Device) :
    (d.storeBytes l).rxOvf = (d.rxOvf || decide (2 ^ d.cfg.rxLog2.val - d.rx.count < l.length)) := by
  induction l generalizing d with
  | nil => simp [Device.storeBytes]
  | cons b l ih =>
    refine (ih (d.onByteReceived b)).trans ?_
    rw [Device.onByteReceived_cfg, Device.onByteReceived_rxOvf, Bool.or_assoc, ← Bool.decide_or]
    congr 2
    by_cases hroom : d.rx.count < 2 ^ d.cfg.rxLog2.val
    · rw [Device.onByteReceived_rx_of_room hroom]
      simp only [Ring.push, List.length_cons, eq_iff_iff]
      omega
    · rw [Device.onByteReceived_rx_of_full (Nat.not_lt.1 hroom)]
      simp only [List.length_cons, eq_iff_iff]
      omega

/-- Taking a data byte reads neither `ST` nor `BM`. -/
@[simp] theorem Device.onByteReceived_goTo (st bm : BitVec 3) (b : Byte) (d : Device) :
    (d.goTo st bm).onByteReceived b = d.onByteReceived b := by
  by_cases hroom : d.rx.count < 2 ^ d.cfg.rxLog2.val
  · rw [Device.onByteReceived_of_room hroom, Device.onByteReceived_of_room (d := d.goTo st bm) hroom]
    rfl
  · have hfull : 2 ^ d.cfg.rxLog2.val ≤ d.rx.count := Nat.not_lt.1 hroom
    rw [Device.onByteReceived_of_full hfull, Device.onByteReceived_of_full (d := d.goTo st bm) hfull]
    rfl

/-- The data part of a write stores its bytes, whatever ends each ACK (R105, R106, R111). -/
theorem feed_writeData (s : State) {d : Device} (hf : d.speFault = none) (l : List (Byte × Byte)) (m : List BusEvent) :
    feed (writeData l ++ m) (s.withDev (d.goTo 5#3 1#3)) =
      feed m (s.withDev ((d.storeBytes (l.map Prod.fst)).goTo 5#3 1#3)) := by
  induction l generalizing d with
  | nil => rfl
  | cons p l ih =>
    have hf' : (d.onByteReceived p.1).speFault = none := (d.onByteReceived_speFault p.1).trans hf
    have hstore : (d.goTo 5#3 1#3).Armed 5#3 := ⟨by decide, rfl, rfl, hf⟩
    have hack : (d.onByteReceived p.1).Armed 4#3 := ⟨by decide, rfl, rfl, hf'⟩
    calc feed (.ovf p.1 :: .ovf p.2 :: (writeData l ++ m)) (s.withDev (d.goTo 5#3 1#3))
        = feed (.ovf p.2 :: (writeData l ++ m)) (s.withDev ((d.goTo 5#3 1#3).onByteReceived p.1)) := hstore.feed_ovf s _ p.1
      _ = feed (.ovf p.2 :: (writeData l ++ m)) (s.withDev (d.onByteReceived p.1)) := by rw [Device.onByteReceived_goTo]
      _ = feed (writeData l ++ m) (s.withDev ((d.onByteReceived p.1).goTo 5#3 1#3)) := hack.feed_ovf s _ p.2
      _ = feed m (s.withDev (((d.onByteReceived p.1).storeBytes (l.map Prod.fst)).goTo 5#3 1#3)) := ih hf'

/-- A whole write to the SPE stores its bytes, notifies `RCV` and releases it (R111). -/
theorem feed_writeTransaction {s : State} (hst : s.dev.st = 0#3) (hf : s.dev.speFault = none) (x : Byte)
    (l : List (Byte × Byte)) :
    feed (writeTransaction s.dev.cfg.slaveAddr x l) s =
      .next (s.withDev (((s.dev.storeBytes (l.map Prod.fst)).emit .rcv).goTo 0#3 0#3)) := by
  obtain ⟨-, -, hstored⟩ := s.dev.storeBytes_frame (l.map Prod.fst)
  have hack : (s.dev.goTo 4#3 3#3).Armed 4#3 := ⟨by decide, rfl, rfl, hf⟩
  calc feed (writeTransaction s.dev.cfg.slaveAddr x l) s
      = feed (.ovf x :: (writeData l ++ [.stop])) (s.withDev (s.dev.goTo 4#3 3#3)) := by
        rw [writeTransaction, feed_address hst hf, Device.onAddress_write]
    _ = feed (writeData l ++ [.stop]) (s.withDev (s.dev.goTo 5#3 1#3)) := hack.feed_ovf s _ x
    _ = feed [.stop] (s.withDev ((s.dev.storeBytes (l.map Prod.fst)).goTo 5#3 1#3)) := feed_writeData s hf l _
    _ = _ := feed_stop s (hstored.trans hf)

/-- Settles O31: the whole write as one change of the device, and of it what the lemmas of the stored bytes say. -/
theorem writeTransactionEffect : Obligations.WriteTransactionEffect := by
  intro s x l hok hst
  obtain ⟨hntf, htx, -⟩ := s.dev.storeBytes_frame (l.map Prod.fst)
  have hovf := s.dev.rxOvf_storeBytes (l.map Prod.fst)
  rw [List.length_map] at hovf
  exact ⟨_, feed_writeTransaction hst hok.spe_fault x l, rfl, rfl, hok.pending_storeBytes _, hovf,
    congrArg (· ++ [Notification.rcv]) hntf, htx, rfl, rfl⟩

/-! ## The data of a read -/

/-- Arming the next byte reads neither `ST` nor `BM`. -/
@[simp] theorem Device.sendNext_goTo (st bm : BitVec 3) (d : Device) : (d.goTo st bm).sendNext = d.sendNext := rfl

/-- The device after `n` bytes have been armed one after another (R109); `feed_readData` ties it to the model. -/
def Device.sendBytes (n : Nat) (d : Device) : Device := Device.sendNext^[n] d

/-- Arming one byte more. -/
theorem Device.sendBytes_succ (n : Nat) (d : Device) : d.sendBytes (n + 1) = (d.sendBytes n).sendNext :=
  Function.iterate_succ_apply' _ n d

/-- Arming bytes writes the transmit side alone, and `ST` and `BM`. -/
theorem Device.sendBytes_frame (n : Nat) (d : Device) :
    (d.sendBytes n).cfg = d.cfg ∧ (d.sendBytes n).rx = d.rx ∧ (d.sendBytes n).rxOvf = d.rxOvf ∧
      (d.sendBytes n).ntf = d.ntf ∧ (d.sendBytes n).speFault = d.speFault := by
  induction n with
  | zero => exact ⟨rfl, rfl, rfl, rfl, rfl⟩
  | succ n ih =>
    rw [Device.sendBytes_succ]
    simpa using ih

/-- Arming bytes keeps a device's invariant (R30, R109). -/
theorem Device.Ok.sendBytes {d : Device} (h : d.Ok) (n : Nat) : (d.sendBytes n).Ok := by
  induction n with
  | zero => exact h
  | succ n ih => exact d.sendBytes_succ n ▸ ih.after (i := .evOvfSendDataByte 0#8) nofun

/-- A ring has as many pending bytes as its count (R25). -/
@[simp] theorem Ring.length_pending (log2 : Nat) (r : Ring) : (r.pending log2).length = r.count := by
  simp [Ring.pending]

/-- Arming a byte takes the oldest pending byte, where there is one (R52, R109). -/
theorem Device.Ok.pending_sendNext {d : Device} (h : d.Ok) :
    d.sendNext.tx.pending d.cfg.txLog2.val = (d.tx.pending d.cfg.txLog2.val).tail := by
  unfold Device.sendNext
  split
  · next hpending =>
    rw [h.tx.pending_eq_front_cons hpending]
    rfl
  · next hempty =>
    have hnil : d.tx.pending d.cfg.txLog2.val = [] := List.eq_nil_of_length_eq_zero (by rw [Ring.length_pending]; omega)
    rw [hnil]
    exact hnil

/-- Arming `n` bytes takes the `n` oldest pending bytes, or all where there are fewer (R54, R109). -/
theorem Device.Ok.pending_sendBytes {d : Device} (h : d.Ok) (n : Nat) :
    (d.sendBytes n).tx.pending d.cfg.txLog2.val = (d.tx.pending d.cfg.txLog2.val).drop n := by
  induction n with
  | zero => rfl
  | succ n ih =>
    obtain ⟨hcfg, -⟩ := d.sendBytes_frame n
    have hnext := (h.sendBytes n).pending_sendNext
    rw [hcfg, ih, List.tail_drop] at hnext
    rw [Device.sendBytes_succ, hnext]

/-- Arming a byte leaves the SPE waiting for the byte to be sent (R109). -/
theorem Device.sendNext_armed {d : Device} (hf : d.speFault = none) : d.sendNext.Armed 2#3 := by
  have hsel : d.sendNext.st = 2#3 ∧ d.sendNext.bm = 4#3 := by
    unfold Device.sendNext
    split <;> exact ⟨rfl, rfl⟩
  exact ⟨by decide, hsel.1, hsel.2, d.sendNext_speFault.trans hf⟩

/-- Taking an acknowledge bit reads neither `ST` nor `BM`. -/
@[simp] theorem Device.onAckBit_goTo (st bm : BitVec 3) (b : Byte) (d : Device) : (d.goTo st bm).onAckBit b = d.onAckBit b := rfl

/-- An armed byte is sent, and the master's acknowledge bit is taken (R103, R104). -/
theorem feed_sentByte (s : State) {d : Device} (hf : d.speFault = none) (x b : Byte) (m : List BusEvent) :
    feed (.ovf x :: .ovf b :: m) (s.withDev d.sendNext) = feed m (s.withDev (d.sendNext.onAckBit b)) := by
  have hsent : (d.sendNext.goTo 3#3 2#3).Armed 3#3 := ⟨by decide, rfl, rfl, d.sendNext_speFault.trans hf⟩
  calc feed (.ovf x :: .ovf b :: m) (s.withDev d.sendNext)
      = feed (.ovf b :: m) (s.withDev (d.sendNext.goTo 3#3 2#3)) := (Device.sendNext_armed hf).feed_ovf s _ x
    _ = feed m (s.withDev ((d.sendNext.goTo 3#3 2#3).onAckBit b)) := hsent.feed_ovf s _ b
    _ = feed m (s.withDev (d.sendNext.onAckBit b)) := by rw [Device.onAckBit_goTo]

/-- The data part of a read arms one byte for each that the master acknowledges, and the refusal of the last releases the SPE (R104, R111). -/
theorem feed_readData (s : State) {d : Device} (hf : d.speFault = none) (l : List Byte) (y : Byte) (m : List BusEvent) :
    feed (readData l y ++ m) (s.withDev d.sendNext) = feed m (s.withDev ((d.sendBytes (l.length + 1)).goTo 0#3 0#3)) := by
  induction l generalizing d with
  | nil => exact feed_sentByte s hf y (ackByte true) m
  | cons x l ih =>
    exact (feed_sentByte s hf x (ackByte false) (readData l y ++ m)).trans (ih (d.sendNext_speFault.trans hf))

/-- A whole read from the SPE notifies `REQ`, arms its bytes and releases it (R111). -/
theorem feed_readTransaction {s : State} (hst : s.dev.st = 0#3) (hf : s.dev.speFault = none) (x y : Byte) (l : List Byte) :
    feed (readTransaction s.dev.cfg.slaveAddr x l y) s =
      .next (s.withDev (((s.dev.emit .req).sendBytes (l.length + 1)).goTo 0#3 0#3)) := by
  obtain ⟨-, -, -, -, hsent⟩ := (s.dev.emit .req).sendBytes_frame (l.length + 1)
  have hack : ((s.dev.emit .req).goTo 1#3 3#3).Armed 1#3 := ⟨by decide, rfl, rfl, hf⟩
  calc feed (readTransaction s.dev.cfg.slaveAddr x l y) s
      = feed (.ovf x :: (readData l y ++ [.stop])) (s.withDev ((s.dev.emit .req).goTo 1#3 3#3)) := by
        rw [readTransaction, feed_address hst hf, Device.onAddress_read]
    _ = feed (readData l y ++ [.stop]) (s.withDev ((s.dev.emit .req).goTo 1#3 3#3).sendNext) := hack.feed_ovf s _ x
    _ = feed (readData l y ++ [.stop]) (s.withDev (s.dev.emit .req).sendNext) := by rw [Device.sendNext_goTo]
    _ = feed [.stop] (s.withDev (((s.dev.emit .req).sendBytes (l.length + 1)).goTo 0#3 0#3)) :=
      feed_readData s (d := s.dev.emit .req) hf l y _
    _ = _ := feed_stop s (hsent.trans hf)

/-- Settles O32: the whole read as one change of the device, and of it what the lemmas of the armed bytes say. -/
theorem readTransactionEffect : Obligations.ReadTransactionEffect := by
  intro s x y l hok hst
  have hreq : (s.dev.emit .req).Ok := ⟨hok.pair, hok.rx, hok.tx, hok.spe_fault⟩
  have hpending := hreq.pending_sendBytes (l.length + 1)
  have hcount := congrArg List.length hpending
  rw [Ring.length_pending, List.length_drop, Ring.length_pending] at hcount
  obtain ⟨-, hrx, hovf, hntf, -⟩ := (s.dev.emit .req).sendBytes_frame (l.length + 1)
  exact ⟨_, feed_readTransaction hst hok.spe_fault x y l, rfl, rfl, hcount, hpending, hntf, hrx, hovf⟩

end Sys2Proof.Machine
end

