-- ==== Sys2Proof/Proofs/AppOps.lean ====
section
/-! PROOFS. The application operations (41_slave_app_ops.md R120 to R123): the outcome of each, and that a use after its check does not fault, whatever events come
between (R124). -/

namespace Sys2Proof.Machine

/-! ## Results -/

/-- An application read leaves the device in front that `Device.afterRead` says, in every state (R121). -/
theorem exec_appRead (s : State) : exec .appRead s = .next (s.withDev s.dev.afterRead) := execAppRead_next.2 rfl

/-- An application's queueing of a byte leaves the device in front that `Device.afterQueue` says, in every state (R122). -/
theorem exec_appQueue (b : Byte) (s : State) : exec (.appQueue b) s = .next (s.withDev (s.dev.afterQueue b)) :=
  execAppQueue_next.2 rfl

/-- `RingPop`'s writes with the wraparound as a remainder (R52, R53). -/
theorem Ring.drop_eq (log2 : Nat) (r : Ring) :
    r.drop log2 = { r with tail := (r.tail + 1) % 2 ^ log2, count := r.count - 1 } := by
  rw [← nextIndex_eq]; rfl

/-- `RingPush` with the wraparound as a remainder (R51, R53). -/
theorem Ring.push_eq (log2 : Nat) (b : Byte) (r : Ring) :
    r.push log2 b =
      { mem := Memory.write r.mem r.head b, head := (r.head + 1) % 2 ^ log2, tail := r.tail, count := r.count + 1 } := by
  rw [← nextIndex_eq]; rfl

/-- Settles O21: both queries answer the count, with no other write. -/
theorem appCountsResult : Obligations.AppCountsResult := fun _ => ⟨answerApp_next.2 rfl, answerApp_next.2 rfl⟩

/-- Settles O22: the read of a ring that is not empty pops, the read of an empty one keeps the record of its word. -/
theorem appReadResult : Obligations.AppReadResult := by
  refine fun s => ⟨fun hpending => ?_, fun hempty => ?_, rfl⟩
  · rw [exec_appRead, Device.afterRead_of_pending hpending, Ring.drop_eq]
    rfl
  · rw [exec_appRead, Device.afterRead_of_empty hempty]
    rfl

/-- Settles O23: the queueing in a ring with room pushes, the queueing in a full one keeps the record of its word. -/
theorem appQueueResult : Obligations.AppQueueResult := by
  refine fun s b => ⟨fun hroom => ?_, fun hfull => ?_, rfl⟩
  · rw [exec_appQueue, Device.afterQueue_of_room hroom, Ring.push_eq]
    rfl
  · rw [exec_appQueue, Device.afterQueue_of_full hfull]
    rfl

/-! ## A use after its check -/

/-- A series that ends in a next state takes its first instruction and then the others. -/
theorem execAll_cons_next {i : Instr} {l : List Instr} {s u : State} :
    execAll (i :: l) s = .next u ↔ ∃ t, exec i s = .next t ∧ execAll l t = .next u := by
  cases h : exec i s <;> simp [execAll, h]

/-- A series of events changes no configuration, takes no byte from `RX` and adds none to `TX` (R7, R65). -/
theorem execAll_event_counts {l : List Instr} {s u : State} (hl : ∀ i ∈ l, i.agent = .environment)
    (h : execAll l s = .next u) :
    u.dev.cfg = s.dev.cfg ∧ s.dev.rx.count ≤ u.dev.rx.count ∧ u.dev.tx.count ≤ s.dev.tx.count := by
  induction l generalizing s with
  | nil => cases h; exact ⟨rfl, le_rfl, le_rfl⟩
  | cons i l ih =>
    obtain ⟨hi, hrest⟩ := List.forall_mem_cons.1 hl
    obtain ⟨t, ht, hu⟩ := execAll_cons_next.1 h
    obtain ⟨hcfg, hrx, htx⟩ := ih hrest hu
    obtain ⟨hrx', htx'⟩ := s.dev.after_event_counts hi
    rw [exec_dev ht] at hcfg hrx htx
    exact ⟨hcfg.trans (s.dev.after_cfg i), hrx'.trans hrx, htx.trans htx'⟩

/-- A read with `RX` not empty takes a byte and does not fault (R121). -/
theorem exec_appRead_of_pending {s : State} (h : s.dev.rx.count ≠ 0) :
    ∃ t, exec .appRead s = .next t ∧ t.dev.appFault = s.dev.appFault ∧ t.dev.rx.count + 1 = s.dev.rx.count := by
  refine ⟨_, exec_appRead s, s.dev.after_app_appFault (i := .appRead) rfl (fun _ => h) nofun, ?_⟩
  rw [State.withDev_dev, Device.afterRead_of_pending h]
  exact Nat.succ_pred h

/-- The queueing of a byte with `TX` not full adds it and does not fault (R122). -/
theorem exec_appQueue_of_room {s : State} (b : Byte) (h : s.dev.tx.count ≠ 2 ^ s.dev.cfg.txLog2.val) :
    ∃ t, exec (.appQueue b) s = .next t ∧ t.dev.appFault = s.dev.appFault ∧ t.dev.tx.count = s.dev.tx.count + 1 := by
  refine ⟨_, exec_appQueue b s, s.dev.after_app_appFault (i := .appQueue b) rfl nofun (fun _ => h), ?_⟩
  rw [State.withDev_dev, Device.afterQueue_of_room h]
  rfl

/-- Settles O26: the count answered is the ring's, and the events between only add to `RX` and only take from `TX`. -/
theorem checkedUseDoesNotFault : Obligations.CheckedUseDoesNotFault := by
  refine fun l s t u hl => ⟨fun n ht hret hn hu => ?_, fun n b ht hret hn hu => ?_⟩
  · obtain rfl := answerApp_next.1 ht
    obtain rfl : s.dev.rx.count = n := AppReturn.count.inj hret
    obtain ⟨-, hrx, -⟩ := execAll_event_counts hl hu
    exact exec_appRead_of_pending (Nat.pos_iff_ne_zero.1 ((Nat.pos_of_ne_zero hn).trans_le hrx))
  · obtain rfl := answerApp_next.1 ht
    obtain rfl : s.dev.tx.count = n := AppReturn.count.inj hret
    obtain ⟨hcfg, -, htx⟩ := execAll_event_counts hl hu
    refine exec_appQueue_of_room b ?_
    rw [hcfg]
    exact (htx.trans_lt hn).ne

end Sys2Proof.Machine
end

