-- ==== Sys2Proof/Proofs/HostIssues.lean ====
section
/-! PROOFS. The requests that do not run (42_host_sequencer.md R145, 60_exceptions.md R170), and the issue of a host operation: its writes, its frame
and its refusals (R134 to R136). -/

namespace Sys2Proof.Machine

/-! ## Requests that do not run -/

/-- A bus event from elsewhere while the bus carries the host's transaction is refused (R145). -/
theorem offer_of_busTaken {s : State} {r : Request} {i : Instr} (hdec : decodeRequest s.dev.st r = .ok i)
    (ha : i.agent = .environment) (hbus : s.bus ≠ none) : offer r s = .refused .secondMaster := by
  have htaken : s.busTaken i = true := by simp [State.busTaken, ha, Option.isSome_iff_ne_none, hbus]
  simp [offer, hdec, htaken]

/-- A host operation from elsewhere during a client program has no move (R182; log 19). -/
theorem offer_of_hostTaken {s : State} {r : Request} {i : Instr} (hdec : decodeRequest s.dev.st r = .ok i)
    (ha : i.agent = .hostCaller) (hjob : s.client.job ≠ .idle) : offer r s = .fault (.noMove .clientBusy) := by
  have hbus : s.busTaken i = false := by simp [State.busTaken, ha]
  have htaken : s.hostTaken i = true := by simp [State.hostTaken, ha, hjob]
  simp [offer, hdec, hbus, htaken, stuck]

/-- What is offered to a faulted agent, nothing else standing in its way (R170; logs 5, 36). -/
theorem offer_of_agentFaulted {s : State} {r : Request} {i : Instr} (hdec : decodeRequest s.dev.st r = .ok i)
    (hbus : i.agent = .environment → s.bus = none) (ha : i.agent ≠ .hostCaller) (hf : s.agentFaulted i = true) :
    offer r s = offerFaulted i s := by
  have hfree : s.busTaken i = false := by simpa [State.busTaken] using hbus
  have hhost : s.hostTaken i = false := by simp [State.hostTaken, ha]
  simp [offer, hdec, hfree, hhost, hf]

/-- A faulted SPE or application bars every operation of that agent (R170). -/
theorem State.agentFaulted_eq_true {i : Instr} {s : State}
    (h : i.agent = .environment ∧ s.dev.speFault ≠ none ∨ i.agent = .application ∧ s.dev.appFault ≠ none) :
    s.agentFaulted i = true := by
  unfold State.agentFaulted
  obtain ⟨ha, hf⟩ | ⟨ha, hf⟩ := h <;> rw [ha] <;> exact Option.isSome_iff_ne_none.2 hf

/-- Settles O8: each bar stops the offer, or lets the event pass the faulted SPE by. -/
theorem barredRequestsDoNotRun : Obligations.BarredRequestsDoNotRun := by
  intro s r rest i hs hdec
  have hdec' : decodeRequest (s.withSched rest).dev.st r = .ok i := hdec
  rw [step_of_request hs]
  refine ⟨offer_of_busTaken hdec', offer_of_hostTaken hdec', fun ha hbus hf => ?_, fun ha hf => ?_⟩
  · rw [offer_of_agentFaulted hdec' (fun _ => hbus) (by rw [ha]; decide) (State.agentFaulted_eq_true (.inl ⟨ha, hf⟩)),
      offerFaulted, if_pos ha]
    rfl
  · rw [offer_of_agentFaulted hdec' (by rw [ha]; exact nofun) (by rw [ha]; decide) (State.agentFaulted_eq_true (.inr ⟨ha, hf⟩)),
      offerFaulted, if_neg (by rw [ha]; decide)]
    rfl

/-! ## The issue of a host operation -/

/-- An operation may be issued in `IDLE` and in `DONE` (R134). -/
theorem Hcs.ready_of_idle_or_done {h : Hcs} (hp : h.phase = .idle ∨ h.phase = .done) : h.ready = true := by
  unfold Hcs.ready
  obtain hp | hp := hp <;> rw [hp]

/-- No operation may be issued while one is in progress (R134). -/
theorem Hcs.not_ready_of_write_or_read {h : Hcs} (hp : h.phase = .write ∨ h.phase = .read) : h.ready = false := by
  unfold Hcs.ready
  obtain hp | hp := hp <;> rw [hp]

/-- Settles O34: an issue that may be made writes what `Hcs.begin` says, with the reply size 0. -/
theorem hostCmd1Result : Obligations.HostCmd1Result := fun _ _ hp hpos hmax haddr =>
  execHostCmd1_next.2 ⟨Hcs.ready_of_idle_or_done hp, descriptorOk_iff.2 ⟨hpos, hmax, haddr⟩, rfl⟩

/-- Settles O35: an issue that may be made writes what `Hcs.begin` says, and the caller's buffer. -/
theorem hostCmdNResult : Obligations.HostCmdNResult := fun _ _ _ hp hpos hmax haddr hn hnmax hbuf =>
  execHostCmdN_next.2 ⟨Hcs.ready_of_idle_or_done hp,
    (Bool.and_eq_true _ _).mpr ⟨descriptorOk_iff.2 ⟨hpos, hmax, haddr⟩, replyOk_iff.2 ⟨hn, hnmax, hbuf⟩⟩, rfl⟩

section Refusal

variable {s : State} {d : Descriptor} {r : ReplyRequest}

/-- An issue in progress bars both operations, whatever their descriptor (R134; log 11). -/
theorem exec_host_of_not_ready (h : s.hcs.ready = false) :
    exec (.hostCmd1 d) s = .fault (.noMove .hostBusy) ∧ exec (.hostCmdN d r) s = .fault (.noMove .hostBusy) :=
  ⟨if_neg (ne_true_of_eq_false h), if_neg (ne_true_of_eq_false h)⟩

/-- A descriptor out of bounds is refused (R134). -/
theorem exec_hostCmd1_of_not_ok (h : s.hcs.ready = true) (hd : ¬ descriptorOk s.host d = true) :
    exec (.hostCmd1 d) s = .refused .badDescriptor :=
  (if_pos h).trans (if_neg hd)

/-- A descriptor or a reply size out of bounds is refused (R134). -/
theorem exec_hostCmdN_of_not_ok (h : s.hcs.ready = true) (hd : ¬ (descriptorOk s.host d = true ∧ replyOk s.host r = true)) :
    exec (.hostCmdN d r) s = .refused .badDescriptor :=
  (if_pos h).trans (if_neg fun hok => hd ((Bool.and_eq_true _ _).mp hok))

end Refusal

/-- Settles O36: the bounds of R134 are those the issue checks. -/
theorem hostIssueRefusals : Obligations.HostIssueRefusals := by
  intro s d r
  refine ⟨fun hp => exec_host_of_not_ready (Hcs.not_ready_of_write_or_read hp), fun hp hout => ?_, fun hp hout => ?_⟩
  · have hd : ¬ descriptorOk s.host d = true := by
      rw [descriptorOk_iff]
      omega
    have hready := Hcs.ready_of_idle_or_done hp
    exact ⟨exec_hostCmd1_of_not_ok hready hd, exec_hostCmdN_of_not_ok hready fun hok => hd hok.1⟩
  · have hr : ¬ replyOk s.host r = true := by
      rw [replyOk_iff]
      omega
    exact exec_hostCmdN_of_not_ok (Hcs.ready_of_idle_or_done hp) fun hok => hr hok.2

/-- Settles O37: an issue writes the registers of `Hcs.begin`, and `HOST_CMDN` the buffer. -/
theorem hostOperationFrame : Obligations.HostOperationFrame := by
  intro i s t ha h
  obtain ⟨d, rfl⟩ | ⟨d, r, rfl⟩ := hostCaller_cases ha
  · obtain ⟨-, -, rfl⟩ := execHostCmd1_next.1 h
    exact ⟨rfl, rfl, rfl, rfl, rfl, rfl, rfl, rfl, rfl, rfl, fun _ => rfl⟩
  · obtain ⟨-, -, rfl⟩ := execHostCmdN_next.1 h
    exact ⟨rfl, rfl, rfl, rfl, rfl, rfl, rfl, rfl, rfl, rfl, nofun⟩

end Sys2Proof.Machine
end

