-- ==== Sys2Proof/Proofs/MicroSteps.lean ====
section
/-! PROOFS. The micro-steps of the HCS with a drawn answer (42_host_sequencer.md R131, R132, R137 to R139), and that an operation keeps nothing of the one
before it (R141). -/

namespace Sys2Proof.Machine

/-! ## A drawn answer -/

/-- A step takes the first move of the schedule, in the state whose schedule is what follows. -/
theorem step_of_sched {s : State} {m : Move} {rest : List Move} (hs : s.sched = m :: rest) :
    step s = runMove m (s.withSched rest) := by
  unfold step takeMove
  rw [hs]

/-- In `WRITE` the HCS waits for its next command byte to be written (R137). -/
theorem State.pendingCall_of_write {s : State} {b : Byte} (hp : s.hcs.phase = .write) (hb : s.hcs.cmds[s.hcs.idx]? = some b) :
    s.pendingCall = some (.writeByte s.hcs.addr b) := by
  simp [State.pendingCall, Hcs.pendingCall, hp, hb]

/-- In `READ` the HCS waits for its one read (R138, R139). -/
theorem State.pendingCall_of_read {s : State} (hp : s.hcs.phase = .read) :
    s.pendingCall = some (.requestBytes s.hcs.addr (if s.hcs.n = 0 then 1 else s.hcs.n)) := by
  simp [State.pendingCall, Hcs.pendingCall, hp]

/-- A drawn answer completes the call that waits, where the bus carries none (R131, R132). -/
theorem step_of_transport {s : State} {a : Answer} {c : TransportCall} {rest : List Move} (hs : s.sched = .transport a :: rest)
    (hbus : s.bus = none) (hc : s.pendingCall = some c) : step s = completeCall c a (s.withSched rest) := by
  have hc' : (s.withSched rest).pendingCall = some c := hc
  simp [step_of_sched hs, runMove, drawnAnswer, hbus, hc']

/-- A drawn answer to the byte written is the write micro-step (R137). -/
theorem step_of_ack {s : State} {ok : Bool} {rest : List Move} (hs : s.sched = .transport (.ack ok) :: rest)
    (hbus : s.bus = none) (hp : s.hcs.phase = .write) (hidx : s.hcs.idx < s.hcs.cmds.length) :
    step s = .next ((s.withSched rest).withHcs (s.hcs.writeStep ok)) :=
  step_of_transport hs hbus (State.pendingCall_of_write hp (List.getElem?_eq_getElem hidx))

/-- A drawn reply of at most the bytes asked for is the read micro-step (R132, R138, R139). -/
theorem step_of_bytes {s : State} {seq : List Byte} {rest : List Move} (hs : s.sched = .transport (.bytes seq) :: rest)
    (hbus : s.bus = none) (hp : s.hcs.phase = .read) (hlen : seq.length ≤ if s.hcs.n = 0 then 1 else s.hcs.n) :
    step s = .next ((s.withSched rest).withHcs (s.hcs.readStep seq)) :=
  (step_of_transport hs hbus (State.pendingCall_of_read hp)).trans (if_pos hlen)

/-- Settles O38: the write micro-step with `NACK`, with `ACK` before the last byte, and with `ACK` of the last. -/
theorem writeMicroStepResult : Obligations.WriteMicroStepResult := by
  intro s rest hp hidx hbus
  refine ⟨fun hs => step_of_ack hs hbus hp hidx, fun hs hmore => ?_, fun hs hlast => ?_⟩
  · have hw : s.hcs.writeStep true = { s.hcs with idx := s.hcs.idx + 1 } := by
      simp [Hcs.writeStep, hmore.ne, hp]
    rw [step_of_ack hs hbus hp hidx, hw]
    rfl
  · have hw : s.hcs.writeStep true = { s.hcs with idx := s.hcs.idx + 1, phase := .read } := by
      simp [Hcs.writeStep, hlast]
    rw [step_of_ack hs hbus hp hidx, hw]
    rfl

/-- Settles O39: the read micro-step of the 1-byte mode. -/
theorem readSingleResult : Obligations.ReadSingleResult := by
  intro s rest seq hp hn hbus hlen hs
  have hr : s.hcs.readStep seq = s.hcs.readSingle seq := if_pos hn
  rw [step_of_bytes hs hbus hp (by rwa [if_pos hn]), hr]
  rfl

/-- The read micro-step of the multi-byte mode checks the length before the content (R139). -/
theorem multiResult_cases (echo : Byte) (n : Nat) (seq : List Byte) :
    (seq.length ≠ n → multiResult echo n seq = .errMultiLength) ∧
      (seq.length = n → seq.head? ≠ some echo → multiResult echo n seq = .errMultiContent) ∧
      (seq.length = n → seq.head? = some echo → multiResult echo n seq = .ok) := by
  unfold multiResult
  refine ⟨fun hshort => if_pos hshort, fun hfull hne => ?_, fun hfull heq => ?_⟩
  · rw [if_neg (not_not.2 hfull), if_pos hne]
  · rw [if_neg (not_not.2 hfull), if_neg (not_not.2 heq)]

/-- Settles O40: the read micro-step of the multi-byte mode; the bytes that came stand before what the buffer held after them. -/
theorem readMultiResult : Obligations.ReadMultiResult := by
  intro s rest seq hp hn hbus hlen _ hs
  have hmulti : s.hcs.n ≠ 0 := Nat.pos_iff_ne_zero.1 hn
  have hr : s.hcs.readStep seq = s.hcs.readMulti seq := if_neg hmulti
  refine ⟨_, step_of_bytes hs hbus hp (by rwa [if_neg hmulti]), ?_⟩
  rw [hr]
  refine ⟨rfl, rfl, fun i hi => List.getElem?_append_left hi, fun i hi => ?_, multiResult_cases s.hcs.echo s.hcs.n seq⟩
  change (seq ++ s.hcs.buf.drop seq.length)[i]? = _
  rw [List.getElem?_append_right hi, List.getElem?_drop, Nat.add_sub_cancel' hi]

/-! ## One operation after another -/

/-- The two HCS's carry out one operation, at the same place in it: what is left of an earlier operation is at most the result before `DONE`, the count of the
bytes that came, and the buffer of the 1-byte mode. -/
structure Hcs.SameOperation (h h' : Hcs) : Prop where
  phase : h'.phase = h.phase
  addr : h'.addr = h.addr
  cmds : h'.cmds = h.cmds
  idx : h'.idx = h.idx
  echo : h'.echo = h.echo
  n : h'.n = h.n
  buf : h.n ≠ 0 → h'.buf = h.buf
  result : h.phase = .done → h'.result = h.result

/-- Two issues of one descriptor begin one operation (R135, R136). -/
theorem Hcs.begin_sameOperation (d : Descriptor) (h h' : Hcs) : (h.begin d 0).SameOperation (h'.begin d 0) :=
  ⟨rfl, rfl, rfl, rfl, rfl, rfl, fun hn => absurd rfl hn, nofun⟩

/-- The same in the multi-byte mode, with one buffer (R136). -/
theorem Hcs.beginWith_sameOperation (d : Descriptor) (r : ReplyRequest) (h h' : Hcs) :
    Hcs.SameOperation { h.begin d r.n with buf := r.buf } { h'.begin d r.n with buf := r.buf } :=
  ⟨rfl, rfl, rfl, rfl, rfl, rfl, fun _ => rfl, nofun⟩

namespace Hcs.SameOperation

variable {h h' : Hcs} (hs : h.SameOperation h')
include hs

/-- One operation at one place waits for one call (R133). -/
theorem pendingCall : h'.pendingCall = h.pendingCall := by
  simp [Hcs.pendingCall, hs.phase, hs.addr, hs.cmds, hs.idx, hs.n]

/-- A write micro-step with one answer. -/
theorem writeStep (ok : Bool) : (h.writeStep ok).SameOperation (h'.writeStep ok) := by
  cases ok with
  | false => exact { hs with phase := rfl, result := fun _ => rfl }
  | true =>
    have hidx : h'.idx + 1 = h.idx + 1 := by rw [hs.idx]
    refine { hs with idx := hidx, phase := ?_, result := fun hdone => ?_ }
    · simp [Hcs.writeStep, hs.idx, hs.cmds]
    · by_cases hlast : h.idx + 1 = h.cmds.length <;> simp [Hcs.writeStep, hlast] at hdone

/-- A read micro-step with one answer. -/
theorem readStep (seq : List Byte) : (h.readStep seq).SameOperation (h'.readStep seq) := by
  unfold Hcs.readStep
  rw [hs.n]
  split
  · exact { hs with phase := rfl, result := fun _ => by simp [Hcs.readSingle, hs.echo] }
  · next hn =>
    exact { hs with
      phase := rfl
      buf := fun _ => by simp [Hcs.readMulti, hs.buf hn]
      result := fun _ => by simp [Hcs.readMulti, hs.echo, hs.n] }

/-- A micro-step with one answer. -/
theorem answered (a : Answer) : (h.answered a).SameOperation (h'.answered a) := by
  unfold Hcs.answered
  rw [hs.phase]
  split
  · exact hs.writeStep _
  · exact hs.readStep _
  · exact hs

/-- Micro-steps with the same answers. -/
theorem foldl_answered (l : List Answer) : (l.foldl Hcs.answered h).SameOperation (l.foldl Hcs.answered h') := by
  induction l generalizing h h' with
  | nil => exact hs
  | cons a l ih => exact ih (hs.answered a)

end Hcs.SameOperation

/-- A micro-step keeps the mode. -/
@[simp] theorem Hcs.answered_n (h : Hcs) (a : Answer) : (h.answered a).n = h.n := by
  unfold Hcs.answered
  split
  · unfold Hcs.writeStep
    split <;> rfl
  · unfold Hcs.readStep
    split <;> rfl
  · rfl

/-- Micro-steps keep the mode. -/
theorem Hcs.foldl_answered_n (l : List Answer) (h : Hcs) : (l.foldl Hcs.answered h).n = h.n := by
  induction l generalizing h with
  | nil => rfl
  | cons a l ih => exact (ih _).trans (h.answered_n a)

/-- Settles O42: the two issues begin one operation, and each answer takes both to the same place of it. -/
theorem operationForgetsPast : Obligations.OperationForgetsPast := by
  intro s s' t t' d r l hissue
  have hs : t.hcs.SameOperation t'.hcs := by
    obtain ⟨h, h'⟩ | ⟨h, h'⟩ := hissue
    · obtain ⟨-, -, rfl⟩ := execHostCmd1_next.1 h
      obtain ⟨-, -, rfl⟩ := execHostCmd1_next.1 h'
      exact Hcs.begin_sameOperation d _ _
    · obtain ⟨-, -, rfl⟩ := execHostCmdN_next.1 h
      obtain ⟨-, -, rfl⟩ := execHostCmdN_next.1 h'
      exact Hcs.beginWith_sameOperation d r _ _
  have hend := hs.foldl_answered l
  exact ⟨hend.pendingCall.symm, hend.phase.symm, fun hdone => (hend.result hdone).symm,
    fun hn => (hend.buf (by rwa [Hcs.foldl_answered_n])).symm⟩

end Sys2Proof.Machine
end

