-- ==== Sys2Proof/Proofs/BusSteps.lean ====
section
/-! PROOFS. One step of the bus (42_host_sequencer.md R142 to R145): the taking up of a call, one delivery, and the answer at the end. -/

namespace Sys2Proof.Machine

open Config

@[simp] theorem State.withSched_devices (l : List Move) (s : State) : (s.withSched l).devices = s.devices := rfl

/-! ## The taking up of a call -/

/-- The bus takes up a call only where every device has an address of its own and no other master's transaction is open (R145). -/
theorem step_of_pendingCall {s : State} {c : TransportCall} {rest : List Move} (hs : s.sched = .bus :: rest)
    (hbus : s.bus = none) (hc : s.pendingCall = some c) : step s = beginTransaction c (s.withSched rest) := by
  have hc' : (s.withSched rest).pendingCall = some c := hc
  simp [step_of_sched hs, runMove, busStep, hbus, hc']

/-- The bus may take up the call `c`: it waits, no transaction is under way or open, and the addresses are distinct (R145). -/
structure State.MayBegin (c : TransportCall) (s : State) : Prop where
  bus : s.bus = none
  foreign : s.foreign = []
  distinct : s.addresses.Nodup
  waits : s.pendingCall = some c

/-- With distinct addresses and no other master, the call's transaction is opened (R142 to R144). -/
theorem State.MayBegin.step {s : State} {c : TransportCall} {rest : List Move} (h : s.MayBegin c)
    (hs : s.sched = .bus :: rest) :
    Machine.step s = .next ((s.withSched rest).withBus (some (Transaction.opened s.addresses c))) :=
  (step_of_pendingCall hs h.bus h.waits).trans ((if_pos h.distinct).trans (if_pos h.foreign))

/-- What a delivery is in the terms of the binding: the device, the event, and whether the master reads the byte shifted out. -/
def Delivery.plain (x : Delivery) : PeerAddr × BusEvent × Bool := (x.target, x.event, decide (x.reads = .byte))

/-- An event for every device, at which no byte is read. -/
theorem map_plain_toAll (l : List PeerAddr) (e : BusEvent) {r : Reading} (hr : r ≠ .byte) :
    (toAll l e r).map Delivery.plain = l.map fun a => (a, e, false) := by
  simp [toAll, Delivery.plain, hr]

/-- The events of the addressed device alone are the binding's (R142 to R144). -/
theorem map_plain_addressedPart (c : TransportCall) :
    (addressedPart c).map Delivery.plain = c.binding.2.map fun x => (c.addr, x) := by
  cases c with
  | writeByte a b => rfl
  | probe a => rfl
  | requestBytes a n =>
    simp only [addressedPart, List.map_cons, List.map_flatMap, TransportCall.binding]
    refine congrArg _ (congrArg (List.flatMap · _) (funext fun i => ?_))
    simp [readByte, toOne, Delivery.plain, ackByte, ignoredByte, TransportCall.addr]

/-- The address byte is the binding's (R70, R142 to R144). -/
theorem TransportCall.addrByte_eq (c : TransportCall) : c.addrByte = c.binding.1 := by
  cases c <;> rfl

/-- The events of a transaction are the binding's, in its order. -/
theorem map_plain_busScript (l : List PeerAddr) (c : TransportCall) :
    (busScript l c).map Delivery.plain =
      (l.map fun a => (a, BusEvent.start, false)) ++ (l.map fun a => (a, BusEvent.ovf c.binding.1, false)) ++
        (if c.addr ∈ l then c.binding.2.map fun x => (c.addr, x) else []) ++ l.map fun a => (a, BusEvent.stop, false) := by
  simp only [busScript, List.map_append, map_plain_toAll l _ (nofun : Reading.nothing ≠ .byte),
    map_plain_toAll l _ (nofun : Reading.acknowledge ≠ .byte), TransportCall.addrByte_eq, apply_ite (List.map Delivery.plain),
    map_plain_addressedPart, List.map_nil]

/-! ## One delivery -/

/-- Inside a transaction, the bus delivers its next event. -/
theorem step_of_delivery {s : State} {tx : Transaction} {x : Delivery} {todo : List Delivery} {rest : List Move}
    (hs : s.sched = .bus :: rest) (hbus : s.bus = some tx) (htodo : tx.todo = x :: todo) :
    step s = deliver x { tx with todo := todo } (s.withSched rest) := by
  simp [step_of_sched hs, runMove, busStep, hbus, htodo]

/-- An event that is not taken leaves the transaction with a free byte where the master reads one, and broken where it misses an acknowledgement
(logs 15, 36). -/
theorem passBy_eq (x : Delivery) (tx : Transaction) (s : State) :
    passBy x tx s = { s with fresh := s.fresh + 1, bus := some { tx with
      seq := if x.reads = .byte then tx.seq ++ [freeByte s.fresh] else tx.seq
      broken := tx.broken || decide (x.target = tx.call.addr ∧ x.reads = .acknowledge) } } := by
  simp [passBy, Transaction.missed, State.withBus, State.draw]

/-- An overflow that an SPE in an undefined state takes raises its fault, the record its key (R108, R170). -/
theorem runRequest_of_undefined {s : State} (b : Byte) (hf : s.dev.speFault = none) (hst : s.dev.st = 6#3 ∨ s.dev.st = 7#3) :
    runRequest { word := (BusEvent.ovf b).word, payload := .none } s =
      .next (s.withDev (s.dev.keepFault (.stateInvalid (mkKey s.dev.st (mkWord 0x2#4 b))))) := by
  rw [runRequest_ovf b hf]
  obtain hst | hst := hst <;> rw [hst] <;> rfl

/-- With distinct addresses, the change of the one device that has an address is the same change wherever that address stands. -/
theorem map_onlyAt_const {a : PeerAddr} {d : Device} {ds : List Device} (hn : (ds.map Device.addr).Nodup) (hd : d ∈ ds)
    (hda : d.addr = a) (f : Device → Device) :
    ds.map (Device.onlyAt d.addr fun _ => f d) = ds.map (Device.onlyAt a f) := by
  subst hda
  refine List.map_congr_left fun e he => ?_
  unfold Device.onlyAt
  by_cases ha : e.addr = d.addr
  · obtain rfl : e = d := List.inj_on_of_nodup_map hn he hd ha
    rfl
  · rw [if_neg ha, if_neg ha]

/-! ## The end of a transaction -/

/-- When its events are over, a transaction ends with its answer (R142 to R144). -/
theorem step_of_finished {s : State} {tx : Transaction} {rest : List Move} (hs : s.sched = .bus :: rest) (hbus : s.bus = some tx)
    (htodo : tx.todo = []) (hc : s.pendingCall = some tx.call) :
    step s = completeCall tx.call (tx.answer s.fresh) (((s.withSched rest).withBus none).draw 1) := by
  have hc' : (s.withSched rest).pendingCall = some tx.call := hc
  simp [step_of_sched hs, runMove, busStep, hbus, htodo, finishTransaction, hc']

/-- Where the addressed device lost no acknowledgement, a call is acknowledged exactly when a device has the address (R142 to R144). -/
theorem Transaction.acknowledged_of_not_broken {tx : Transaction} (h : tx.broken = false) (fresh : Nat) :
    tx.acknowledged fresh = tx.acked := if_neg (ne_true_of_eq_false h)

/-- Settles O46: the four parts are the lemmas of the taking up, of an event passed by, of an event that faults, and of the end. -/
theorem transactionEventOrder : Obligations.TransactionEventOrder := by
  intro s rest c hs
  refine ⟨fun hc hbus => ?_, fun tx x todo d hbus htodo hn hd hx hmissed => ?_,
    fun tx x todo b d hbus htodo hx hn hd htarget hbm hf hst => ?_, fun tx hc hbus hcall htodo => ?_⟩
  · refine ⟨fun hn => (step_of_pendingCall hs hbus hc).trans (if_neg hn),
      fun hn hf => (step_of_pendingCall hs hbus hc).trans ((if_pos hn).trans (if_neg hf)),
      fun hn hf => ⟨_, State.MayBegin.step ⟨hbus, hf, hn, hc⟩ hs, ?_⟩⟩
    refine (map_plain_busScript _ c).trans ?_
    simp [State.addresses, Device.addr, Function.comp_def]
  · have hmissed' : d.speFault ≠ none ∨ x.event.isOvf = true ∧ d.bm = bmReleased := by
      obtain ⟨hbm, b, hb⟩ | hf := hmissed
      · exact .inr ⟨by rw [hb]; rfl, hbm⟩
      · exact .inl hf
    refine ⟨freeByte s.fresh, ?_⟩
    rw [step_of_delivery hs hbus htodo, deliver_passBy (s := s.withSched rest) hn hd hx.symm hmissed', passBy_eq]
    rfl
  · have hrun : runRequest { word := x.event.word, payload := .none } ((s.withSched rest).withDev d) =
        .next ((s.withSched rest).withDev (d.keepFault (.stateInvalid (mkKey d.st (mkWord 0x2#4 b))))) := by
      rw [hx]
      exact runRequest_of_undefined b hf hst
    have hstep := (step_of_delivery hs hbus htodo).trans
      (deliver_raise (s := s.withSched rest) (tx := { tx with todo := todo }) hn hd htarget.symm (fun _ => hbm) hrun nofun)
    have hdevices := map_onlyAt_const hn hd htarget fun e => e.keepFault (.stateInvalid (mkKey e.st (mkWord 0x2#4 b)))
    rw [passBy_eq] at hstep
    exact ⟨freeByte s.fresh, _, hstep, hdevices, rfl⟩
  · subst hcall
    rw [step_of_finished hs hbus htodo hc]
    refine ⟨tx.acknowledged s.fresh, fun hb => tx.acknowledged_of_not_broken hb s.fresh, fun a b hw => ?_, fun a n hr hlen => ?_,
      fun a hp => ?_⟩
    · rw [Transaction.answer, hw]
      rfl
    · rw [Transaction.answer, hr]
      have hle : (if tx.acknowledged s.fresh = true then tx.seq else []).length ≤ n := by split <;> simp [hlen]
      exact if_pos hle
    · rw [Transaction.answer, hp]
      rfl

end Sys2Proof.Machine
end

