-- ==== Sys2Proof/Proofs/Deliveries.lean ====
section
/-! PROOFS. A whole transaction on a bus of any devices (42_host_sequencer.md R142 to R144, 20_memory.md R58): what a series of deliveries makes of each device
by itself, and that the bus carries out the script of a call at all of them. -/

namespace Sys2Proof.Machine

open Config

/-! ## What a series of deliveries makes of one device -/

/-- The device takes the event, without a fault, and becomes `d'`. -/
structure Device.Takes (e : BusEvent) (d d' : Device) : Prop where
  runs : ∀ s : State, runRequest { word := e.word, payload := .none } (s.withDev d) = .next (s.withDev d')
  armed : e.isOvf = true → d.bm ≠ bmReleased
  spe_fault : d'.speFault = none

/-- Taking an event keeps the address. -/
theorem Device.Takes.addr_eq {e : BusEvent} {d d' : Device} (h : d.Takes e d') : d'.addr = d.addr := by
  obtain ⟨-, -, hcfg, -⟩ := runRequest_event (h.runs State.reset)
  exact congrArg DeviceConfig.slaveAddr hcfg

/-- A running SPE takes a start (R100). -/
theorem Device.takes_start {d : Device} (hf : d.speFault = none) : d.Takes .start d.onStart :=
  ⟨fun _ => runRequest_start hf, nofun, d.endWrite_speFault.trans hf⟩

/-- A running SPE takes a stop (R107). -/
theorem Device.takes_stop {d : Device} (hf : d.speFault = none) : d.Takes .stop d.onStop :=
  ⟨fun _ => runRequest_stop hf, nofun, d.endWrite_speFault.trans hf⟩

/-- The bus mode that goes with a defined state is not the released one (R24). -/
theorem pairedMode_ne_released : ∀ st : BitVec 3, st ≤ 5#3 → pairedMode st ≠ bmReleased := by decide

/-- An armed SPE takes an overflow (R84, R101 to R106). -/
theorem Device.Armed.takes_ovf {st : BitVec 3} {d : Device} (h : d.Armed st) (b : Byte) :
    d.Takes (.ovf b) (d.after (decodeOvf st b)) where
  runs s := Device.Armed.runRequest_ovf (s := s.withDev d) h b
  armed _ := h.bm_eq ▸ pairedMode_ne_released st h.defined
  spe_fault := by
    refine (d.after_event_speFault (decodeOvf_agent st b) fun low c hi => ?_).trans h.spe_fault
    have hdef := h.defined
    obtain rfl | rfl := st_of_decodeOvf hi <;> exact absurd hdef (by decide)

/-- Of the series `l`, the device takes every event that is for it, without a fault; it becomes `e`, and the master reads the bytes `bs` from it.
`runFor_deliveries` ties this to the steps of the bus. -/
inductive Device.Carried : List Delivery → Device → Device → List Byte → Prop
  | nil (d : Device) : Device.Carried [] d d []
  | other {x : Delivery} {l : List Delivery} {d e : Device} {bs : List Byte} (hx : x.target ≠ d.addr)
      (h : Device.Carried l d e bs) : Device.Carried (x :: l) d e bs
  | taken {x : Delivery} {l : List Delivery} {d d' e : Device} {bs : List Byte} (hx : x.target = d.addr)
      (hd : d.Takes x.event d') (h : Device.Carried l d' e bs) :
      Device.Carried (x :: l) d e ((if x.reads = .byte then [d.bmByte] else []) ++ bs)

namespace Device.Carried

variable {l m : List Delivery} {d d' e : Device} {bs cs : List Byte}

/-- A series after a series. -/
theorem append (h : Carried l d d' bs) (h' : Carried m d' e cs) : Carried (l ++ m) d e (bs ++ cs) := by
  induction h with
  | nil d => exact h'
  | other hx _ ih => exact .other hx (ih h')
  | taken hx hd _ ih => rw [List.append_assoc]; exact .taken hx hd (ih h')

/-- A series keeps the address. -/
theorem addr_eq (h : Carried l d e bs) : e.addr = d.addr := by
  induction h with
  | nil d => rfl
  | other _ _ ih => exact ih
  | taken _ hd _ ih => exact ih.trans hd.addr_eq

/-- A series for other devices leaves the device alone. -/
theorem of_others (h : ∀ x ∈ l, x.target ≠ d.addr) : Carried l d d [] := by
  induction l with
  | nil => exact .nil d
  | cons x l ih =>
    obtain ⟨hx, hl⟩ := List.forall_mem_cons.1 h
    exact .other hx (ih hl)

/-- One event for the device, at which no byte is read. -/
theorem one {x : Delivery} (hx : x.target = d.addr) (hr : x.reads ≠ .byte) (hd : d.Takes x.event d') : Carried [x] d d' [] := by
  have h := Carried.taken hx hd (.nil d')
  rwa [if_neg hr] at h

/-- One event for each device, at which no byte is read. -/
theorem of_toAll {as : List PeerAddr} {ev : BusEvent} {r : Reading} (hn : as.Nodup) (ha : d.addr ∈ as) (hr : r ≠ .byte)
    (hd : d.Takes ev d') : Carried (toAll as ev r) d d' [] := by
  have hnone : ∀ (c : Device) (as : List PeerAddr), c.addr ∉ as → Carried (toAll as ev r) c c [] := by
    intro c as hc
    refine of_others fun x hx => ?_
    obtain ⟨a, has, rfl⟩ := List.mem_map.1 hx
    exact fun h => hc (h ▸ has)
  obtain ⟨as₁, as₂, rfl⟩ := List.append_of_mem ha
  rw [List.nodup_middle, List.nodup_cons, List.mem_append, not_or] at hn
  obtain ⟨⟨h₁, h₂⟩, -⟩ := hn
  have hone := Carried.one (x := ⟨d.addr, ev, r⟩) rfl hr hd
  have hall := (hnone d as₁ h₁).append (hone.append (hnone d' as₂ (hd.addr_eq ▸ h₂)))
  simpa [toAll] using hall

/-- Nothing happens in an empty series. -/
theorem nil_inv (h : Carried [] d e bs) : d = e ∧ bs = [] := by
  cases h
  exact ⟨rfl, rfl⟩

/-- What a series with a first event says of that event. -/
theorem cons_inv {x : Delivery} (h : Carried (x :: l) d e bs) :
    (x.target ≠ d.addr ∧ Carried l d e bs) ∨
      (x.target = d.addr ∧ ∃ d' cs, d.Takes x.event d' ∧ Carried l d' e cs ∧
        bs = (if x.reads = .byte then [d.bmByte] else []) ++ cs) := by
  cases h with
  | other hx h => exact .inl ⟨hx, h⟩
  | taken hx hd h => exact .inr ⟨hx, _, _, hd, h, rfl⟩

end Device.Carried

/-! ## The bus carries out the series -/

/-- The state inside a transaction: each device `d` of `s` has become `f d`, the transaction is `tx`, and the moves `l` are to come. -/
def State.underWay (f : Device → Device) (tx : Transaction) (l : List Move) (s : State) : State :=
  ((s.mapDevices f).withBus (some tx)).withSched l

/-- Steps go on from the state that the first one leaves. -/
theorem runFor_succ_of_next {n : Nat} {s t : State} (h : step s = .next t) : runFor (n + 1) s = runFor n t := by
  rw [runFor, h]

/-- One step. -/
theorem runFor_one (s : State) : runFor 1 s = step s := by
  rw [runFor]
  cases step s <;> rfl

/-- Changes of the devices that agree on the devices of the bus are one change. -/
theorem State.mapDevices_congr {s : State} {f g : Device → Device} (h : ∀ d ∈ s.devices, f d = g d) :
    s.mapDevices f = s.mapDevices g := by
  obtain ⟨hdev, hpeers⟩ := List.forall_mem_cons.1 h
  rw [State.mapDevices, State.mapDevices, hdev, List.map_congr_left hpeers]

/-- Changes that keep the addresses keep the bus's list of them. -/
theorem State.addresses_mapDevices {s : State} {f : Device → Device} (hf : ∀ d, (f d).addr = d.addr) :
    (s.mapDevices f).addresses = s.addresses := by
  rw [State.addresses, State.mapDevices_devices, List.map_map]
  exact List.map_congr_left fun d _ => hf d

/-- Inside a transaction one step makes the next delivery, at the device it is for. -/
theorem step_underWay {s : State} (hn : s.addresses.Nodup) {f : Device → Device} (hf : ∀ c, (f c).addr = c.addr) {c c' : Device}
    (hm : c ∈ s.devices) {x : Delivery} (hx : x.target = (f c).addr) (hd : (f c).Takes x.event c') {tx : Transaction}
    {l : List Delivery} (htodo : tx.todo = x :: l) (rest : List Move) :
    step (s.underWay f tx (.bus :: rest)) =
      .next (s.underWay (Device.onlyAt x.target (fun _ => c') ∘ f) ({ tx with todo := l }.delivered x (f c).bmByte) rest) := by
  have hn' : (s.underWay f tx rest).addresses.Nodup := (State.addresses_mapDevices hf).symm ▸ hn
  have hm' : f c ∈ (s.underWay f tx rest).devices := List.mem_map_of_mem hm
  refine (step_of_delivery rfl rfl htodo).trans ((deliver_next hn' hm' hx hd.armed (hd.runs _) hd.spe_fault).trans ?_)
  simp [State.underWay, State.mapDevices, State.withBus, State.withSched, hx]

/-- With the series `l` to come, each device `c` of `s` has become `f c`; the series makes `g c` of it, and the master reads the bytes `bs c` from it. -/
structure State.Carries (l : List Delivery) (f g : Device → Device) (bs : Device → List Byte) (s : State) : Prop where
  addr : ∀ c, (f c).addr = c.addr
  carried : ∀ c ∈ s.devices, (f c).Carried l (g c) (bs c)

/-- A device put at its own address keeps the addresses. -/
theorem Device.addr_onlyAt_const {a : PeerAddr} {e : Device} (he : e.addr = a) (d : Device) :
    (Device.onlyAt a (fun _ => e) d).addr = d.addr := by
  unfold Device.onlyAt
  split
  · next h => exact he.trans h.symm
  · rfl

/-- The first event of a series is taken by the device it is for, and the rest of the series by the devices as that leaves them. -/
theorem State.Carries.cons_inv {s : State} {x : Delivery} {l : List Delivery} {f g : Device → Device} {bs : Device → List Byte}
    (h : s.Carries (x :: l) f g bs) (hn : s.addresses.Nodup) (hx : x.target ∈ s.addresses) :
    ∃ c c' cs, c ∈ s.devices ∧ x.target = c.addr ∧ x.target = (f c).addr ∧ (f c).Takes x.event c' ∧
      bs c = (if x.reads = .byte then [(f c).bmByte] else []) ++ cs ∧
      s.Carries l (Device.onlyAt x.target (fun _ => c') ∘ f) g fun e => if e.addr = x.target then cs else bs e := by
  obtain ⟨c, hm, hcx⟩ := List.mem_map.1 hx
  obtain ⟨hne, -⟩ | ⟨hxc, c', cs, htakes, hrest, hbs⟩ := (h.carried c hm).cons_inv
  · exact absurd (hcx.symm.trans (h.addr c).symm) hne
  refine ⟨c, c', cs, hm, hcx.symm, hxc, htakes, hbs,
    fun e => (Device.addr_onlyAt_const (htakes.addr_eq.trans hxc.symm) _).trans (h.addr e), fun e he => ?_⟩
  rw [Function.comp_apply, Device.onlyAt, h.addr e]
  by_cases hea : e.addr = x.target
  · obtain rfl : e = c := List.inj_on_of_nodup_map hn he hm (hea.trans hcx.symm)
    rwa [if_pos hea, if_pos hea]
  · rw [if_neg hea, if_neg hea]
    obtain ⟨-, hrest⟩ | ⟨heq, -⟩ := (h.carried e he).cons_inv
    · exact hrest
    · exact absurd (heq.trans (h.addr e)).symm hea

/-- A delivery adds to what the master has read the byte shifted out, where it reads one (R143). -/
theorem Transaction.delivered_seq (x : Delivery) (out : Byte) (tx : Transaction) :
    (tx.delivered x out).seq = tx.seq ++ if x.reads = .byte then [out] else [] := by
  unfold Transaction.delivered
  split <;> simp

/-- The bus makes one delivery after another: each device becomes what the series makes of it, and the bytes read are those of the one device that the master
reads from. -/
theorem runFor_deliveries {s : State} (hn : s.addresses.Nodup) {d : Device} (hd : d ∈ s.devices) {g : Device → Device}
    {l : List Delivery} (htarget : ∀ x ∈ l, x.target ∈ s.addresses) (hread : ∀ x ∈ l, x.reads = .byte → x.target = d.addr)
    {f : Device → Device} {bs : Device → List Byte} (h : s.Carries l f g bs) {tx : Transaction} (htodo : tx.todo = l) (n : Nat)
    (rest : List Move) :
    runFor (l.length + n) (s.underWay f tx (List.replicate l.length .bus ++ rest)) =
      runFor n (s.underWay g { tx with todo := [], seq := tx.seq ++ bs d } rest) := by
  induction l generalizing f bs tx with
  | nil =>
    obtain ⟨call, todo, acked, seq, broken⟩ := tx
    subst htodo
    rw [(h.carried d hd).nil_inv.2, List.append_nil, State.underWay,
      State.mapDevices_congr fun c hm => (h.carried c hm).nil_inv.1, List.length_nil, Nat.zero_add]
    rfl
  | cons x l ih =>
    obtain ⟨hx, htarget⟩ := List.forall_mem_cons.1 htarget
    obtain ⟨hxd, hread⟩ := List.forall_mem_cons.1 hread
    obtain ⟨c, c', cs, hm, hcx, hxc, htakes, hbs, hrest⟩ := h.cons_inv hn hx
    have hseq : (Transaction.delivered x (f c).bmByte { tx with todo := l }).seq ++ (if d.addr = x.target then cs else bs d) =
        tx.seq ++ bs d := by
      rw [Transaction.delivered_seq, List.append_assoc]
      by_cases hda : d.addr = x.target
      · obtain rfl : d = c := List.inj_on_of_nodup_map hn hd hm (hda.trans hcx)
        rw [if_pos hda, hbs]
      · rw [if_neg hda, if_neg fun hr => hda (hxd hr).symm, List.nil_append]
    have hstep := step_underWay hn h.addr hm hxc htakes htodo (List.replicate l.length .bus ++ rest)
    rw [List.length_cons, Nat.add_right_comm, List.replicate_succ, List.cons_append, runFor_succ_of_next hstep,
      ih htarget hread hrest rfl, hseq]
    rfl

/-! ## The script of a call -/

/-- What follows the address byte is for the addressed device (R142 to R144). -/
theorem addressedPart_target {c : TransportCall} {x : Delivery} (hx : x ∈ addressedPart c) : x.target = c.addr := by
  cases c with
  | writeByte a b =>
    simp only [addressedPart, List.mem_cons, List.not_mem_nil, or_false] at hx
    obtain rfl | rfl | rfl := hx <;> rfl
  | requestBytes a n =>
    simp only [addressedPart, readByte, List.mem_cons, List.mem_flatMap, List.not_mem_nil, or_false] at hx
    obtain rfl | ⟨i, -, rfl | rfl⟩ := hx <;> rfl
  | probe a =>
    obtain rfl := List.mem_singleton.1 hx
    rfl

/-- The events of a script: one for every device, at which no byte is read, or one of the addressed device. -/
theorem busScript_cases {l : List PeerAddr} {c : TransportCall} {x : Delivery} (hx : x ∈ busScript l c) :
    (x.target ∈ l ∧ x.reads ≠ .byte) ∨ (c.addr ∈ l ∧ x.target = c.addr) := by
  have hall : ∀ {e : BusEvent} {r : Reading}, x ∈ toAll l e r → r ≠ .byte → x.target ∈ l ∧ x.reads ≠ .byte := by
    intro e r hm hr
    obtain ⟨a, ha, rfl⟩ := List.mem_map.1 hm
    exact ⟨ha, hr⟩
  simp only [busScript, List.mem_append] at hx
  obtain ((hx | hx) | hx) | hx := hx
  · exact .inl (hall hx nofun)
  · exact .inl (hall hx nofun)
  · split at hx
    · next ha => exact .inr ⟨ha, addressedPart_target hx⟩
    · cases hx
  · exact .inl (hall hx nofun)

/-- A whole transaction, from its taking up to its end: each device becomes what the script makes of it, and the call is answered with the bytes read from the
addressed device, where there is one (R142 to R144). -/
theorem runFor_transaction {s : State} {c : TransportCall} {d : Device} {g : Device → Device} {bs : Device → List Byte}
    {rest : List Move} (hbegin : s.MayBegin c) (hd : d ∈ s.devices) (haddr : c.addr ∈ s.addresses → d.addr = c.addr)
    (hc : ∀ e ∈ s.devices, e.Carried (busScript s.addresses c) (g e) (bs e))
    (hs : s.sched = List.replicate ((busScript s.addresses c).length + 2) .bus ++ rest) :
    runFor ((busScript s.addresses c).length + 2) s =
      completeCall c (Transaction.answer s.fresh ⟨c, [], decide (c.addr ∈ s.addresses), bs d, false⟩)
        ((((s.mapDevices g).withBus none).withSched rest).draw 1) := by
  have htarget : ∀ x ∈ busScript s.addresses c, x.target ∈ s.addresses := by
    intro x hx
    obtain ⟨h, -⟩ | ⟨h, ht⟩ := busScript_cases hx
    · exact h
    · exact ht ▸ h
  have hread : ∀ x ∈ busScript s.addresses c, x.reads = .byte → x.target = d.addr := by
    intro x hx hr
    obtain ⟨-, h⟩ | ⟨h, ht⟩ := busScript_cases hx
    · exact absurd hr h
    · exact ht.trans (haddr h).symm
  generalize hl : busScript s.addresses c = l at *
  have hopen : step s =
      .next (s.underWay id (Transaction.opened s.addresses c) (List.replicate (l.length + 1) .bus ++ rest)) := by
    rw [hbegin.step hs, State.underWay, State.mapDevices, List.map_id]
    rfl
  have hdeliver := runFor_deliveries hbegin.distinct hd htarget hread (f := id) ⟨fun _ => rfl, hc⟩
    (tx := Transaction.opened s.addresses c) hl 1 (.bus :: rest)
  have hend := step_of_finished (s := s.underWay g ⟨c, [], decide (c.addr ∈ s.addresses), bs d, false⟩ (.bus :: rest))
    rfl rfl rfl hbegin.waits
  rw [runFor_succ_of_next hopen, List.replicate_succ', List.append_assoc]
  exact hdeliver.trans ((runFor_one _).trans hend)

/-- The number of events of a script. -/
theorem length_busScript (l : List PeerAddr) (c : TransportCall) :
    (busScript l c).length = 3 * l.length + if c.addr ∈ l then (addressedPart c).length else 0 := by
  simp only [busScript, toAll, List.length_append, List.length_map, apply_ite List.length, List.length_nil]
  omega

end Sys2Proof.Machine
end

