-- ==== Sys2Proof/Proofs/ComposedTransactions.lean ====
section
/-! PROOFS. The composed transactions of 42_host_sequencer.md R142 and R143: what the script of a write, of a read and of a call to another address makes of a
device, and the two transactions from their taking up to their end. -/

namespace Sys2Proof.Machine

open Config

/-! ## What the script makes of a device -/

/-- The SPE stands in `AWAIT_ADDRESS` and is running. -/
structure Device.Waiting (d : Device) : Prop where
  st : d.st = 0#3
  spe_fault : d.speFault = none

/-- The address byte of a call carries its address (R70). -/
theorem byteAddr_addrByte (c : TransportCall) : byteAddr c.addrByte = c.addr := by
  cases c with
  | writeByte a b => exact (byte_eq_append_iff.1 (rfl : writeAddrByte a = a ++ 0#1)).1
  | requestBytes a n => exact (byte_eq_append_iff.1 (rfl : readAddrByte a = a ++ 1#1)).1
  | probe a => exact (byte_eq_append_iff.1 (rfl : writeAddrByte a = a ++ 0#1)).1

/-- A byte that stands in `BM_BYTE` is read, and the master's acknowledge bit is taken (R103, R104, R143). -/
theorem Device.carried_readByte {a : PeerAddr} {d : Device} (hf : d.speFault = none) (ha : d.addr = a) (n i : Nat) :
    d.sendNext.Carried (readByte a n i) (d.sendNext.onAckBit (ackByte (decide (i + 1 = n)))) [d.sendNext.bmByte] := by
  have hsent : (d.sendNext.goTo 3#3 2#3).Armed 3#3 := ⟨by decide, rfl, rfl, d.sendNext_speFault.trans hf⟩
  have haddr : a = d.sendNext.addr := ha.symm.trans (congrArg DeviceConfig.slaveAddr d.sendNext_cfg).symm
  exact .taken haddr ((sendNext_armed hf).takes_ovf _) (.taken haddr (hsent.takes_ovf _) (.nil _))

/-- The bytes that the master reads one after another, as `n` bytes are armed (R109, R143). -/
def Device.bytesSent (n : Nat) (d : Device) : List Byte := (List.range n).map fun i => (d.sendBytes (i + 1)).bmByte

/-- One byte more is read. -/
theorem Device.bytesSent_succ (n : Nat) (d : Device) : d.bytesSent (n + 1) = d.bytesSent n ++ [(d.sendBytes n).sendNext.bmByte] := by
  rw [Device.bytesSent, List.range_succ, List.map_append, List.map_singleton, Device.sendBytes_succ]
  rfl

/-- The bytes before the last are read and acknowledged, and each acknowledgement arms the next byte (R104, R143). -/
theorem Device.carried_acknowledgedBytes {d : Device} (hf : d.speFault = none) {n : Nat} :
    ∀ j < n, d.sendNext.Carried ((List.range j).flatMap (readByte d.addr n)) (d.sendBytes j).sendNext (d.bytesSent j)
  | 0, _ => .nil _
  | j + 1, hj => by
    obtain ⟨hcfg, -, -, -, hspe⟩ := d.sendBytes_frame j
    have hbyte := carried_readByte (hspe.trans hf) (congrArg DeviceConfig.slaveAddr hcfg) n j
    rw [decide_eq_false hj.ne] at hbyte
    rw [List.range_succ, List.flatMap_append, List.flatMap_singleton, bytesSent_succ, sendBytes_succ]
    exact (carried_acknowledgedBytes hf j (Nat.lt_of_succ_lt hj)).append hbyte

/-- The data of a read: the last byte is not acknowledged, which releases the device (R104, R143). -/
theorem Device.carried_data {d : Device} (hf : d.speFault = none) (n : Nat) :
    d.sendNext.Carried ((List.range (n + 1)).flatMap (readByte d.addr (n + 1))) ((d.sendBytes (n + 1)).goTo 0#3 0#3)
      (d.bytesSent (n + 1)) := by
  obtain ⟨hcfg, -, -, -, hspe⟩ := d.sendBytes_frame n
  have hlast := carried_readByte (hspe.trans hf) (congrArg DeviceConfig.slaveAddr hcfg) (n + 1) n
  rw [decide_eq_true rfl] at hlast
  rw [List.range_succ, List.flatMap_append, List.flatMap_singleton, bytesSent_succ, sendBytes_succ]
  exact (carried_acknowledgedBytes hf n n.lt_succ_self).append hlast

section Script

variable {d : Device} {l : List PeerAddr} (hn : l.Nodup) (hl : d.addr ∈ l)
include hn hl

/-- The stop ends a transaction at a device that is still running (R107). -/
theorem Device.Carried.stop {m : List Delivery} {e : Device} {bs : List Byte} (h : d.Carried m e bs) (he : e.speFault = none) :
    d.Carried (m ++ toAll l .stop .nothing) e.onStop bs := by
  have hall := h.append (Carried.of_toAll (r := .nothing) hn (h.addr_eq ▸ hl) (by decide) (takes_stop he))
  rwa [List.append_nil] at hall

namespace Device.Waiting

variable (hw : d.Waiting)
include hw

/-- From `AWAIT_ADDRESS`, the start and the address byte leave what the address byte makes of the device (R100, R101). -/
theorem carried_address (b : Byte) :
    d.Carried (toAll l .start .nothing ++ toAll l (.ovf b) .acknowledge) (d.onAddress b) [] := by
  have hstart : d.Takes .start (d.goTo 0#3 1#3) := onStart_of_awaitAddress hw.st ▸ takes_start hw.spe_fault
  have harmed : (d.goTo 0#3 1#3).Armed 0#3 := ⟨by decide, rfl, rfl, hw.spe_fault⟩
  have haddress : (d.goTo 0#3 1#3).Takes (.ovf b) (d.onAddress b) := harmed.takes_ovf b
  exact (Carried.of_toAll hn hl (by decide) hstart).append (Carried.of_toAll hn hl (by decide) haddress)

/-- A transaction to another address releases the device (R71, R101). -/
theorem carried_other {c : TransportCall} (hne : d.addr ≠ c.addr) : d.Carried (busScript l c) (d.goTo 0#3 0#3) [] := by
  have hbyte : ∀ x : BitVec 1, c.addrByte ≠ d.cfg.slaveAddr ++ x := fun x hx =>
    hne ((byte_eq_append_iff.1 hx).1.symm.trans (byteAddr_addrByte c))
  have haddress := hw.carried_address hn hl c.addrByte
  rw [onAddress_other (hbyte _) (hbyte _)] at haddress
  have hmiddle : (d.goTo 0#3 0#3).Carried (if c.addr ∈ l then addressedPart c else []) (d.goTo 0#3 0#3) [] := by
    refine Carried.of_others fun x hx => ?_
    split at hx
    · exact fun h => hne (h.symm.trans (addressedPart_target hx))
    · cases hx
  exact (haddress.append hmiddle).stop hn hl hw.spe_fault

/-- A write to the device stores the byte or drops it, notifies `RCV` and releases the device (R106, R107, R142). -/
theorem carried_write (b : Byte) :
    d.Carried (busScript l (.writeByte d.addr b)) (((d.onByteReceived b).emit .rcv).goTo 0#3 0#3) [] := by
  have hf : (d.onByteReceived b).speFault = none := (d.onByteReceived_speFault b).trans hw.spe_fault
  have haddress := hw.carried_address hn hl (writeAddrByte d.cfg.slaveAddr)
  rw [onAddress_write] at haddress
  have hselected : (d.goTo 4#3 3#3).Armed 4#3 := ⟨by decide, rfl, rfl, hw.spe_fault⟩
  have hready : (d.goTo 5#3 1#3).Armed 5#3 := ⟨by decide, rfl, rfl, hw.spe_fault⟩
  have hstored : (d.onByteReceived b).Armed 4#3 := ⟨by decide, rfl, rfl, hf⟩
  have hstore : (d.goTo 5#3 1#3).Takes (.ovf b) (d.onByteReceived b) := onByteReceived_goTo 5#3 1#3 b d ▸ hready.takes_ovf b
  have hdata : (d.goTo 4#3 3#3).Carried (addressedPart (.writeByte d.addr b)) ((d.onByteReceived b).goTo 5#3 1#3) [] :=
    .taken rfl (hselected.takes_ovf _) (.taken rfl hstore (.taken hstore.addr_eq.symm (hstored.takes_ovf _) (.nil _)))
  rw [busScript, if_pos (show (TransportCall.writeByte d.addr b).addr ∈ l from hl)]
  exact (haddress.append hdata).stop hn hl hf

/-- A read from the device notifies `REQ`, arms its bytes, of which the master reads each, and releases the device (R101, R102, R143). -/
theorem carried_read (n : Nat) :
    d.Carried (busScript l (.requestBytes d.addr (n + 1))) (((d.emit .req).sendBytes (n + 1)).goTo 0#3 0#3)
      ((d.emit .req).bytesSent (n + 1)) := by
  obtain ⟨-, -, -, -, hf⟩ := (d.emit .req).sendBytes_frame (n + 1)
  have haddress := hw.carried_address hn hl (readAddrByte d.cfg.slaveAddr)
  rw [onAddress_read] at haddress
  have hselected : ((d.emit .req).goTo 1#3 3#3).Armed 1#3 := ⟨by decide, rfl, rfl, hw.spe_fault⟩
  have hselect : ((d.emit .req).goTo 1#3 3#3).Takes (.ovf ignoredByte) (d.emit .req).sendNext := hselected.takes_ovf _
  have hdata : ((d.emit .req).goTo 1#3 3#3).Carried (addressedPart (.requestBytes d.addr (n + 1)))
      (((d.emit .req).sendBytes (n + 1)).goTo 0#3 0#3) ((d.emit .req).bytesSent (n + 1)) :=
    .taken rfl hselect (Device.carried_data (d := d.emit .req) hw.spe_fault n)
  rw [busScript, if_pos (show (TransportCall.requestBytes d.addr (n + 1)).addr ∈ l from hl)]
  exact (haddress.append hdata).stop hn hl (hf.trans hw.spe_fault)

end Device.Waiting

end Script

/-! ## The bytes of a read -/

/-- An empty ring has no pending byte (R25). -/
theorem Ring.pending_eq_nil {log2 : Nat} {r : Ring} (h : r.count = 0) : r.pending log2 = [] := by
  rw [Ring.pending, h]
  rfl

/-- The next byte sent is the oldest pending one, or the filler where there is none (R109). -/
theorem Device.Ok.sendNext_bmByte {d : Device} (h : d.Ok) :
    d.sendNext.bmByte = ((d.tx.pending d.cfg.txLog2.val)[0]?).getD d.cfg.filler := by
  unfold Device.sendNext
  split
  · next hpending =>
    rw [h.tx.pending_eq_front_cons hpending]
    rfl
  · next hempty =>
    rw [Ring.pending_eq_nil (Nat.eq_zero_of_not_pos hempty)]
    rfl

/-- The bytes the master reads are the pending ones, oldest first, and the filler after the last of them (R54, R109, R143). -/
theorem Device.Ok.bytesSent_eq {d : Device} (h : d.Ok) (n : Nat) :
    d.bytesSent n = (d.tx.pending d.cfg.txLog2.val ++ List.replicate n d.cfg.filler).take n := by
  refine List.ext_getElem (by simp [Device.bytesSent]) fun i hi hi' => ?_
  obtain ⟨hcfg, -⟩ := d.sendBytes_frame i
  have hbyte := (h.sendBytes i).sendNext_bmByte
  rw [hcfg, h.pending_sendBytes, List.getElem?_drop, Nat.add_zero] at hbyte
  simp only [Device.bytesSent, List.getElem_map, List.getElem_range, List.getElem_take, Device.sendBytes_succ, hbyte,
    List.getElem_append, List.getElem_replicate]
  split
  · next hlt => rw [List.getElem?_eq_getElem hlt]; rfl
  · next hge => rw [List.getElem?_eq_none (Nat.not_lt.1 hge)]; rfl

/-! ## The composed write and read -/

/-- The devices after a transaction to the address `a`: the one that has it has become `e`, every other is released; `runFor_addressed` ties it to the steps of
the bus. -/
def Device.afterCall (a : PeerAddr) (e x : Device) : Device := if x.cfg.slaveAddr = a then e else x.goTo 0#3 0#3

section Transaction

variable {s : State} {c : TransportCall} {rest : List Move} (hbegin : s.MayBegin c) (hw : ∀ d ∈ s.devices, d.Waiting)
include hbegin hw

/-- A transaction to an address that no device has releases every device, and is answered as not acknowledged (R142, R143). -/
theorem runFor_absent (habsent : c.addr ∉ s.addresses)
    (hs : s.sched = List.replicate (3 * s.devices.length + 2) .bus ++ rest) :
    runFor (3 * s.devices.length + 2) s =
      completeCall c (Transaction.answer s.fresh ⟨c, [], false, [], false⟩)
        ((((s.mapDevices (Device.goTo 0#3 0#3)).withBus none).withSched rest).draw 1) := by
  have hlen : (busScript s.addresses c).length = 3 * s.devices.length := by
    rw [length_busScript, if_neg habsent, State.addresses, List.length_map, Nat.add_zero]
  have hcarried : ∀ x ∈ s.devices, x.Carried (busScript s.addresses c) (x.goTo 0#3 0#3) [] := fun x hx =>
    (hw x hx).carried_other hbegin.distinct (List.mem_map_of_mem hx) fun h => habsent (h ▸ List.mem_map_of_mem hx)
  have hrun := runFor_transaction hbegin (List.mem_cons_self (a := s.dev)) (fun h => absurd h habsent) hcarried (rest := rest)
    (by rw [hlen, hs])
  rwa [hlen, decide_eq_false habsent] at hrun

/-- A transaction to the address of the device `d` makes of it what its script does, releases every other device, and is answered as acknowledged with the bytes
read from it (R142, R143). -/
theorem runFor_addressed {d e : Device} {bs : List Byte} (hd : d ∈ s.devices) (hda : d.addr = c.addr)
    (hcarried : d.Carried (busScript s.addresses c) e bs)
    (hs : s.sched = List.replicate (3 * s.devices.length + (addressedPart c).length + 2) .bus ++ rest) :
    runFor (3 * s.devices.length + (addressedPart c).length + 2) s =
      completeCall c (Transaction.answer s.fresh ⟨c, [], true, bs, false⟩)
        ((((s.mapDevices (Device.afterCall c.addr e)).withBus none).withSched rest).draw 1) := by
  have hin : c.addr ∈ s.addresses := hda ▸ List.mem_map_of_mem hd
  have hlen : (busScript s.addresses c).length = 3 * s.devices.length + (addressedPart c).length := by
    rw [length_busScript, if_pos hin, State.addresses, List.length_map]
  have hall : ∀ x ∈ s.devices,
      x.Carried (busScript s.addresses c) (Device.afterCall c.addr e x) (if x.cfg.slaveAddr = c.addr then bs else []) := by
    intro x hx
    unfold Device.afterCall
    by_cases hxa : x.cfg.slaveAddr = c.addr
    · obtain rfl : x = d := List.inj_on_of_nodup_map hbegin.distinct hx hd (hxa.trans hda.symm)
      rwa [if_pos hxa, if_pos hxa]
    · rw [if_neg hxa, if_neg hxa]
      exact (hw x hx).carried_other hbegin.distinct (List.mem_map_of_mem hx) hxa
  have hrun := runFor_transaction hbegin hd (fun _ => hda) hall (rest := rest) (by rw [hlen, hs])
  rwa [hlen, decide_eq_true hin, if_pos (show d.cfg.slaveAddr = c.addr from hda)] at hrun

end Transaction

/-- The device after a write to it, in R106's and R107's terms. -/
theorem Device.written_eq (b : Byte) (d : Device) :
    ((d.onByteReceived b).emit .rcv).goTo 0#3 0#3 =
      if d.rx.count < 2 ^ d.cfg.rxLog2.val then
        { d with st := 0#3, bm := 0#3, ntf := d.ntf ++ [.rcv], rx := d.rx.push d.cfg.rxLog2.val b }
      else { d with st := 0#3, bm := 0#3, ntf := d.ntf ++ [.rcv], rxOvf := true } := by
  split
  · next hroom => rw [onByteReceived_of_room hroom]; rfl
  · next hfull => rw [onByteReceived_of_full (Nat.not_lt.1 hfull)]; rfl

/-- Settles O44: the transaction with the device's write, or without a device. -/
theorem composedWrite : Obligations.ComposedWrite := by
  intro s rest b hbus hforeign hn hst hf hphase hcmd
  have hbegin : s.MayBegin (.writeByte s.hcs.addr b) := ⟨hbus, hforeign, hn, State.pendingCall_of_write hphase hcmd⟩
  have hw : ∀ d ∈ s.devices, d.Waiting := fun d hd => ⟨hst d hd, hf d hd⟩
  refine ⟨fun hin hs => ?_, fun habsent hs => ?_⟩
  · obtain ⟨d, hd, hda⟩ := List.mem_map.1 hin
    have hcarried := (hw d hd).carried_write hn (List.mem_map_of_mem hd) b
    rw [show d.addr = s.hcs.addr from hda, Device.written_eq] at hcarried
    refine ⟨_, runFor_addressed hbegin hw hd hda hcarried hs, rfl, rfl, rfl, rfl, ?_⟩
    change s.devices.map (Device.afterCall s.hcs.addr _) = _
    refine List.map_congr_left fun x hx => ?_
    by_cases hxa : x.cfg.slaveAddr = s.hcs.addr
    · obtain rfl : x = d := List.inj_on_of_nodup_map hn hx hd (hxa.trans hda.symm)
      exact (if_pos hxa).trans (if_neg (not_not.2 hxa)).symm
    · exact (if_neg hxa).trans (if_pos hxa).symm
  · exact ⟨_, runFor_absent hbegin hw habsent hs, rfl, rfl, rfl, rfl, rfl⟩

/-- The addressed device's events in a read of `n` bytes: the end of its ACK, and two for each byte (R143). -/
theorem length_addressedPart_requestBytes (a : PeerAddr) (n : Nat) : (addressedPart (.requestBytes a n)).length = 2 * n + 1 := by
  simp [addressedPart, readByte, List.length_flatMap, Nat.mul_comm]

/-- A read's reply of at most the bytes asked for is the read micro-step (R132, R138, R139). -/
theorem completeCall_requestBytes {a : PeerAddr} {n : Nat} {seq : List Byte} (h : seq.length ≤ n) (s : State) :
    completeCall (.requestBytes a n) (.bytes seq) s = .next (s.withHcs (s.hcs.readStep seq)) := if_pos h

/-- Settles O45: the transaction with the device's read, or without a device. -/
theorem composedRead : Obligations.ComposedRead := by
  intro s rest m hbus hforeign hn hst hf hphase hm
  have hbegin : s.MayBegin (.requestBytes s.hcs.addr m) := ⟨hbus, hforeign, hn, hm ▸ State.pendingCall_of_read hphase⟩
  have hw : ∀ d ∈ s.devices, d.Waiting := fun d hd => ⟨hst d hd, hf d hd⟩
  refine ⟨fun d hd hda hok hs => ?_, fun habsent hs => ?_⟩
  · obtain ⟨n, rfl⟩ : ∃ n, m = n + 1 := Nat.exists_eq_succ_of_ne_zero (by split at hm <;> omega)
    have hreq : (d.emit .req).Ok := ⟨hok.pair, hok.rx, hok.tx, hok.spe_fault⟩
    have hcarried := (hw d hd).carried_read hn (List.mem_map_of_mem hd) n
    rw [show d.addr = s.hcs.addr from hda, hreq.bytesSent_eq] at hcarried
    have hsteps : 3 * s.devices.length + 2 * (n + 1) + 3 =
        3 * s.devices.length + (addressedPart (.requestBytes s.hcs.addr (n + 1))).length + 2 := by
      rw [length_addressedPart_requestBytes]
      omega
    rw [hsteps] at hs ⊢
    have hrun := (runFor_addressed hbegin hw hd hda hcarried hs).trans
      (completeCall_requestBytes (List.length_take_le _ _) _)
    obtain ⟨hcfg, hrx, hovf, hntf, -⟩ := (d.emit .req).sendBytes_frame (n + 1)
    exact ⟨_, _, hrun, rfl, rfl, rfl, rfl, rfl, hcfg, rfl, rfl, hntf, hrx, hovf, hreq.pending_sendBytes (n + 1)⟩
  · exact ⟨_, runFor_absent hbegin hw habsent hs, rfl, rfl, rfl, rfl, rfl⟩

end Sys2Proof.Machine
end

