-- ==== Sys2Proof/Proofs/ClientData.lean ====
section
/-! PROOFS. What the client programs compute apart from the bus (45_host_clients.md): the pages of an image (R157), the address classes (R164), and the
registry with an open (R150, R151). -/

namespace Sys2Proof.Machine

/-! ## Pages -/

/-- The bytes of a page are those of the image from the page's start on, at most a page size of them (R157). -/
theorem length_pageOf (ps : Nat) (image : List Byte) (i : Nat) :
    (pageOf ps image i).length = min ps (image.length - i * ps) := by
  rw [pageOf, List.length_take, List.length_drop]

/-- A byte of a page is the image's byte at the same place (R157). -/
theorem getElem?_pageOf {ps : Nat} {image : List Byte} {i j : Nat} (hj : j < (pageOf ps image i).length) :
    (pageOf ps image i)[j]? = image[i * ps + j]? := by
  have hps : j < ps := (lt_min_iff.1 (length_pageOf ps image i ▸ hj)).1
  rw [pageOf, List.getElem?_take_of_lt hps, List.getElem?_drop]

/-- There is a page `i` exactly where its start is inside the image (R157). -/
theorem lt_pageCount_iff {ps len i : Nat} (hps : 1 ≤ ps) : i < pageCount ps len ↔ i * ps < len := by
  rw [pageCount, Nat.lt_iff_add_one_le, Nat.le_div_iff_mul_le hps, Nat.add_mul]
  omega

/-- The first `n` pages are the image's first `n * PAGE_SIZE` bytes. -/
theorem flatMap_pageOf_range (ps : Nat) (image : List Byte) (n : Nat) :
    (List.range n).flatMap (pageOf ps image) = image.take (n * ps) := by
  induction n with
  | zero => simp
  | succ n ih =>
    rw [List.range_succ, List.flatMap_append, ih, List.flatMap_singleton, pageOf, Nat.add_mul, Nat.one_mul, List.take_add]

/-- Settles O55: no page starts behind the page count, so the pages up to it hold the whole image; a page before the last one is full because another
starts at its end. -/
theorem pagesMakeTheImage : Obligations.PagesMakeTheImage := by
  intro ps image hps
  have hall : image.length ≤ pageCount ps image.length * ps := not_lt.1 ((lt_pageCount_iff hps).not.1 (lt_irrefl _))
  refine ⟨?_, fun i hi => ?_, fun i hi => ?_, fun i _ j hj => getElem?_pageOf hj, fun h => ?_⟩
  · rw [flatMap_pageOf_range, List.take_of_length_le hall]
  · have hnext : (i + 1) * ps < image.length := (lt_pageCount_iff hps).1 hi
    rw [Nat.add_mul] at hnext
    rw [length_pageOf]
    omega
  · have hstart : i * ps < image.length := (lt_pageCount_iff hps).1 (by omega)
    rw [← hi, Nat.add_mul] at hall
    rw [length_pageOf]
    omega
  · have hempty : ¬ 0 < pageCount ps image.length := by simp [lt_pageCount_iff hps, h]
    omega

/-! ## Address classes -/

/-- Settles O54: with the source's bounds both classes are ranges of numbers, and the pairing offset moves the one range onto the other without a carry. -/
theorem addressClasses : Obligations.AddressClasses := by
  intro h a hmin hboot happ hmax hoff
  have hbootRange (b : PeerAddr) : isBootAddr h b = decide (8 ≤ b.toNat ∧ b.toNat ≤ 35) := by
    simp [isBootAddr, hmin, hboot, BitVec.le_def]
  have happRange (b : PeerAddr) : isAppAddr h b = decide (36 ≤ b.toNat ∧ b.toNat ≤ 63) := by
    simp [isAppAddr, happ, hmax, BitVec.le_def]
  refine ⟨hbootRange a, happRange a, fun ha => ⟨a + 28#7, ?_, ?_⟩⟩
  · rw [pairAddr, hbootRange, if_pos (decide_eq_true ha), hoff]
  · have hpair : (a + 28#7).toNat = a.toNat + 28 := by
      rw [BitVec.toNat_add]
      exact Nat.mod_eq_of_lt (by simp; omega)
    refine ⟨hpair, ?_⟩
    rw [happRange, hpair]
    exact decide_eq_true (by omega)

/-! ## The registry -/

/-- An acquire of a held address fails (R150). -/
theorem acquire_of_mem {a : PeerAddr} {held : List PeerAddr} (h : a ∈ held) : acquire a held = (.alreadyInUse, held) := if_pos h

/-- An acquire of a free address holds it (R150). -/
theorem acquire_of_not_mem {a : PeerAddr} {held : List PeerAddr} (h : a ∉ held) : acquire a held = (.success, held ++ [a]) :=
  if_neg h

/-- After an acquire the address is held beside those held before (R150). -/
theorem mem_acquire {a b : PeerAddr} {held : List PeerAddr} : b ∈ (acquire a held).2 ↔ b = a ∨ b ∈ held := by
  by_cases h : a ∈ held
  · rw [acquire_of_mem h]
    exact ⟨.inr, fun hb => hb.elim (· ▸ h) id⟩
  · rw [acquire_of_not_mem h, List.mem_append, List.mem_singleton, or_comm]

/-- After a release every address held before is held but the one released (R150). -/
theorem mem_release {a b : PeerAddr} {held : List PeerAddr} : b ∈ release a held ↔ b ∈ held ∧ b ≠ a := by
  simp [release]

/-- An open of a held address writes its result alone (R151). -/
theorem Client.openConn_of_mem {a : PeerAddr} {c : Client} (h : a ∈ c.held) (hint : PinHint) (blockSize : Option Nat) :
    c.openConn a hint blockSize = { c with openResult := some .addressConflict } := by
  rw [Client.openConn, acquire_of_mem h]

/-- An open of a free address holds it and makes its Connection (R151). -/
theorem Client.openConn_of_not_mem {a : PeerAddr} {c : Client} (h : a ∉ c.held) (hint : PinHint) (blockSize : Option Nat) :
    c.openConn a hint blockSize = { c with
      held := c.held ++ [a]
      conns := c.conns ++ [{ addr := a, ownsTransport := decide (hint = .dedicatedLines), blockSize := blockSize }]
      openResult := some .opened } := by
  rw [Client.openConn, acquire_of_not_mem h]

/-- Settles O53: what an acquire, a release and an open leave held. -/
theorem registryRules : Obligations.RegistryRules := by
  refine ⟨fun a held => ⟨?_, ?_, fun b hb => ⟨?_, ?_⟩⟩, fun a hint bs c => ⟨fun h => c.openConn_of_mem h hint bs, fun h => ?_⟩⟩
  · rw [acquire_of_mem (mem_acquire.2 (.inl rfl))]
  · rw [acquire_of_not_mem fun h => (mem_release.1 h).2 rfl]
  · simp [mem_acquire, hb]
  · simp [mem_release, hb]
  · rw [Client.openConn_of_not_mem h]
    exact ⟨rfl, List.mem_append_right _ (List.mem_singleton_self a)⟩

end Sys2Proof.Machine
end

