-- ==== Sys2Proof/Proofs/ClientSteps.lean ====
section
/-! PROOFS. The steps of the client programs (45_host_clients.md): what the issue of each host operation writes (R153, R155, R158), and where each
result leads in an upload (R153 to R159), a status query (R155, R156), find-first (R160) and a full scan (R161, R162). -/

namespace Sys2Proof.Machine

open Config

/-! ## The move of a client program -/

section Move

variable {s : State} {rest : List Move} (hs : s.sched = .clientStep :: rest)
include hs

/-- An upload under way takes the step. -/
theorem step_of_upload {a : PeerAddr} {image : List Byte} {two : Bool} {st : UploadStage}
    (hj : s.client.job = .upload a image two st) : step s = uploadStep a image two st (s.withSched rest) := by
  simp [step_of_sched hs, runMove, clientStep, hj]

/-- A status query under way takes the step. -/
theorem step_of_query {a : PeerAddr} {issued : Bool} (hj : s.client.job = .query a issued) :
    step s = queryStep a issued (s.withSched rest) := by
  simp [step_of_sched hs, runMove, clientStep, hj]

/-- A find-first under way takes the step. -/
theorem step_of_find {a : PeerAddr} {st : ProbeStage} (hj : s.client.job = .find a st) :
    step s = findStep a st (s.withSched rest) := by
  simp [step_of_sched hs, runMove, clientStep, hj]

/-- A full scan under way takes the step. -/
theorem step_of_scan {a : PeerAddr} {st : ScanStage} {es : List InfoRecord} (hj : s.client.job = .scan a st es) :
    step s = scanStep a st es (s.withSched rest) := by
  simp [step_of_sched hs, runMove, clientStep, hj]

end Move

/-- Where the call has returned, the program goes on with its result (R140), the schedule having moved on. -/
theorem onDone_of_done {s : State} (h : s.hcs.phase = .done) (k : HsResult → State → State) (rest : List Move) :
    onDone k (s.withSched rest) = .next (k s.hcs.result (s.withSched rest)) := if_pos h

/-! ## The issues -/

/-- The 7-bit address of a program's descriptor is the peer's. -/
@[simp] theorem peerOf_descriptorTo (a : PeerAddr) (cmds : List Byte) (echo : Byte) : peerOf (descriptorTo a cmds echo) = a := by
  rw [peerOf, descriptorTo, ← BitVec.setWidth_eq_extractLsb' (by decide), BitVec.setWidth_setWidth_of_le _ (by decide),
    BitVec.setWidth_eq]

/-- The address of a program's descriptor is in R134's bounds, so only the number of its command bytes is left to check. -/
theorem descriptorOk_descriptorTo {c : HostConfig} (a : PeerAddr) {cmds : List Byte} (echo : Byte) (hpos : 1 ≤ cmds.length)
    (hmax : cmds.length ≤ c.maxCmdLen) : descriptorOk c (descriptorTo a cmds echo) = true := by
  refine descriptorOk_iff.2 ⟨hpos, hmax, ?_⟩
  have ha : a.toNat < 2 ^ 7 := a.isLt
  rw [descriptorTo, BitVec.toNat_setWidth_of_le (by decide)]
  omega

/-- The registers an issue of a program writes (R135, R136). -/
theorem Hcs.begin_descriptorTo (a : PeerAddr) (cmds : List Byte) (echo : Byte) (n : Nat) (h : Hcs) :
    h.begin (descriptorTo a cmds echo) n =
      { h with addr := a, cmds := cmds, idx := 0, echo := echo, n := n, phase := .write } := by
  rw [Hcs.begin, peerOf_descriptorTo]
  rfl

section Issue

variable {s : State} (hp : s.hcs.phase = .idle ∨ s.hcs.phase = .done) {a : PeerAddr} (j : Job)
include hp

/-- A program's `HOST_CMD1` in R134's bounds is issued, and the program goes on (R135, R153, R158). -/
theorem issueThen_hostCmd1 {cmds : List Byte} (echo : Byte) (hpos : 1 ≤ cmds.length) (hmax : cmds.length ≤ s.host.maxCmdLen) :
    issueThen (.hostCmd1 (descriptorTo a cmds echo)) j s = .next { s with
      client := { s.client with job := j }
      hcs := { s.hcs with addr := a, cmds := cmds, idx := 0, echo := echo, n := 0, phase := .write } } := by
  have hissue := execHostCmd1_next.2 ⟨Hcs.ready_of_idle_or_done hp, descriptorOk_descriptorTo a echo hpos hmax, rfl⟩
  rw [Hcs.begin_descriptorTo] at hissue
  simp only [issueThen, exec, hissue]
  rfl

/-- A program's `HOST_CMDN` in R134's bounds is issued, and the program goes on (R136, R155). -/
theorem issueThen_hostCmdN {cmds : List Byte} (echo : Byte) {r : ReplyRequest} (hpos : 1 ≤ cmds.length)
    (hmax : cmds.length ≤ s.host.maxCmdLen) (hr : replyOk s.host r = true) :
    issueThen (.hostCmdN (descriptorTo a cmds echo) r) j s = .next { s with
      client := { s.client with job := j }
      hcs := { s.hcs with addr := a, cmds := cmds, idx := 0, echo := echo, n := r.n, buf := r.buf, phase := .write } } := by
  have hissue := execHostCmdN_next.2 ⟨Hcs.ready_of_idle_or_done hp,
    (Bool.and_eq_true _ _).mpr ⟨descriptorOk_descriptorTo a echo hpos hmax, hr⟩, rfl⟩
  rw [Hcs.begin_descriptorTo] at hissue
  simp only [issueThen, exec, hissue]
  rfl

/-- A status query in R134's bounds is issued, with the record at its default (R155; log 20). -/
theorem issueStatus_next (hmax : 1 ≤ s.host.maxCmdLen) (hn : 1 ≤ s.host.statusReplyLen)
    (hnmax : s.host.statusReplyLen ≤ s.host.maxReplyLen) :
    ∃ buf : List Byte, buf.length = s.host.statusReplyLen ∧ issueStatus a j s = .next { s with
      fresh := s.fresh + s.host.statusReplyLen
      client := { s.client with job := j, status := DeviceStatus.unknown }
      hcs := { s.hcs with
        addr := a, cmds := [s.host.cmdStatus], idx := 0, echo := s.host.echoStatus, n := s.host.statusReplyLen
        buf := buf, phase := .write } } := by
  have hlen : ((List.range s.host.statusReplyLen).map fun i => freeByte (s.fresh + i)).length = s.host.statusReplyLen := by
    rw [List.length_map, List.length_range]
  exact ⟨_, hlen, issueThen_hostCmdN (s := (s.withClient { s.client with status := DeviceStatus.unknown }).draw _) hp j _ le_rfl hmax
    (replyOk_iff.2 ⟨hn, hnmax, hlen⟩)⟩

end Issue

/-- A status query that succeeded populates the record (R155). -/
theorem State.takeStatus_of_ok {s : State} {r : HsResult} (hr : r = .ok) :
    s.takeStatus r = s.withClient { s.client with status := decodeStatus s.host.wordOrder s.hcs.buf } := if_pos hr

/-- A status query that failed leaves the record as it is (R155). -/
theorem State.takeStatus_of_ne {s : State} {r : HsResult} (hr : r ≠ .ok) : s.takeStatus r = s := if_neg hr

/-! ## Upload -/

/-- Settles O56: each stage without a result issues its operation or ends its wait, and each result leads on by its case. -/
theorem uploadPhaseOrder : Obligations.UploadPhaseOrder := by
  intro s rest a image two i hs hp
  have hp' : (s.withSched rest).hcs.phase = .idle ∨ (s.withSched rest).hcs.phase = .done := hp
  refine ⟨fun second hmax hj => ?_, fun hj hmax hn hnmax => ?_, fun hj hlen => ?_, fun hj => ?_, fun hdone => ?_⟩
  · rw [step_of_upload hs hj]
    cases second <;> exact issueThen_hostCmd1 hp' _ _ le_rfl hmax
  · rw [step_of_upload hs hj]
    exact issueStatus_next hp' _ hmax hn hnmax
  · rw [step_of_upload hs hj]
    exact issueThen_hostCmd1 hp' _ _ (Nat.le_add_left 1 _) hlen
  · exact step_of_upload hs hj
  refine ⟨fun hj hok => ?_, fun hj hok => ?_, fun hj hne => ?_, fun hj hok hpages => ?_, fun hj hok hempty => ?_, fun hj hne => ?_⟩
  · rw [step_of_upload hs hj, uploadStep, onDone_of_done hdone]
    exact congrArg _ (if_pos hok)
  · rw [step_of_upload hs hj, uploadStep, onDone_of_done hdone]
    exact congrArg _ (if_pos hok)
  · obtain hj | hj := hj <;> rw [step_of_upload hs hj, uploadStep, onDone_of_done hdone] <;> exact congrArg _ (if_neg hne)
  · rw [step_of_upload hs hj, uploadStep, onDone_of_done hdone, if_pos hok, State.takeStatus_of_ok hok]
    exact congrArg _ (if_neg (Nat.pos_iff_ne_zero.1 hpages))
  · rw [step_of_upload hs hj, uploadStep, onDone_of_done hdone, if_pos hok, State.takeStatus_of_ok hok]
    exact congrArg _ (if_pos hempty)
  · rw [step_of_upload hs hj, uploadStep, onDone_of_done hdone]
    exact congrArg _ (if_neg hne)

/-- Settles O57: the result of a page decides, and behind a success the page count. -/
theorem uploadIsFailFast : Obligations.UploadIsFailFast := by
  intro s rest a image two i hs hj hdone
  rw [step_of_upload hs hj, uploadStep, onDone_of_done hdone]
  refine ⟨fun hne => congrArg _ (if_neg hne), fun hok hnext => ?_, fun hok hlast => ?_⟩
  · exact congrArg _ ((if_pos hok).trans (if_pos hnext))
  · exact congrArg _ ((if_pos hok).trans (if_neg (not_lt.2 hlast)))

/-! ## Status query by itself -/

/-- Settles O59: the record takes the bytes of the reply where R78 places them. -/
theorem statusQueryResult : Obligations.StatusQueryResult := by
  intro s rest a r0 r1 r2 r3 r4 r5 r6 r7 r8 r9 r10 hs hj hdone hbuf
  rw [step_of_query hs hj, queryStep, onDone_of_done hdone]
  refine ⟨fun hok horder => ?_, fun hok horder => ?_, fun hne => ?_⟩
  · rw [State.takeStatus_of_ok hok, State.withSched_hcs, State.withSched_host, hok, horder, hbuf]
    rfl
  · rw [State.takeStatus_of_ok hok, State.withSched_hcs, State.withSched_host, hok, horder, hbuf]
    rfl
  · rw [State.takeStatus_of_ne hne]
    rfl

/-! ## Find-first -/

/-- Settles O58: the answer to the probe decides, and behind a `NACK` the end of the walk. -/
theorem findFirstOrder : Obligations.FindFirstOrder := by
  intro s rest a ack hs hj
  rw [step_of_find hs hj]
  refine ⟨?_, ?_, ?_⟩
  · rintro rfl
    rfl
  · rintro rfl hnext
    exact if_pos hnext
  · rintro rfl hlast
    exact if_neg hlast

/-! ## Full scan -/

/-- Going on after an address writes the client layer alone (R161). -/
theorem State.scanNext_eq (a : PeerAddr) (es : List InfoRecord) (s : State) :
    s.scanNext a es = s.withClient (s.client.scanned s.host a es) := by
  unfold State.scanNext Client.scanned
  split <;> rfl

/-- Settles O60: the stages of one address in their order. -/
theorem scanOrder : Obligations.ScanOrder := by
  intro s rest a es hs
  refine ⟨fun ack hj => ?_, fun hj => ?_, fun hj hp hmax hn hnmax => ?_, fun hj hdone => ?_, fun e hj => ?_⟩
  · rw [step_of_scan hs hj]
    refine ⟨?_, ?_, ?_, ?_⟩
    · rintro rfl
      exact congrArg _ (State.scanNext_eq _ _ _)
    · rintro rfl hboot
      exact if_pos hboot
    · rintro rfl hboot happ
      exact ((if_neg hboot).trans (if_pos happ)).trans (congrArg _ (State.scanNext_eq _ _ _))
    · rintro rfl hboot happ
      exact ((if_neg hboot).trans (if_neg happ)).trans (congrArg _ (State.scanNext_eq _ _ _))
  · rw [step_of_scan hs hj, scanStep, State.withSched_client, State.scanNext_eq]
    refine ⟨fun hheld => ?_, fun hfree => ?_⟩
    · rw [if_pos hheld, Client.openConn_of_mem hheld]
      rfl
    · rw [if_neg hfree, Client.openConn_of_not_mem hfree]
      rfl
  · have hp' : (s.withSched rest).hcs.phase = .idle ∨ (s.withSched rest).hcs.phase = .done := hp
    rw [step_of_scan hs hj]
    exact issueStatus_next hp' _ hmax hn hnmax
  · rw [step_of_scan hs hj, scanStep, onDone_of_done hdone]
    refine ⟨?_, fun hne => ?_⟩
    · rintro st hok rfl
      rw [State.takeStatus_of_ok hok, queriedEntry, if_pos hok]
      rfl
    · rw [State.takeStatus_of_ne hne, queriedEntry, if_neg hne]
      rfl
  · rw [step_of_scan hs hj]
    exact congrArg _ (State.scanNext_eq _ _ _)

end Sys2Proof.Machine
end

