-- ==== Sys2Proof/Proofs/ReleasedOverflow.lean ====
section
/-! PROOFS. The overflow that comes to an SPE whose bus mode is not the one of its state (40_slave_bus_events.md R101 to R106, R178): no rule takes it.
The released mode is such a mode in every defined state (U9). -/

namespace Sys2Proof.Machine

/-- With any payload beside its word, an overflow runs the operation that the state selects (R84, R85). -/
theorem runRequest_ovf_of_payload (b : Byte) (p : Payload) {s : State} (hf : s.dev.speFault = none) :
    runRequest { word := mkWord 0x2#4 b, payload := p } s = exec (decodeOvf s.dev.st b) s := by
  have hdec : decodeRequest s.dev.st { word := mkWord 0x2#4 b, payload := p } = .ok (decodeOvf s.dev.st b) :=
    decode_evOvf s.dev.st b p
  have hrun : s.agentFaulted (decodeOvf s.dev.st b) = false :=
    State.agentFaulted_eq_false (fun _ => hf) (by rw [decodeOvf_agent]; exact nofun)
  simp [runRequest, hdec, hrun]

/-- In a defined state, an overflow whose bus mode is not the one of the state has no move (R178). -/
theorem exec_decodeOvf_of_ne {st : BitVec 3} {s : State} (hdef : st ≤ 5#3) (hbm : s.dev.bm ≠ pairedMode st) (b : Byte) :
    exec (decodeOvf st b) s = .fault (.noMove .overflowNotArmed) := by
  have hst : ∀ x : BitVec 3, x ≤ 5#3 → x = 0#3 ∨ x = 1#3 ∨ x = 2#3 ∨ x = 3#3 ∨ x = 4#3 ∨ x = 5#3 := by decide
  obtain rfl | rfl | rfl | rfl | rfl | rfl := hst st hdef
  all_goals exact takeArmed_of_ne hbm _

/-- No defined state takes an overflow in the released mode (R24, R178). -/
theorem released_ne_pairedMode : ∀ st : BitVec 3, st ≤ 5#3 → (0#3 : BitVec 3) ≠ pairedMode st := by decide

/-- Settles O18: the selected rule needs a mode that is not the released one. -/
theorem releasedOverflowHasNoMove : Obligations.ReleasedOverflowHasNoMove := by
  intro s b p hbm hdef hf
  have hmode : s.dev.bm ≠ pairedMode s.dev.st := hbm ▸ released_ne_pairedMode s.dev.st hdef
  exact (runRequest_ovf_of_payload b p hf).trans (exec_decodeOvf_of_ne hdef hmode b)

end Sys2Proof.Machine
end

