-- ==== Sys2Proof/Proofs/Resets.lean ====
section
/-! PROOFS. The two resets (70_reset_and_hazards.md R190, R191): what each leaves in every register, and that a step of either is that reset alone, in any
state. -/

namespace Sys2Proof.Machine

/-! ## A device reset, field by field -/

@[simp] theorem Device.resetSpe_cfg (d : Device) : d.resetSpe.cfg = d.cfg := rfl
@[simp] theorem Device.resetSpe_st (d : Device) : d.resetSpe.st = 0#3 := rfl
@[simp] theorem Device.resetSpe_bm (d : Device) : d.resetSpe.bm = 0#3 := rfl
@[simp] theorem Device.resetSpe_rxOvf (d : Device) : d.resetSpe.rxOvf = false := rfl
@[simp] theorem Device.resetSpe_ntf (d : Device) : d.resetSpe.ntf = [] := rfl
@[simp] theorem Device.resetSpe_speFault (d : Device) : d.resetSpe.speFault = d.speFault := rfl
@[simp] theorem Device.resetSpe_appFault (d : Device) : d.resetSpe.appFault = d.appFault := rfl

/-- Of the receive ring the storage alone stays (R31). -/
@[simp] theorem Device.resetSpe_rx (d : Device) : d.resetSpe.rx = { mem := d.rx.mem, head := 0, tail := 0, count := 0 } := rfl

/-- Of the transmit ring the storage alone stays (R31). -/
@[simp] theorem Device.resetSpe_tx (d : Device) : d.resetSpe.tx = { mem := d.tx.mem, head := 0, tail := 0, count := 0 } := rfl

/-! ## A host reset, field by field -/

@[simp] theorem State.resetHalf_dev (s : State) : s.resetHalf.dev = s.dev := rfl
@[simp] theorem State.resetHalf_peers (s : State) : s.resetHalf.peers = s.peers := rfl
@[simp] theorem State.resetHalf_host (s : State) : s.resetHalf.host = s.host := rfl
@[simp] theorem State.resetHalf_sched (s : State) : s.resetHalf.sched = s.sched := rfl
@[simp] theorem State.resetHalf_phase (s : State) : s.resetHalf.hcs.phase = .idle := rfl
@[simp] theorem State.resetHalf_held (s : State) : s.resetHalf.client.held = [] := rfl
@[simp] theorem State.resetHalf_conns (s : State) : s.resetHalf.client.conns = [] := rfl

/-! ## The steps -/

/-- A device reset is taken in every state, and writes the device in front alone. -/
theorem step_of_resetDevice {s : State} {rest : List Move} (hs : s.sched = .resetDevice :: rest) :
    step s = .next ((s.withSched rest).withDev s.dev.resetSpe) :=
  step_of_sched hs

/-- A host reset is taken in every state. -/
theorem step_of_resetHost {s : State} {rest : List Move} (hs : s.sched = .resetHost :: rest) :
    step s = .next (s.withSched rest).resetHalf :=
  step_of_sched hs

/-- Settles O48. -/
theorem deviceResetEffect : Obligations.DeviceResetEffect := by
  intro s rest hs
  refine ⟨_, step_of_resetDevice hs, ?_⟩
  simp

/-- Settles O49. -/
theorem hostResetEffect : Obligations.HostResetEffect := by
  intro s rest hs
  refine ⟨_, step_of_resetHost hs, ?_⟩
  simp

end Sys2Proof.Machine
end
